-- ==== Sys2Proof/Word.lean ====
section
/-! DEFINITION. The machine's word types (rule R7 of spec/00_scope.md): a Bitblock of width `w` is `BitVec w`. -/

namespace Sys2Proof

/-- One byte of the message buffer (rule R44). -/
abbrev Byte := BitVec 8

/-- A 64-bit Bitblock: a block, the DES key, a whitening constant, the chaining state (rule R7). -/
abbrev Block := BitVec 64

/-- A 32-bit half of a block (rule R7). -/
abbrev Half := BitVec 32

/-- A 48-bit round key (rule R7). -/
abbrev RoundKey := BitVec 48

/-- A 28-bit half of the key schedule (rule R7). -/
abbrev KeyHalf := BitVec 28

/-- A 32-bit command word: a number with no byte order (rules R90 and R73). -/
abbrev CmdWord := BitVec 32

end Sys2Proof
end

