-- ==== Sys2Proof/Syntax.lean ====
section
/-! DEFINITION. The 17 commands of rule R94 (spec/30_encoding.md), one constructor per row of the opcode table. -/

namespace Sys2Proof

/-- The commands (rule R94). No command names a register in its word (rule R90): the only operands
are the round count of MRTEST (rule R92) and the code point of DGADD (rule R93), both plain
unsigned numbers whose range `Instr.wf` checks. -/
inductive Instr where
  /-- NOP, rule R225 -/
  | nop
  /-- CLRERR, rule R226 -/
  | clrerr
  /-- DESKEY, rule R146 -/
  | deskey
  /-- DESENC, rule R158 -/
  | desenc
  /-- DESDEC, rule R159 -/
  | desdec
  /-- CBCINIT, rule R166 -/
  | cbcinit
  /-- CBCENC, rule R167 -/
  | cbcenc
  /-- CBCDEC, rule R168 -/
  | cbcdec
  /-- XENCM, rule R171 -/
  | xencm
  /-- XDECM, rule R172 -/
  | xdecm
  /-- MRTEST rounds, rule R189 -/
  | mrtest (rounds : Nat)
  /-- RABENC, rule R198 -/
  | rabenc
  /-- RABDEC, rule R203 -/
  | rabdec
  /-- DGCLR, rule R211 -/
  | dgclr
  /-- DGADD cp, rule R212 -/
  | dgadd (cp : Nat)
  /-- RSASIGN, rule R214 -/
  | rsasign
  /-- RSAVFY, rule R215 -/
  | rsavfy
  deriving DecidableEq, Repr

end Sys2Proof
end

