-- ==== Sys2Proof/WellFormed.lean ====
section
/-! DEFINITION. Which commands have a word: the operand ranges of rules R92 and R93 (spec/30_encoding.md). -/

namespace Sys2Proof

/-- A command is well formed when its operand fits its field: `rounds` in `[0, 65535]` (rule R92),
`cp` in `[0, 0x1FFFFF]` (rule R93). Format N has no operand (rule R91). -/
def Instr.wf : Instr → Bool
  | .mrtest rounds => decide (rounds < 2 ^ 16)
  | .dgadd cp => decide (cp < 2 ^ 21)
  | .nop => true
  | .clrerr => true
  | .deskey => true
  | .desenc => true
  | .desdec => true
  | .cbcinit => true
  | .cbcenc => true
  | .cbcdec => true
  | .xencm => true
  | .xdecm => true
  | .rabenc => true
  | .rabdec => true
  | .dgclr => true
  | .rsasign => true
  | .rsavfy => true

end Sys2Proof
end

