-- ==== Sys2Proof/Decode.lean ====
section
/-! DEFINITION. Decoding and encoding of command words (rules R90 to R97 and R101 of spec/30_encoding.md). -/

namespace Sys2Proof

/-- Why a word selects no command (rule R95). Both are IllegalCommand to the machine. -/
inductive Reject where
  /-- The opcode is none of the 17 listed values. -/
  | unassignedOpcode
  /-- The opcode is listed, and a bit its format says must be 0 is set. -/
  | reservedBits
  deriving DecidableEq, Repr

/-- `OPC`, bits 31:24 of the word (rule R90). -/
def opcodeOf (w : CmdWord) : Nat := (w.extractLsb' 24 8).toNat

/-- The format-N command of an opcode (rule R94). -/
def formatN : Nat → Option Instr
  | 0x00 => some .nop
  | 0x01 => some .clrerr
  | 0x10 => some .deskey
  | 0x11 => some .desenc
  | 0x12 => some .desdec
  | 0x20 => some .cbcinit
  | 0x21 => some .cbcenc
  | 0x22 => some .cbcdec
  | 0x23 => some .xencm
  | 0x24 => some .xdecm
  | 0x40 => some .rabenc
  | 0x41 => some .rabdec
  | 0x50 => some .dgclr
  | 0x52 => some .rsasign
  | 0x53 => some .rsavfy
  | _ => none

/-- The decode step of rule R101, total on 32-bit words: format R for opcode 0x30, format C for
opcode 0x51, format N for the rest. -/
def decode (w : CmdWord) : Except Reject Instr :=
  if opcodeOf w = 0x30 then
    if w.extractLsb' 16 8 = 0#8 then .ok (.mrtest (w.extractLsb' 0 16).toNat) else .error .reservedBits
  else if opcodeOf w = 0x51 then
    if w.extractLsb' 21 3 = 0#3 then .ok (.dgadd (w.extractLsb' 0 21).toNat) else .error .reservedBits
  else
    match formatN (opcodeOf w) with
    | some i => if w.extractLsb' 0 24 = 0#24 then .ok i else .error .reservedBits
    | none => .error .unassignedOpcode

/-- The opcode of each command (rule R94). -/
def opcodeFor : Instr → Nat
  | .nop => 0x00
  | .clrerr => 0x01
  | .deskey => 0x10
  | .desenc => 0x11
  | .desdec => 0x12
  | .cbcinit => 0x20
  | .cbcenc => 0x21
  | .cbcdec => 0x22
  | .xencm => 0x23
  | .xdecm => 0x24
  | .mrtest _ => 0x30
  | .rabenc => 0x40
  | .rabdec => 0x41
  | .dgclr => 0x50
  | .dgadd _ => 0x51
  | .rsasign => 0x52
  | .rsavfy => 0x53

/-- Bits 23:0 of a command's word (rule R90): `rounds` in bits 15:0, `cp` in bits 20:0, else 0. -/
def operandBits : Instr → BitVec 24
  | .mrtest rounds => (BitVec.ofNat 16 rounds).setWidth 24
  | .dgadd cp => (BitVec.ofNat 21 cp).setWidth 24
  | _ => 0#24

/-- The word of a well-formed command (rule R94): opcode in bits 31:24, operand field below. -/
def encode (i : Instr) : CmdWord := BitVec.ofNat 8 (opcodeFor i) ++ operandBits i

/-- The command the decoder reads from the low `nbits` bits of `w`, every bit above them 0. A command
is one 32-bit number with no byte order (rule R73), so there is nothing to lay out. -/
def decodeTableWord (nbits w : Nat) : Option Instr :=
  if w % 2 ^ nbits < 2 ^ 32 then
    match decode (BitVec.ofNat 32 (w % 2 ^ nbits)) with
    | .ok i => some i
    | .error _ => none
  else none

end Sys2Proof
end

