-- ==== Sys2Proof/Config.lean ====
section
/-! DEFINITION. What an instance fixes and what the spec leaves free (rules R8, R9, R49, R51, R188). -/

namespace Sys2Proof

/-- The two parameters of an instance. `nbits` is `NBITS`, the width of the big-integer registers
(rule R8); `msgmax` is `MSGMAX`, the capacity of the message buffer in bytes (rule R9). -/
structure Params where
  nbits : Nat
  msgmax : Nat
  deriving DecidableEq, Repr

/-- The constraints of rules R8 and R9 on the parameters. -/
def Params.wf (c : Params) : Bool :=
  decide (64 ≤ c.nbits) && decide (8 ≤ c.msgmax) && decide (c.msgmax % 8 = 0)

/-- The parameters of the instance that `State.reset` shows. DESIGN CHOICE (log 4): the spec leaves
both open; 1024 is what the end-to-end scenario of rule R241 needs, 64 what the programs of
spec/95_test_vectors.md use. -/
def Config.resetParams : Params := { nbits := 1024, msgmax := 64 }

/-- The value every register that rule R49 leaves unspecified holds in `State.reset`. DESIGN CHOICE
(log 1), unsafe: rule R49 says that a model must not pick zero. -/
def Config.resetFill : Nat := 0x5A

/-- What a byte of the message buffer that the memory does not list reads as. DESIGN CHOICE (log 1),
unsafe: rule R49 leaves the buffer unspecified. -/
def Config.unlistedByte : Byte := 0x5A#8

/-- The randomness oracle's raw answer to draw number `k` when no answer is supplied from outside
(rules R51 and R188). Nothing constrains it. -/
opaque Config.oracleAnswer (k : Nat) : Nat

/-- The unspecified contents (rule R49) after reset event number `k`: a raw number for each item,
of which a register takes what fits it. Nothing constrains it. -/
opaque Config.unspecified (k item : Nat) : Nat

end Sys2Proof
end

