-- ==== Sys2Proof/Machine/State.lean ====
section
/-! DEFINITION. The whole state of one CORE instance and of the two agents beside it (rules R21 and
R30 to R51 of spec/00_scope.md and spec/10_state.md), and the state right after reset (rule R49). -/

namespace Sys2Proof.Machine

/-- The values the hardware writes to `STATUS.ERR` (rule R251): "a model may give `ERR` the type of
the seven values the hardware writes". -/
inductive Err where
  /-- code 0: no error -/
  | none
  /-- code 1: a DES command while no key is bound (rule R252) -/
  | keyNotSet
  /-- code 2: the labelled message is not below the modulus (rule R253) -/
  | messageTooLarge
  /-- code 3: two or more candidates carry the marker (rule R254) -/
  | ambiguous
  /-- code 4: no candidate carries the marker (rule R254) -/
  | noValidRoot
  /-- code 8: the word decodes to no command (rule R260) -/
  | illegalCommand
  /-- code 9: a zero modulus or a bad `MLEN` (rule R262) -/
  | badOperand
  deriving DecidableEq, Repr

/-- The direction of the block transform (rule R153). -/
inductive Direction where
  | encrypt
  | decrypt
  deriving DecidableEq, Repr

/-- The registers of rule R30's table, by name. `rk i` is `RK[i + 1]`. -/
inductive Reg where
  | cmd | status | din | dout | k1 | k2 | iv | chain | mlen | marker | h | key
  | rk (i : Fin 16)
  | x | y | rp | rq | ra | rb | rn | sn | se | sd
  deriving DecidableEq, Repr

/-- What can happen to an instance in one step: the host's four actions (rule R32; a `wr` to register
number 0 issues a command, rule R33), and the reset input (rule R280). -/
inductive Action where
  /-- `WR num, v` -/
  | wr (num : Nat) (v : Int)
  /-- `RD num` -/
  | rd (num : Nat)
  /-- `WRM addr, b` -/
  | wrm (addr : Nat) (b : Byte)
  /-- `RDM addr` -/
  | rdm (addr : Nat)
  /-- the reset event, applied from outside (rule R280) -/
  | reset
  deriving DecidableEq, Repr

/-- The host agent (rule R21). "A program in this spec is a list of host actions in the order the host
performs them" (rule R31): `todo` is that list, `seen` the values its reads returned, newest first. -/
structure HostAgent where
  todo : List Action
  seen : List Int
  deriving DecidableEq, Repr

/-- The randomness oracle (rules R21 and R51): `answers` are answers supplied from outside, used one
a draw; `drawn` counts the draws made, and picks the opaque answer when none is supplied. -/
structure Oracle where
  answers : List Nat
  drawn : Nat
  deriving DecidableEq, Repr

/-- The message buffer (rule R44) as the list of its bytes that differ from `Config.unlistedByte`, by
strictly rising address. -/
abbrev Memory := List Host.Cell

/-- The state. The registers are those of rule R30, under their own names in lower case; `STATUS` is
kept as its five fields (rule R34) and read as one word by `statusWord`. A big-integer register holds
a mathematical integer (rules R16, R40, R41) whose range is part of the invariant. -/
structure State where
  /-- `NBITS` and `MSGMAX`, fixed for the instance (rule R51): no step changes them. -/
  params : Params
  /-- `STATUS.ERR`, the error latch (rule R255) -/
  err : Err
  /-- `STATUS.KEYV`: a DES key is bound (rule R37) -/
  keyv : Bool
  /-- `STATUS.P`: result of the last completed MRTEST (rule R46) -/
  flagP : Bool
  /-- `STATUS.V`: result of the last completed RSAVFY (rule R46) -/
  flagV : Bool
  /-- `STATUS.ROOTS`: marker-match mask of the last RABDEC that got to the check (rule R46) -/
  roots : BitVec 4
  /-- `DIN` (rule R35) -/
  din : Block
  /-- `DOUT` (rule R36) -/
  dout : Block
  /-- `K1`, pre-whitening key (rule R39) -/
  k1 : Block
  /-- `K2`, post-whitening key (rule R39) -/
  k2 : Block
  /-- `IV`, chaining seed (rule R39) -/
  iv : Block
  /-- `CHAIN`, chaining state (rule R39) -/
  chain : Block
  /-- `MLEN`, message length in bytes (rule R45) -/
  mlen : BitVec 32
  /-- `MARKER`, Rabin label pattern (rule R42) -/
  marker : BitVec 16
  /-- `H`, digest accumulator (rule R43) -/
  h : BitVec 32
  /-- `KEY`, the bound DES key (rule R37) -/
  key : Block
  /-- `RK[1..16]`, the cached round keys (rule R38); `rk[i]` is `RK[i + 1]` -/
  rk : Vector RoundKey 16
  /-- `X`, big operand in (rule R40) -/
  x : Nat
  /-- `Y`, big result out (rule R40) -/
  y : Nat
  /-- `RP`, Rabin prime p (rule R40) -/
  rp : Nat
  /-- `RQ`, Rabin prime q (rule R40) -/
  rq : Nat
  /-- `RA`, Bézout coefficient a (rule R41) -/
  ra : Int
  /-- `RB`, Bézout coefficient b (rule R41) -/
  rb : Int
  /-- `RN`, Rabin modulus n (rule R40) -/
  rn : Nat
  /-- `SN`, RSA modulus n (rule R40) -/
  sn : Nat
  /-- `SE`, RSA public exponent e (rule R40) -/
  se : Nat
  /-- `SD`, RSA private exponent d (rule R40) -/
  sd : Nat
  /-- `MSG`, the message buffer (rule R44) -/
  msg : Memory
  /-- the randomness oracle: an agent, not state of the CORE (DESIGN CHOICE, safe, log 3) -/
  oracle : Oracle
  /-- how many reset events have happened: the model's own counter, which picks the free contents
  that rule R49 leaves after the next one (DESIGN CHOICE, safe, log 5) -/
  resets : Nat
  /-- the host: an agent, not state of the CORE (DESIGN CHOICE, safe, log 2) -/
  host : HostAgent
  deriving DecidableEq, Repr

/-- Why the machine stops. The spec has no stop: every error is latched and the machine goes on. -/
inductive Fault where
  /-- Raised by a host write of a value outside the register's range, which rule R32 says "is not
  possible: the port carries exactly the register's width". Safe: no run of the hardware gets here. -/
  | portValue
  deriving DecidableEq, Repr

/-- Why a step has no meaning. -/
inductive Refusal where
  /-- Raised by an arm of `exec` for an instruction the model does not cover; no arm does. Safe. -/
  | notModelled (mnemonic : String)
  deriving DecidableEq, Repr

/-- The three outcomes of a step of this machine. -/
abbrev Outcome := Host.Outcome State Fault Refusal

/-- The state right after reset (rule R49): `STATUS` is 0; every other register, which the rule leaves
unspecified, holds `Config.resetFill` (DESIGN CHOICE, unsafe, log 1); the buffer lists no byte; no action is
pending. -/
def State.reset : State where
  params := Config.resetParams
  err := .none
  keyv := false
  flagP := false
  flagV := false
  roots := 0#4
  din := BitVec.ofNat 64 Config.resetFill
  dout := BitVec.ofNat 64 Config.resetFill
  k1 := BitVec.ofNat 64 Config.resetFill
  k2 := BitVec.ofNat 64 Config.resetFill
  iv := BitVec.ofNat 64 Config.resetFill
  chain := BitVec.ofNat 64 Config.resetFill
  mlen := BitVec.ofNat 32 Config.resetFill
  marker := BitVec.ofNat 16 Config.resetFill
  h := BitVec.ofNat 32 Config.resetFill
  key := BitVec.ofNat 64 Config.resetFill
  rk := Vector.replicate 16 (BitVec.ofNat 48 Config.resetFill)
  x := Config.resetFill
  y := Config.resetFill
  rp := Config.resetFill
  rq := Config.resetFill
  ra := Config.resetFill
  rb := Config.resetFill
  rn := Config.resetFill
  sn := Config.resetFill
  se := Config.resetFill
  sd := Config.resetFill
  msg := []
  oracle := { answers := [], drawn := 0 }
  resets := 0
  host := { todo := [], seen := [] }

end Sys2Proof.Machine
end

