-- ==== Sys2Proof/Machine/BigInt.lean ====
section
/-! DEFINITION. Big-integer arithmetic (rules R16 to R19 of spec/00_scope.md): exact integers, the
non-negative residue, modular exponentiation. -/

namespace Sys2Proof.Machine

/-- Square-and-multiply over at most `fuel` bits of the exponent. -/
def modexpSteps : Nat → Nat → Nat → Nat → Nat
  | 0, _, _, n => 1 % n
  | fuel + 1, b, e, n =>
    if e = 0 then 1 % n
    else if e % 2 = 1 then b * modexpSteps fuel (b * b % n) (e / 2) n % n
    else modexpSteps fuel (b * b % n) (e / 2) n

/-- `modexp(b, e, n) = (b^e) mod n`, `b^0 = 1` for every `b` (rule R18, which says that how it is
computed is not architectural; `modexp_eq` in Laws/BigInt.lean says that it is `b ^ e % n`). The rule asks `n >= 1`; no command gets
here with 0 (log 19). -/
def modexp (b e n : Nat) : Nat := modexpSteps (e.log2 + 1) (b % n) e n

/-- `x mod n`, the unique residue in `[0, n)` of an integer of either sign, for `n >= 1` (rule R17; no command
gets here with 0, log 19). -/
def residue (x : Int) (n : Nat) : Nat := (x % (n : Int)).toNat

/-- `low16(x) = x mod 2^16` (rule R19). -/
def low16 (x : Nat) : Nat := x % 2 ^ 16

end Sys2Proof.Machine
end

