-- ==== Sys2Proof/Machine/DesNetwork.lean ====
section
/-! DEFINITION. Unit 1: the DES bit-permutation and S-box network (rules R12 to R15 of spec/00_scope.md,
rules R110 to R129 of spec/40_des_network.md). Pure functions of constant tables. -/

namespace Sys2Proof.Machine

/-- `bit(v, w, i)`: the bit at source position `i`, 1 the most significant (rule R13). -/
def bitAt {w : Nat} (v : BitVec w) (i : Nat) : Nat := (v.toNat >>> (w - i)) % 2

/-- `permute(v, w, T)` with an `m`-entry table (rule R111): output position `j` is input position
`T[j]`, the first entry giving the most significant output bit. -/
def permute {w : Nat} (m : Nat) (table : List Nat) (v : BitVec w) : BitVec m :=
  BitVec.ofNat m (table.foldl (fun acc i => 2 * acc + bitAt v i) 0)

/-- `IP_TABLE` (rule R112). -/
def ipTable : List Nat :=
  [ 58, 50, 42, 34, 26, 18, 10, 2,
    60, 52, 44, 36, 28, 20, 12, 4,
    62, 54, 46, 38, 30, 22, 14, 6,
    64, 56, 48, 40, 32, 24, 16, 8,
    57, 49, 41, 33, 25, 17, 9, 1,
    59, 51, 43, 35, 27, 19, 11, 3,
    61, 53, 45, 37, 29, 21, 13, 5,
    63, 55, 47, 39, 31, 23, 15, 7 ]

/-- `FP_TABLE` (rule R113). -/
def fpTable : List Nat :=
  [ 40, 8, 48, 16, 56, 24, 64, 32,
    39, 7, 47, 15, 55, 23, 63, 31,
    38, 6, 46, 14, 54, 22, 62, 30,
    37, 5, 45, 13, 53, 21, 61, 29,
    36, 4, 44, 12, 52, 20, 60, 28,
    35, 3, 43, 11, 51, 19, 59, 27,
    34, 2, 42, 10, 50, 18, 58, 26,
    33, 1, 41, 9, 49, 17, 57, 25 ]

/-- `E_TABLE` (rule R115). -/
def eTable : List Nat :=
  [ 32, 1, 2, 3, 4, 5,
    4, 5, 6, 7, 8, 9,
    8, 9, 10, 11, 12, 13,
    12, 13, 14, 15, 16, 17,
    16, 17, 18, 19, 20, 21,
    20, 21, 22, 23, 24, 25,
    24, 25, 26, 27, 28, 29,
    28, 29, 30, 31, 32, 1 ]

/-- `P_TABLE` (rule R116). -/
def pTable : List Nat :=
  [ 16, 7, 20, 21,
    29, 12, 28, 17,
    1, 15, 23, 26,
    5, 18, 31, 10,
    2, 8, 24, 14,
    32, 27, 3, 9,
    19, 13, 30, 6,
    22, 11, 4, 25 ]

/-- `PC1_TABLE` (rule R127). -/
def pc1Table : List Nat :=
  [ 57, 49, 41, 33, 25, 17, 9,
    1, 58, 50, 42, 34, 26, 18,
    10, 2, 59, 51, 43, 35, 27,
    19, 11, 3, 60, 52, 44, 36,
    63, 55, 47, 39, 31, 23, 15,
    7, 62, 54, 46, 38, 30, 22,
    14, 6, 61, 53, 45, 37, 29,
    21, 13, 5, 28, 20, 12, 4 ]

/-- `PC2_TABLE` (rule R128). -/
def pc2Table : List Nat :=
  [ 14, 17, 11, 24, 1, 5,
    3, 28, 15, 6, 21, 10,
    23, 19, 12, 4, 26, 8,
    16, 7, 27, 20, 13, 2,
    41, 52, 31, 37, 47, 55,
    30, 40, 51, 45, 33, 48,
    44, 49, 39, 56, 34, 53,
    46, 42, 50, 36, 29, 32 ]

/-- `IP` (rule R112). -/
def initialPerm (v : BitVec 64) : BitVec 64 := permute 64 ipTable v

/-- `FP` (rule R113). -/
def finalPerm (v : BitVec 64) : BitVec 64 := permute 64 fpTable v

/-- `E` (rule R115). -/
def expand (v : BitVec 32) : BitVec 48 := permute 48 eTable v

/-- `P` (rule R116). -/
def pbox (v : BitVec 32) : BitVec 32 := permute 32 pTable v

/-- `PC1`, which drops the parity positions (rule R127). -/
def pc1 (v : BitVec 64) : BitVec 56 := permute 56 pc1Table v

/-- `PC2` (rule R128). -/
def pc2 (v : BitVec 56) : BitVec 48 := permute 48 pc2Table v

/-- Table `S_1`, by row and column (rule R118). -/
def sTable1 : List (List Nat) :=
  [ [14, 4, 13, 1, 2, 15, 11, 8, 3, 10, 6, 12, 5, 9, 0, 7],
    [0, 15, 7, 4, 14, 2, 13, 1, 10, 6, 12, 11, 9, 5, 3, 8],
    [4, 1, 14, 8, 13, 6, 2, 11, 15, 12, 9, 7, 3, 10, 5, 0],
    [15, 12, 8, 2, 4, 9, 1, 7, 5, 11, 3, 14, 10, 0, 6, 13] ]

/-- Table `S_2`, by row and column (rule R119). -/
def sTable2 : List (List Nat) :=
  [ [15, 1, 8, 14, 6, 11, 3, 4, 9, 7, 2, 13, 12, 0, 5, 10],
    [3, 13, 4, 7, 15, 2, 8, 14, 12, 0, 1, 10, 6, 9, 11, 5],
    [0, 14, 7, 11, 10, 4, 13, 1, 5, 8, 12, 6, 9, 3, 2, 15],
    [13, 8, 10, 1, 3, 15, 4, 2, 11, 6, 7, 12, 0, 5, 14, 9] ]

/-- Table `S_3`, by row and column (rule R120). -/
def sTable3 : List (List Nat) :=
  [ [10, 0, 9, 14, 6, 3, 15, 5, 1, 13, 12, 7, 11, 4, 2, 8],
    [13, 7, 0, 9, 3, 4, 6, 10, 2, 8, 5, 14, 12, 11, 15, 1],
    [13, 6, 4, 9, 8, 15, 3, 0, 11, 1, 2, 12, 5, 10, 14, 7],
    [1, 10, 13, 0, 6, 9, 8, 7, 4, 15, 14, 3, 11, 5, 2, 12] ]

/-- Table `S_4`, by row and column (rule R121). -/
def sTable4 : List (List Nat) :=
  [ [7, 13, 14, 3, 0, 6, 9, 10, 1, 2, 8, 5, 11, 12, 4, 15],
    [13, 8, 11, 5, 6, 15, 0, 3, 4, 7, 2, 12, 1, 10, 14, 9],
    [10, 6, 9, 0, 12, 11, 7, 13, 15, 1, 3, 14, 5, 2, 8, 4],
    [3, 15, 0, 6, 10, 1, 13, 8, 9, 4, 5, 11, 12, 7, 2, 14] ]

/-- Table `S_5`, by row and column (rule R122). -/
def sTable5 : List (List Nat) :=
  [ [2, 12, 4, 1, 7, 10, 11, 6, 8, 5, 3, 15, 13, 0, 14, 9],
    [14, 11, 2, 12, 4, 7, 13, 1, 5, 0, 15, 10, 3, 9, 8, 6],
    [4, 2, 1, 11, 10, 13, 7, 8, 15, 9, 12, 5, 6, 3, 0, 14],
    [11, 8, 12, 7, 1, 14, 2, 13, 6, 15, 0, 9, 10, 4, 5, 3] ]

/-- Table `S_6`, by row and column (rule R123). -/
def sTable6 : List (List Nat) :=
  [ [12, 1, 10, 15, 9, 2, 6, 8, 0, 13, 3, 4, 14, 7, 5, 11],
    [10, 15, 4, 2, 7, 12, 9, 5, 6, 1, 13, 14, 0, 11, 3, 8],
    [9, 14, 15, 5, 2, 8, 12, 3, 7, 0, 4, 10, 1, 13, 11, 6],
    [4, 3, 2, 12, 9, 5, 15, 10, 11, 14, 1, 7, 6, 0, 8, 13] ]

/-- Table `S_7`, by row and column (rule R124). -/
def sTable7 : List (List Nat) :=
  [ [4, 11, 2, 14, 15, 0, 8, 13, 3, 12, 9, 7, 5, 10, 6, 1],
    [13, 0, 11, 7, 4, 9, 1, 10, 14, 3, 5, 12, 2, 15, 8, 6],
    [1, 4, 11, 13, 12, 3, 7, 14, 10, 15, 6, 8, 0, 5, 9, 2],
    [6, 11, 13, 8, 1, 4, 10, 7, 9, 5, 0, 15, 14, 2, 3, 12] ]

/-- Table `S_8`, by row and column (rule R125). -/
def sTable8 : List (List Nat) :=
  [ [13, 2, 8, 4, 6, 15, 11, 1, 10, 9, 3, 14, 5, 0, 12, 7],
    [1, 15, 13, 8, 10, 3, 7, 4, 12, 5, 6, 11, 0, 14, 9, 2],
    [7, 11, 4, 1, 9, 12, 14, 2, 0, 6, 10, 13, 15, 3, 5, 8],
    [2, 1, 14, 7, 4, 10, 8, 13, 15, 12, 9, 0, 3, 5, 6, 11] ]

/-- The eight S-box tables in order (rule R117). -/
def sTables : List (List (List Nat)) :=
  [sTable1, sTable2, sTable3, sTable4, sTable5, sTable6, sTable7, sTable8]

/-- `row(g) = (bit5 << 1) | bit0` (rule R117; the bit numbers as 90_conflicts.md C4 reads them). -/
def sboxRow (g : Nat) : Nat := 2 * (g / 32 % 2) + g % 2

/-- `col(g) = g[4:1]`, the middle four bits (rule R117). -/
def sboxCol (g : Nat) : Nat := g / 2 % 16

/-- `SBOX_j(g) = S_j[row(g)][col(g)]` (rule R117). -/
def sboxEntry (table : List (List Nat)) (g : Nat) : Nat :=
  (table.getD (sboxRow g) []).getD (sboxCol g) 0

/-- The 6-bit group that stands `shift` bits above the least significant end: `(x >> shift) & 0x3F`;
group `j` has `shift = 48 - 6j` (rule R117). -/
def sboxGroup (x : BitVec 48) (shift : Nat) : Nat := (x.toNat >>> shift) % 64

/-- The S-boxes of `tables`, applied to the groups from `shift` downwards, outputs concatenated with
the first most significant (rule R126). -/
def sboxesFrom (x : BitVec 48) : List (List (List Nat)) → Nat → Nat → Nat
  | [], _, acc => acc
  | table :: rest, shift, acc =>
    sboxesFrom x rest (shift - 6) (16 * acc + sboxEntry table (sboxGroup x shift))

/-- `SBOXES(x)`, 48 bits in, 32 bits out, group 1's output most significant (rule R126). -/
def sboxes (x : BitVec 48) : Half := BitVec.ofNat 32 (sboxesFrom x sTables 42 0)

end Sys2Proof.Machine
end

