-- ==== Sys2Proof/Machine/DesEngine.lean ====
section
/-! DEFINITION. Units 3 and 2: the DES key schedule (rules R140 to R147 of
spec/41_des_key_schedule.md) and the Feistel round engine (rules R150 to R157 of
spec/42_des_round_engine.md). Pure functions. -/

namespace Sys2Proof.Machine

/-- `rotl28(x, k)`: left rotation of a 28-bit half (rule R15). -/
def rotl28 (x : KeyHalf) (k : Nat) : KeyHalf := (x <<< k) ||| (x >>> (28 - k))

/-- `SHIFT[1..16]`: 1 in rounds 1, 2, 9 and 16, else 2 (rule R141). -/
def shiftSchedule : List Nat := [1, 1, 2, 2, 2, 2, 2, 2, 1, 2, 2, 2, 2, 2, 2, 1]

/-- `C_0`, positions 1 to 28 of `PC1(k)` (rule R140). -/
def c0 (k : Block) : KeyHalf := (pc1 k).extractLsb' 28 28

/-- `D_0`, positions 29 to 56 of `PC1(k)` (rule R140). -/
def d0 (k : Block) : KeyHalf := (pc1 k).extractLsb' 0 28

/-- The round keys of the rounds whose shifts are listed, from the halves before them: rotate both
halves (rule R142), then `PC2(C_i || D_i)` (rule R143). -/
def roundKeysFrom : List Nat → KeyHalf → KeyHalf → List RoundKey
  | [], _, _ => []
  | k :: rest, c, d =>
    pc2 (rotl28 c k ++ rotl28 d k) :: roundKeysFrom rest (rotl28 c k) (rotl28 d k)

/-- The list has one round key a shift. -/
theorem roundKeysFrom_length (shifts : List Nat) (c d : KeyHalf) :
    (roundKeysFrom shifts c d).length = shifts.length := by
  induction shifts generalizing c d with
  | nil => rfl
  | cons k rest ih => simp only [roundKeysFrom, List.length_cons, ih]

/-- `roundkey(k, 1..16)`, the one list of both directions (rules R143 and R144). -/
def keySchedule (k : Block) : Vector RoundKey 16 :=
  ⟨(roundKeysFrom shiftSchedule (c0 k) (d0 k)).toArray, by
    simp only [List.size_toArray, roundKeysFrom_length]; rfl⟩

/-- The Feistel function: expand, XOR with the round key, substitute, permute (rule R150). -/
def feistel (r : Half) (k : RoundKey) : Half := pbox (sboxes (expand r ^^^ k))

/-- One round: `L_i = R_(i-1)`, `R_i = L_(i-1) xor feistel(R_(i-1), k_i)` (rule R152). -/
def feistelRound (lr : Half × Half) (k : RoundKey) : Half × Half :=
  (lr.2, lr.1 ^^^ feistel lr.2 k)

/-- `k_1 .. k_16`: the cached list when encrypting, the same list backwards when decrypting
(rule R153). -/
def roundOrder (rk : Vector RoundKey 16) : Direction → List RoundKey
  | .encrypt => rk.toList
  | .decrypt => rk.toList.reverse

/-- `L_0`, `R_0`: the halves of `IP(b)` (rule R151). -/
def entryHalves (b : Block) : Half × Half :=
  ((initialPerm b).extractLsb' 32 32, (initialPerm b).extractLsb' 0 32)

/-- The exit: swap the halves, concatenate, `FP` (rule R154). -/
def exitBlock (lr : Half × Half) : Block := finalPerm (lr.2 ++ lr.1)

/-- `processBlock(RK, b, dir)`, the whole transform (rule R155). -/
def processBlock (rk : Vector RoundKey 16) (b : Block) (dir : Direction) : Block :=
  exitBlock ((roundOrder rk dir).foldl feistelRound (entryHalves b))

end Sys2Proof.Machine
end

