-- ==== Sys2Proof/Machine/Flags.lean ====
section
/-! DEFINITION. The STATUS word, the error codes and the flag computations (rules R34, R46 of
spec/10_state.md, R251 of spec/60_exceptions.md, R201 of spec/45_rabin.md). -/

namespace Sys2Proof.Machine

/-- The code of an error kind in `STATUS.ERR` (rule R251). -/
def errCode : Err → BitVec 4
  | .none => 0
  | .keyNotSet => 1
  | .messageTooLarge => 2
  | .ambiguous => 3
  | .noValidRoot => 4
  | .illegalCommand => 8
  | .badOperand => 9

/-- The `STATUS` word (rule R34): ERR in bits 3:0, KEYV bit 4, P bit 5, V bit 6, ROOTS in bits 11:8;
bits 7 and 31:12 read 0. -/
def statusWord (s : State) : BitVec 32 :=
  0#20 ++ s.roots ++ 0#1 ++ BitVec.ofBool s.flagV ++ BitVec.ofBool s.flagP ++ BitVec.ofBool s.keyv
    ++ errCode s.err

/-- `ROOTS`: bit `i - 1` is 1 when candidate `x_i` carries the marker (rules R34 and R203). -/
def rootsMask (v1 v2 v3 v4 : Bool) : BitVec 4 :=
  BitVec.ofBool v4 ++ BitVec.ofBool v3 ++ BitVec.ofBool v2 ++ BitVec.ofBool v1

/-- `valid_1 + valid_2 + valid_3 + valid_4`: how many positions carry the marker (rule R202). -/
def validCount (v1 v2 v3 v4 : Bool) : Nat := v1.toNat + v2.toNat + v3.toNat + v4.toNat

end Sys2Proof.Machine
end

