-- ==== Sys2Proof/Machine/Ops.lean ====
section
/-! DEFINITION. The named operations over memory, registers, the error latch and the oracle: the
message buffer (rules R44, R84), raising and clearing an error (rules R255 to R258), the draw (rule
R188), the registers of the access port (rules R30, R32, R50) and reset (rules R49, R280). -/

namespace Sys2Proof.Machine

/-! ## The message buffer -/

/-- `MSG[a]`: the listed byte, else `Config.unlistedByte`. -/
def Memory.read : Memory → Nat → Byte
  | [], _ => Config.unlistedByte
  | cell :: rest, a => if cell.1 = a then cell.2 else Memory.read rest a

/-- The cell of a byte, if it has to be listed. -/
def cellFor (a : Nat) (b : Byte) : Memory := if b = Config.unlistedByte then [] else [(a, b)]

/-- `MSG[a] <- b`, keeping the canonical form. -/
def Memory.write : Memory → Nat → Byte → Memory
  | [], a, b => cellFor a b
  | cell :: rest, a, b =>
    if a < cell.1 then cellFor a b ++ cell :: rest
    else if a = cell.1 then cellFor a b ++ rest
    else cell :: Memory.write rest a b

/-- The canonical form: strictly rising addresses, no listed byte equal to `Config.unlistedByte`. -/
def Memory.wf : Memory → Bool
  | [] => true
  | cell :: rest =>
    (rest.all fun other => decide (cell.1 < other.1)) && decide (cell.2 ≠ Config.unlistedByte)
      && Memory.wf rest

/-- Every listed address is below `limit`: the buffer has no byte beyond `MSGMAX - 1` (rule R70). -/
def Memory.below (limit : Nat) (m : Memory) : Bool := m.all fun cell => decide (cell.1 < limit)

/-- The buffer whose bytes `0 .. n - 1` are `f 0 .. f (n - 1)`. -/
def Memory.fill (f : Nat → Byte) : Nat → Memory
  | 0 => []
  | n + 1 => Memory.write (Memory.fill f n) n (f n)

/-! ## The error latch -/

/-- `raise K`: `ERR <- code(K)` and nothing else (rule R256). The command stops; control goes
nowhere, since there is no program counter and no handler (rule R250). -/
def raise (k : Err) (s : State) : Outcome := .next { s with err := k }

/-- The one return: `ERR <- 0`, nothing restored because raising saved nothing (rule R258). -/
def clearErr (s : State) : State := { s with err := .none }

/-! ## The randomness oracle -/

/-- An answer of the oracle brought into `[lo, hi]`: itself when it lies there, else folded in, so
that every answer in range is possible and no other is (rule R188). -/
def clip (lo hi u : Nat) : Nat := if lo ≤ u ∧ u ≤ hi then u else lo + u % (hi - lo + 1)

/-- `draw(lo, hi)`: the next answer supplied from outside, else the opaque answer of this draw's
number (rules R20, R51 and R188). -/
def draw (lo hi : Nat) (o : Oracle) : Nat × Oracle :=
  match o.answers with
  | [] => (clip lo hi (Config.oracleAnswer o.drawn), { o with drawn := o.drawn + 1 })
  | u :: rest => (clip lo hi u, { answers := rest, drawn := o.drawn + 1 })

/-! ## The registers of the access port -/

/-- The registers numbered 0x00 to 0x0B, in order (rule R30). -/
def lowRegs : List Reg :=
  [.cmd, .status, .din, .dout, .k1, .k2, .iv, .chain, .mlen, .marker, .h, .key]

/-- The registers numbered 0x20 to 0x29, in order (rule R30). -/
def bigRegs : List Reg := [.x, .y, .rp, .rq, .ra, .rb, .rn, .sn, .se, .sd]

/-- The register of a number; `none` for the unassigned numbers (rules R30 and R50). -/
def regOfNum (num : Nat) : Option Reg :=
  if h : 0x10 ≤ num ∧ num < 0x20 then some (.rk ⟨num - 0x10, by omega⟩)
  else if num < 0x10 then lowRegs[num]?
  else bigRegs[num - 0x20]?

/-- The number of a register (rule R30); `RK[i]` is number `0x0F + i`. -/
def numOfReg : Reg → Nat
  | .cmd => 0x00
  | .status => 0x01
  | .din => 0x02
  | .dout => 0x03
  | .k1 => 0x04
  | .k2 => 0x05
  | .iv => 0x06
  | .chain => 0x07
  | .mlen => 0x08
  | .marker => 0x09
  | .h => 0x0A
  | .key => 0x0B
  | .rk i => 0x10 + i.val
  | .x => 0x20
  | .y => 0x21
  | .rp => 0x22
  | .rq => 0x23
  | .ra => 0x24
  | .rb => 0x25
  | .rn => 0x26
  | .sn => 0x27
  | .se => 0x28
  | .sd => 0x29

/-- What the host reads from a register (rule R30); CMD reads 0 (rule R33). -/
def readReg (s : State) : Reg → Int
  | .cmd => 0
  | .status => (statusWord s).toNat
  | .din => s.din.toNat
  | .dout => s.dout.toNat
  | .k1 => s.k1.toNat
  | .k2 => s.k2.toNat
  | .iv => s.iv.toNat
  | .chain => s.chain.toNat
  | .mlen => s.mlen.toNat
  | .marker => s.marker.toNat
  | .h => s.h.toNat
  | .key => s.key.toNat
  | .rk i => s.rk[i].toNat
  | .x => s.x
  | .y => s.y
  | .rp => s.rp
  | .rq => s.rq
  | .ra => s.ra
  | .rb => s.rb
  | .rn => s.rn
  | .sn => s.sn
  | .se => s.se
  | .sd => s.sd

/-- What the host reads from a register number; an unassigned number reads 0 (rule R50). -/
def readNum (s : State) (num : Nat) : Int :=
  match regOfNum num with
  | some r => readReg s r
  | none => 0

/-- The values `lo <= v < hi` the port carries to a register the host may write; `none` for a
register whose right lacks W (rules R30, R32, R40 and R41). -/
def portRange (c : Params) : Reg → Option (Int × Int)
  | .cmd => some (0, 2 ^ 32)
  | .din => some (0, 2 ^ 64)
  | .k1 => some (0, 2 ^ 64)
  | .k2 => some (0, 2 ^ 64)
  | .iv => some (0, 2 ^ 64)
  | .mlen => some (0, 2 ^ 32)
  | .marker => some (0, 2 ^ 16)
  | .h => some (0, 2 ^ 32)
  | .x => some (0, 2 ^ c.nbits)
  | .rp => some (0, 2 ^ c.nbits)
  | .rq => some (0, 2 ^ c.nbits)
  | .ra => some (-2 ^ (c.nbits - 1), 2 ^ (c.nbits - 1))
  | .rb => some (-2 ^ (c.nbits - 1), 2 ^ (c.nbits - 1))
  | .rn => some (0, 2 ^ c.nbits)
  | .sn => some (0, 2 ^ c.nbits)
  | .se => some (0, 2 ^ c.nbits)
  | .sd => some (0, 2 ^ c.nbits)
  | .status => none
  | .dout => none
  | .chain => none
  | .key => none
  | .rk _ => none
  | .y => none

/-- The state with `v` in a register the host may write; CMD and the read-only registers store
nothing (rules R33 and R50). -/
def storeReg (s : State) (v : Int) : Reg → State
  | .din => { s with din := BitVec.ofInt 64 v }
  | .k1 => { s with k1 := BitVec.ofInt 64 v }
  | .k2 => { s with k2 := BitVec.ofInt 64 v }
  | .iv => { s with iv := BitVec.ofInt 64 v }
  | .mlen => { s with mlen := BitVec.ofInt 32 v }
  | .marker => { s with marker := BitVec.ofInt 16 v }
  | .h => { s with h := BitVec.ofInt 32 v }
  | .x => { s with x := v.toNat }
  | .rp => { s with rp := v.toNat }
  | .rq => { s with rq := v.toNat }
  | .ra => { s with ra := v }
  | .rb => { s with rb := v }
  | .rn => { s with rn := v.toNat }
  | .sn => { s with sn := v.toNat }
  | .se => { s with se := v.toNat }
  | .sd => { s with sd := v.toNat }
  | .cmd => s
  | .status => s
  | .dout => s
  | .chain => s
  | .key => s
  | .rk _ => s
  | .y => s

/-- A host write to a register that is not CMD: ignored where the host has no right to write (rule
R50), impossible outside the register's range (rule R32; DESIGN CHOICE, safe, log 6). -/
def writeReg (s : State) (v : Int) (r : Reg) : Outcome :=
  match portRange s.params r with
  | none => .next s
  | some (lo, hi) => if lo ≤ v ∧ v < hi then .next (storeReg s v r) else .fault .portValue

/-- `WRM addr, b`: ignored at and beyond `MSGMAX` (rule R84). -/
def writeByte (s : State) (a : Nat) (b : Byte) : State :=
  if a < s.params.msgmax then { s with msg := s.msg.write a b } else s

/-- `RDM addr`: 0 at and beyond `MSGMAX` (rule R84). -/
def readByte (s : State) (a : Nat) : Byte :=
  if a < s.params.msgmax then s.msg.read a else 0#8

/-- The state after the port has returned `v` to the host. Nothing of the CORE changes (rule R50). -/
def returned (s : State) (v : Int) : State :=
  { s with host := { s.host with seen := v :: s.host.seen } }

/-! ## Reset -/

/-- A raw number brought into `[-2^(n-1), 2^(n-1))` (rule R41). -/
def signedOf (n u : Nat) : Int := ((u % 2 ^ n : Nat) : Int) - 2 ^ (n - 1)

/-- The state after a reset that leaves the contents `u` (rules R49, R280 and R281): `STATUS` is 0,
every other register and every byte of the buffer takes what fits it of `u`, item by item. The
oracle and the host lie outside the CORE and keep what they hold. -/
def resetTo (u : Nat → Nat) (s : State) : State :=
  { s with
    err := .none
    keyv := false
    flagP := false
    flagV := false
    roots := 0#4
    din := BitVec.ofNat 64 (u 0)
    dout := BitVec.ofNat 64 (u 1)
    k1 := BitVec.ofNat 64 (u 2)
    k2 := BitVec.ofNat 64 (u 3)
    iv := BitVec.ofNat 64 (u 4)
    chain := BitVec.ofNat 64 (u 5)
    mlen := BitVec.ofNat 32 (u 6)
    marker := BitVec.ofNat 16 (u 7)
    h := BitVec.ofNat 32 (u 8)
    key := BitVec.ofNat 64 (u 9)
    x := u 10 % 2 ^ s.params.nbits
    y := u 11 % 2 ^ s.params.nbits
    rp := u 12 % 2 ^ s.params.nbits
    rq := u 13 % 2 ^ s.params.nbits
    ra := signedOf s.params.nbits (u 14)
    rb := signedOf s.params.nbits (u 15)
    rn := u 16 % 2 ^ s.params.nbits
    sn := u 17 % 2 ^ s.params.nbits
    se := u 18 % 2 ^ s.params.nbits
    sd := u 19 % 2 ^ s.params.nbits
    rk := Vector.ofFn fun i => BitVec.ofNat 48 (u (20 + i.val))
    msg := Memory.fill (fun a => BitVec.ofNat 8 (u (36 + a))) s.params.msgmax }

/-- The reset event (rule R280): the contents left are free, anew at every reset (DESIGN CHOICE, safe,
log 5). -/
def applyReset (s : State) : State :=
  { resetTo (Config.unspecified s.resets) s with resets := s.resets + 1 }

end Sys2Proof.Machine
end

