-- ==== Sys2Proof/Machine/Operands.lean ====
section
/-! DEFINITION. The operands the commands compute on: blocks of the message buffer and their byte
order (rules R71 to R74 of spec/20_memory.md), padding and stripping (rules R170 and R173 of
spec/43_desx_cbc.md), the labelled message and the candidate roots (rules R197 to R202 of
spec/45_rabin.md). -/

namespace Sys2Proof.Machine

/-! ## Blocks of the message buffer -/

/-- `n` bytes from address `a`, first byte most significant, under what `acc` already holds. -/
def readBytes (m : Memory) (a : Nat) : Nat → Nat → Nat
  | 0, acc => acc
  | n + 1, acc => readBytes m (a + 1) n (256 * acc + (m.read a).toNat)

/-- `MemRead(a, 8)`, big-endian (rule R72). -/
def readBlock (m : Memory) (a : Nat) : Block := BitVec.ofNat 64 (readBytes m a 8 0)

/-- Byte `k` of a block, `v[63-8k : 56-8k]` (rule R72). -/
def blockByte (v : Block) (k : Nat) : Byte := v.extractLsb' (56 - 8 * k) 8

/-- `MemWrite(a, 8, v)`, big-endian (rule R72). -/
def writeBlock (m : Memory) (a : Nat) (v : Block) : Memory :=
  let m0 := m.write a (blockByte v 0)
  let m1 := m0.write (a + 1) (blockByte v 1)
  let m2 := m1.write (a + 2) (blockByte v 2)
  let m3 := m2.write (a + 3) (blockByte v 3)
  let m4 := m3.write (a + 4) (blockByte v 4)
  let m5 := m4.write (a + 5) (blockByte v 5)
  let m6 := m5.write (a + 6) (blockByte v 6)
  m6.write (a + 7) (blockByte v 7)

/-- `nb = ceil(L / 8)`, the number of blocks of a message of `len` bytes (rule R170). -/
def blockCount (len : Nat) : Nat := (len + 7) / 8

/-- `MSG[a .. a + n - 1] <- 0` (rule R170). -/
def zeroBytes (m : Memory) (a : Nat) : Nat → Memory
  | 0 => m
  | n + 1 => zeroBytes (m.write a 0#8) (a + 1) n

/-- `pad(m)`: the bytes from `len` to the end of its last block become 0 (rule R170). -/
def padMessage (m : Memory) (len : Nat) : Memory := zeroBytes m len (8 * blockCount len - len)

/-- `striplen(MSG, L)`: the largest `k <= L` with `k = 0` or `MSG[k-1] != 0` (rule R173). -/
def stripLen (m : Memory) : Nat → Nat
  | 0 => 0
  | k + 1 => if m.read k = 0#8 then stripLen m k else k + 1

/-! ## DES-X blocks -/

/-- One block of DES-X encryption: `K2 xor DES(b xor CHAIN xor K1)` (rule R167). -/
def desxEncrypt (s : State) (chain b : Block) : Block :=
  processBlock s.rk (b ^^^ chain ^^^ s.k1) .encrypt ^^^ s.k2

/-- One block of DES-X decryption: `DES^-1(c xor K2) xor K1 xor CHAIN` (rule R168). -/
def desxDecrypt (s : State) (chain c : Block) : Block :=
  processBlock s.rk (c ^^^ s.k2) .decrypt ^^^ s.k1 ^^^ chain

/-- The block loop of XENCM (rule R171): `n` blocks from block `i`, chained from `chain`. -/
def encryptBlocks (s : State) : Nat → Nat → Memory → Block → Memory × Block
  | 0, _, m, chain => (m, chain)
  | n + 1, i, m, chain =>
    let c := desxEncrypt s chain (readBlock m (8 * i))
    encryptBlocks s n (i + 1) (writeBlock m (8 * i) c) c

/-- The block loop of XDECM (rule R172): `n` blocks from block `i`, chained from `chain`. -/
def decryptBlocks (s : State) : Nat → Nat → Memory → Block → Memory × Block
  | 0, _, m, chain => (m, chain)
  | n + 1, i, m, chain =>
    let c := readBlock m (8 * i)
    decryptBlocks s n (i + 1) (writeBlock m (8 * i) (desxDecrypt s chain c)) c

/-! ## Rabin operands -/

/-- `labeled = (message << 16) | MARKER` (rule R197). -/
def labeled (message : Nat) (marker : BitVec 16) : Nat := message * 2 ^ 16 + marker.toNat

/-- `r = modexp(c, (p + 1) div 4, p)`, and the same for `q` (rule R199). -/
def squareRoot (c p : Nat) : Nat := modexp c ((p + 1) / 4) p

/-- The four candidates of rule R200. -/
structure Roots where
  x1 : Nat
  x2 : Nat
  x3 : Nat
  x4 : Nat
  deriving DecidableEq, Repr

/-- CRT recombination (rule R200): `x1 = (a*p*s + b*q*r) mod n`, `x3 = (a*p*s - b*q*r) mod n`,
`x2 = n - x1`, `x4 = n - x3`, not reduced (D29). -/
def recombine (a b : Int) (p q n r s : Nat) : Roots :=
  let x1 := residue (a * p * s + b * q * r) n
  let x3 := residue (a * p * s - b * q * r) n
  { x1 := x1, x2 := n - x1, x3 := x3, x4 := n - x3 }

/-- A candidate is valid when its low 16 bits are the marker (rule R201). -/
def carries (marker : BitVec 16) (x : Nat) : Bool := decide (low16 x = marker.toNat)

/-- The candidates of the ciphertext in `X` under the private key (rule R203). -/
def candidates (s : State) : Roots :=
  recombine s.ra s.rb s.rp s.rq s.rn (squareRoot s.x s.rp) (squareRoot s.x s.rq)

/-- The stripped value of the first valid candidate; used where exactly one is valid (rule R202). -/
def strippedRoot (marker : BitVec 16) (c : Roots) : Nat :=
  if carries marker c.x1 then c.x1 / 2 ^ 16
  else if carries marker c.x2 then c.x2 / 2 ^ 16
  else if carries marker c.x3 then c.x3 / 2 ^ 16
  else c.x4 / 2 ^ 16

end Sys2Proof.Machine
end

