-- ==== Sys2Proof/Machine/Des.lean ====
section
/-! DEFINITION. The DES commands DESKEY (rule R146 of spec/41_des_key_schedule.md), DESENC and DESDEC
(rules R158 and R159 of spec/42_des_round_engine.md). -/

namespace Sys2Proof.Machine

/-- DESKEY: bind the key in DIN and cache its 16 round keys (rule R146). -/
def execDeskey (s : State) : Outcome :=
  .next { s with key := s.din, rk := keySchedule s.din, keyv := true }

/-- DESENC: `DOUT <- processBlock(RK, DIN, encrypt)`; KeyNotSet (rule R158). -/
def execDesenc (s : State) : Outcome :=
  if s.keyv then .next { s with dout := processBlock s.rk s.din .encrypt }
  else raise .keyNotSet s

/-- DESDEC: `DOUT <- processBlock(RK, DIN, decrypt)`; KeyNotSet (rule R159). -/
def execDesdec (s : State) : Outcome :=
  if s.keyv then .next { s with dout := processBlock s.rk s.din .decrypt }
  else raise .keyNotSet s

end Sys2Proof.Machine
end

