-- ==== Sys2Proof/Machine/Desx.lean ====
section
/-! DEFINITION. The DES-X commands CBCINIT, CBCENC, CBCDEC, XENCM and XDECM (rules R166 to R168, R171
and R172 of spec/43_desx_cbc.md). -/

namespace Sys2Proof.Machine

/-- CBCINIT: `CHAIN <- IV`; it needs no key (rule R166). -/
def execCbcinit (s : State) : Outcome := .next { s with chain := s.iv }

/-- CBCENC: one block, whitened and chained; `DOUT` and `CHAIN` take the ciphertext (rule R167). -/
def execCbcenc (s : State) : Outcome :=
  if s.keyv then
    .next { s with dout := desxEncrypt s s.chain s.din, chain := desxEncrypt s s.chain s.din }
  else raise .keyNotSet s

/-- CBCDEC: one block; `CHAIN`, read before it is written, takes the ciphertext in DIN (rule R168). -/
def execCbcdec (s : State) : Outcome :=
  if s.keyv then .next { s with dout := desxDecrypt s s.chain s.din, chain := s.din }
  else raise .keyNotSet s

/-- XENCM: encrypt the message in the buffer in place (rule R171). The new length is masked to the 32
bits of MLEN, which matters only when `MSGMAX >= 2^32` (rule R14; DEDUCED, unsafe, log 7). -/
def execXencm (s : State) : Outcome :=
  if s.keyv then
    if s.params.msgmax < s.mlen.toNat then raise .badOperand s
    else
      let nb := blockCount s.mlen.toNat
      let done := encryptBlocks s nb 0 (padMessage s.msg s.mlen.toNat) s.iv
      .next { s with msg := done.1, chain := done.2, mlen := BitVec.ofNat 32 (8 * nb) }
  else raise .keyNotSet s

/-- XDECM: decrypt the message in the buffer in place and strip its zero bytes (rule R172). -/
def execXdecm (s : State) : Outcome :=
  if s.keyv then
    if s.params.msgmax < s.mlen.toNat ∨ s.mlen.toNat % 8 ≠ 0 then raise .badOperand s
    else
      let done := decryptBlocks s (s.mlen.toNat / 8) 0 s.msg s.iv
      .next { s with
        msg := done.1, chain := done.2, mlen := BitVec.ofNat 32 (stripLen done.1 s.mlen.toNat) }
  else raise .keyNotSet s

end Sys2Proof.Machine
end

