-- ==== Sys2Proof/Machine/MillerRabin.lean ====
section
/-! DEFINITION. The Miller–Rabin tester and MRTEST (rules R185 to R190 of spec/44_miller_rabin.md). -/

namespace Sys2Proof.Machine

/-- `m = 2^s * d` with `d` odd, by halving at most `fuel` times. -/
def countTwos : Nat → Nat → Nat × Nat
  | 0, m => (0, m)
  | fuel + 1, m =>
    if m % 2 = 0 then ((countTwos fuel (m / 2)).1 + 1, (countTwos fuel (m / 2)).2) else (0, m)

/-- `decompose(n)`: the pair `(s, d)` with `n - 1 = 2^s * d`, `d` odd (rule R186). -/
def decompose (n : Nat) : Nat × Nat := countTwos (n - 1).log2 (n - 1)

/-- The squarings of a round: at most `k`, looking for `n - 1` (rule R187). -/
def squaringsFind : Nat → Nat → Nat → Bool
  | 0, _, _ => false
  | k + 1, n, x => if x * x % n = n - 1 then true else squaringsFind k n (x * x % n)

/-- `witness_round(n, s, d, a)`: whether the round accepts (rule R187). -/
def witnessRound (n s d a : Nat) : Bool :=
  let x := modexp a d n
  if x = 1 ∨ x = n - 1 then true else squaringsFind (s - 1) n x

/-- The rounds: one draw in `[2, n - 2]` a round executed, ending at the first that fails (rules R185
and R188). -/
def mrRounds (n s d : Nat) : Nat → Oracle → Bool × Oracle
  | 0, o => (true, o)
  | k + 1, o =>
    if witnessRound n s d (draw 2 (n - 2) o).1 then mrRounds n s d k (draw 2 (n - 2) o).2
    else (false, (draw 2 (n - 2) o).2)

/-- `isProbablePrime(n, rounds, bases)`, its checks in the order of rule R185, with the oracle that
supplies the bases and what is left of it. -/
def isProbablePrime (n rounds : Nat) (o : Oracle) : Bool × Oracle :=
  if n < 2 then (false, o)
  else if n = 2 ∨ n = 3 then (true, o)
  else if n % 2 = 0 then (false, o)
  else mrRounds n (decompose n).1 (decompose n).2 rounds o

/-- MRTEST rounds: `P <- isProbablePrime(X, rounds, draws)` (rule R189). -/
def execMrtest (rounds : Nat) (s : State) : Outcome :=
  .next { s with
    flagP := (isProbablePrime s.x rounds s.oracle).1
    oracle := (isProbablePrime s.x rounds s.oracle).2 }

end Sys2Proof.Machine
end

