-- ==== Sys2Proof/Machine/Rabin.lean ====
section
/-! DEFINITION. The Rabin commands RABENC and RABDEC (rules R198 and R203 of spec/45_rabin.md). -/

namespace Sys2Proof.Machine

/-- RABENC: `Y <- labeled^2 mod RN`; MessageTooLarge when `labeled >= RN` (rule R198). -/
def execRabenc (s : State) : Outcome :=
  if s.rn ≤ labeled s.x s.marker then raise .messageTooLarge s
  else .next { s with y := labeled s.x s.marker * labeled s.x s.marker % s.rn }

/-- How many of the four candidates carry the marker (rule R202: positions, not values). -/
def validRoots (s : State) (c : Roots) : Nat :=
  validCount (carries s.marker c.x1) (carries s.marker c.x2) (carries s.marker c.x3)
    (carries s.marker c.x4)

/-- `ROOTS` for the candidates (rule R203). -/
def rootsOf (s : State) (c : Roots) : BitVec 4 :=
  rootsMask (carries s.marker c.x1) (carries s.marker c.x2) (carries s.marker c.x3)
    (carries s.marker c.x4)

/-- RABDEC (rule R203): BadOperand on a zero modulus; else ROOTS is written, then NoValidRoot,
Ambiguous or the one valid candidate shifted right 16 bits. -/
def execRabdec (s : State) : Outcome :=
  if s.rp = 0 ∨ s.rq = 0 ∨ s.rn = 0 then raise .badOperand s
  else
    let c := candidates s
    let marked : State := { s with roots := rootsOf s c }
    if validRoots s c = 0 then raise .noValidRoot marked
    else if 2 ≤ validRoots s c then raise .ambiguous marked
    else .next { marked with y := strippedRoot s.marker c }

end Sys2Proof.Machine
end

