-- ==== Sys2Proof/Machine/Rsa.lean ====
section
/-! DEFINITION. The RSA commands DGCLR, DGADD, RSASIGN and RSAVFY (rules R211, R212, R214 and R215 of
spec/46_rsa.md). -/

namespace Sys2Proof.Machine

/-- DGCLR: `H <- 0` (rule R211). -/
def execDgclr (s : State) : Outcome := .next { s with h := 0#32 }

/-- DGADD cp: `H <- (H + cp) mod 2^32` (rule R212). -/
def execDgadd (cp : Nat) (s : State) : Outcome := .next { s with h := BitVec.ofNat 32 (s.h.toNat + cp) }

/-- RSASIGN: `Y <- modexp(H mod SN, SD, SN)`; BadOperand when `SN = 0` (rule R214). -/
def execRsasign (s : State) : Outcome :=
  if s.sn = 0 then raise .badOperand s
  else .next { s with y := modexp (s.h.toNat % s.sn) s.sd s.sn }

/-- RSAVFY: `V <- 1` when `modexp(X, SE, SN) = H mod SN`; BadOperand when `SN = 0` (rule R215). An
invalid signature is a result, not an error. -/
def execRsavfy (s : State) : Outcome :=
  if s.sn = 0 then raise .badOperand s
  else .next { s with flagV := decide (modexp s.x s.se s.sn = s.h.toNat % s.sn) }

end Sys2Proof.Machine
end

