-- ==== Sys2Proof/Machine/System.lean ====
section
/-! DEFINITION. The system commands NOP and CLRERR (rules R225 and R226 of spec/47_system.md). -/

namespace Sys2Proof.Machine

/-- NOP: nothing (rule R225). -/
def execNop (s : State) : Outcome := .next s

/-- CLRERR: `ERR <- 0`, whatever it holds (rule R226). -/
def execClrerr (s : State) : Outcome := .next (clearErr s)

end Sys2Proof.Machine
end

