-- ==== Sys2Proof/Machine/Dispatch.lean ====
section
/-! DEFINITION. The dispatch: one arm per command, in the opcode table's order (rule R94). -/

namespace Sys2Proof.Machine

def exec (i : Instr) (s : State) : Host.Outcome State Fault Refusal :=
  match i with
  | .nop => Sys2Proof.Machine.execNop s
  | .clrerr => Sys2Proof.Machine.execClrerr s
  | .deskey => Sys2Proof.Machine.execDeskey s
  | .desenc => Sys2Proof.Machine.execDesenc s
  | .desdec => Sys2Proof.Machine.execDesdec s
  | .cbcinit => Sys2Proof.Machine.execCbcinit s
  | .cbcenc => Sys2Proof.Machine.execCbcenc s
  | .cbcdec => Sys2Proof.Machine.execCbcdec s
  | .xencm => Sys2Proof.Machine.execXencm s
  | .xdecm => Sys2Proof.Machine.execXdecm s
  | .mrtest rounds => Sys2Proof.Machine.execMrtest rounds s
  | .rabenc => Sys2Proof.Machine.execRabenc s
  | .rabdec => Sys2Proof.Machine.execRabdec s
  | .dgclr => Sys2Proof.Machine.execDgclr s
  | .dgadd cp => Sys2Proof.Machine.execDgadd cp s
  | .rsasign => Sys2Proof.Machine.execRsasign s
  | .rsavfy => Sys2Proof.Machine.execRsavfy s

end Sys2Proof.Machine
end

