-- ==== Sys2Proof/Machine/Port.lean ====
section
/-! DEFINITION. The command port and the access port: what a word written to CMD does (rule R101 of
spec/30_encoding.md, rules R257 and R260 of spec/60_exceptions.md) and what each host action does
(rules R32, R33 and R50 of spec/10_state.md). -/

namespace Sys2Proof.Machine

/-- A word written to CMD (rule R101): while an error is latched only the words of NOP and CLRERR are
executed and every other word has no effect, undecoded; else the word is decoded and executed, and a
word that selects no command raises IllegalCommand. -/
def issue (w : CmdWord) (s : State) : Outcome :=
  if s.err ≠ .none then
    if w = 0x00000000#32 then exec .nop s
    else if w = 0x01000000#32 then exec .clrerr s
    else .next s
  else
    match decode w with
    | .ok i => exec i s
    | .error _ => raise .illegalCommand s

/-- `WR num, v` (rules R32, R33 and R50). -/
def portWrite (num : Nat) (v : Int) (s : State) : Outcome :=
  match regOfNum num with
  | none => .next s
  | some .cmd => if 0 ≤ v ∧ v < 2 ^ 32 then issue (BitVec.ofNat 32 v.toNat) s else .fault .portValue
  | some r => writeReg s v r

/-- What one action does to the state. -/
def act (a : Action) (s : State) : Outcome :=
  match a with
  | .wr num v => portWrite num v s
  | .rd num => .next (returned s (readNum s num))
  | .wrm addr b => .next (writeByte s addr b)
  | .rdm addr => .next (returned s (readByte s addr).toNat)
  | .reset => .next (applyReset s)

/-- The state whose host has `rest` still to do. -/
def withTodo (s : State) (rest : List Action) : State := { s with host := { s.host with todo := rest } }

/-- One step: the next action, performed whole before the one after it (rules R32 and R78). With
nothing to come the core only holds its state (rule R270). -/
def stepAction (s : State) : Outcome :=
  match s.host.todo with
  | [] => .next s
  | a :: rest => act a (withTodo s rest)

/-- The word of a command as the host action that issues it, in front of what the host does next. -/
def placeWord (s : State) (w : Nat) : State := withTodo s (.wr 0x00 w :: s.host.todo)

end Sys2Proof.Machine
end

