-- ==== Sys2Proof/Machine/Step.lean ====
section
/-! DEFINITION. One step of the machine, and where a command word is placed for the next step. -/

namespace Sys2Proof.Machine

/-- One step: one host action or reset event (rules R32, R78 and R280). -/
def step (s : State) : Host.Outcome State Fault Refusal := stepAction s

/-- `s` with the command word `w` (its low `nbits` bits) as the host's next action. The machine fetches
nothing (rule R31): a command is delivered by a write to CMD (rule R33; DESIGN CHOICE, safe,
log 2). -/
def State.withFetchWord (s : State) (nbits w : Nat) : State := placeWord s (w % 2 ^ nbits)

end Sys2Proof.Machine
end

