-- ==== Sys2Proof/Machine/Assembler.lean ====
section
/-! DEFINITION. How programs are written down: command lines (rule R98), host directives (rule R99) and
pseudo-instructions (rule R100 of spec/30_encoding.md). -/

namespace Sys2Proof.Machine

/-! ## Host directives and pseudo-instructions -/

/-- A command line of a listing stands for `WR CMD, <word>` (rule R99). -/
def issueAction (i : Instr) : Action := .wr 0x00 (encode i).toNat

/-- `WRM addr, bytes`: consecutive bytes from `addr` (rule R99). -/
def wrmBytes : Nat → List Byte → List Action
  | _, [] => []
  | addr, b :: rest => .wrm addr b :: wrmBytes (addr + 1) rest

/-- `RDM addr, n`: consecutive bytes from `addr` (rule R99). -/
def rdmBytes : Nat → Nat → List Action
  | _, 0 => []
  | addr, n + 1 => .rdm addr :: rdmBytes (addr + 1) n

/-- `LDKEY v`: `WR DIN, v` then `DESKEY` (rule R100). -/
def ldkey (v : Nat) : List Action := [.wr (numOfReg .din) v, issueAction .deskey]

/-- `DIGEST text`: `DGCLR`, then one `DGADD` for each character's code point (rule R100). -/
def digestActions (text : List Char) : List Action :=
  issueAction .dgclr :: text.map fun ch => issueAction (.dgadd ch.toNat)

/-- `LDMSG bytes`: `WRM 0, bytes` then `WR MLEN, <number of bytes>` (rule R100). -/
def ldmsg (bytes : List Byte) : List Action :=
  wrmBytes 0 bytes ++ [.wr (numOfReg .mlen) bytes.length]

/-! ## Command lines -/

/-- The mnemonics of format N, in upper case (rules R94 and R98). -/
def mnemonicsN : List (List Char × Instr) :=
  [(['N', 'O', 'P'], .nop),
    (['C', 'L', 'R', 'E', 'R', 'R'], .clrerr),
    (['D', 'E', 'S', 'K', 'E', 'Y'], .deskey),
    (['D', 'E', 'S', 'E', 'N', 'C'], .desenc),
    (['D', 'E', 'S', 'D', 'E', 'C'], .desdec),
    (['C', 'B', 'C', 'I', 'N', 'I', 'T'], .cbcinit),
    (['C', 'B', 'C', 'E', 'N', 'C'], .cbcenc),
    (['C', 'B', 'C', 'D', 'E', 'C'], .cbcdec),
    (['X', 'E', 'N', 'C', 'M'], .xencm),
    (['X', 'D', 'E', 'C', 'M'], .xdecm),
    (['R', 'A', 'B', 'E', 'N', 'C'], .rabenc),
    (['R', 'A', 'B', 'D', 'E', 'C'], .rabdec),
    (['D', 'G', 'C', 'L', 'R'], .dgclr),
    (['R', 'S', 'A', 'S', 'I', 'G', 'N'], .rsasign),
    (['R', 'S', 'A', 'V', 'F', 'Y'], .rsavfy)]

/-- The value of a digit in the given base, lower- or upper-case letters above 9. -/
def digitValue (base : Nat) (ch : Char) : Option Nat :=
  let v :=
    if '0' ≤ ch ∧ ch ≤ '9' then ch.toNat - '0'.toNat
    else if 'a' ≤ ch ∧ ch ≤ 'f' then ch.toNat - 'a'.toNat + 10
    else if 'A' ≤ ch ∧ ch ≤ 'F' then ch.toNat - 'A'.toNat + 10
    else base
  if v < base then some v else none

/-- The number that the digits spell under what `acc` already holds. -/
def numeralFrom (base : Nat) : Nat → List Char → Option Nat
  | acc, [] => some acc
  | acc, ch :: rest =>
    match digitValue base ch with
    | some d => numeralFrom base (base * acc + d) rest
    | none => none

/-- An unsigned integer in decimal, or in hexadecimal with the prefix `0x` (rule R98). -/
def parseNumber : List Char → Option Nat
  | [] => none
  | '0' :: 'x' :: d :: rest => numeralFrom 16 0 (d :: rest)
  | digits => numeralFrom 10 0 digits

/-- The operand of DGADD: a number, or a single character in single quotes meaning its code point
(rule R98). -/
def parseCodePoint : List Char → Option Nat
  | ['\'', ch, '\''] => some ch.toNat
  | operand => parseNumber operand

/-- The text without the spaces at its front. -/
def dropSpaces : List Char → List Char
  | ' ' :: rest => dropSpaces rest
  | text => text

/-- The text without the spaces at its two ends. -/
def trimSpaces (text : List Char) : List Char := (dropSpaces (dropSpaces text).reverse).reverse

/-- The text up to the first character that is `stop`, and what comes after it. -/
def splitAtChar (stop : Char) : List Char → List Char × List Char
  | [] => ([], [])
  | ch :: rest =>
    if ch = stop then ([], rest) else (ch :: (splitAtChar stop rest).1, (splitAtChar stop rest).2)

/-- The command if its operand fits its field. -/
def ifWellFormed (i : Instr) : Option Instr := if i.wf then some i else none

/-- The command of a mnemonic and an operand text, empty where there is none (rule R98). -/
def parseCommand (mnemonic operand : List Char) : Option Instr :=
  if mnemonic = ['M', 'R', 'T', 'E', 'S', 'T'] then
    (parseNumber operand).bind fun rounds => ifWellFormed (.mrtest rounds)
  else if mnemonic = ['D', 'G', 'A', 'D', 'D'] then
    (parseCodePoint operand).bind fun cp => ifWellFormed (.dgadd cp)
  else if operand = [] then mnemonicsN.lookup mnemonic
  else none

/-- One command line: a semicolon starts a comment; then the mnemonic and at most one operand (rule
R98). `none` for a line that is no command. -/
def parseLine (line : List Char) : Option Instr :=
  let text := trimSpaces (splitAtChar ';' line).1
  parseCommand (splitAtChar ' ' text).1 (trimSpaces (splitAtChar ' ' text).2)

/-- The word a command line assembles to (rule R98). -/
def assemble (line : List Char) : Option CmdWord := (parseLine line).map encode

end Sys2Proof.Machine
end

