-- ==== Sys2Proof/Machine/HostProcedures.lean ====
section
/-! DEFINITION. The host procedures (rules R230 to R243 of spec/48_host_procedures.md): loops and
sequences of host actions over the commands. They are not hardware; the step function uses none of
them. -/

namespace Sys2Proof.Machine

/-- Why a host procedure fails (rule R261: these kinds are the host's, never values of ERR). -/
inductive HostFailure where
  /-- RSA key generation found no inverse of the exponent (rule R235) -/
  | noModularInverse
  /-- `RSAVFY` gave `V = 0` in the hybrid decryption (rule R239) -/
  | signatureInvalid
  /-- a command left this error in the latch (rule R238) -/
  | latched (e : Err)
  /-- a host action the port cannot carry (rule R32) -/
  | portValue
  /-- the procedure has not ended within the iterations given: it may never end (rule R231, U14) -/
  | unfinished
  /-- a hexadecimal text that is none (rule R240, U15) -/
  | malformedHex
  deriving DecidableEq, Repr

/-- How a procedure ends: with a value or a failure, and with the state "whatever the commands issued
so far left" (rule R230). -/
inductive HostResult (α : Type) where
  | done (value : α) (s : State)
  | failed (kind : HostFailure) (s : State)
  deriving DecidableEq, Repr

/-- A procedure's next part, on the value and state of the part before it. -/
def HostResult.andThen {α β : Type} (r : HostResult α) (f : α → State → HostResult β) :
    HostResult β :=
  match r with
  | .done a s => f a s
  | .failed k s => .failed k s

/-- The host performs actions in order. -/
def perform : List Action → State → HostResult Unit
  | [], s => .done () s
  | a :: rest, s =>
    match act a s with
    | .next t => perform rest t
    | .fault _ => .failed .portValue s
    | .refused _ => .failed .portValue s

/-- The host performs actions and then reads `STATUS.ERR`; it stops and reports a latched kind (rules
R238 and R256). -/
def performChecked (actions : List Action) (s : State) : HostResult Unit :=
  (perform actions s).andThen fun _ t =>
    if t.err = .none then .done () t else .failed (.latched t.err) t

/-- `WR reg, v`. -/
def wrAction (r : Reg) (v : Int) : Action := .wr (numOfReg r) v

/-- `RD reg -> v`. -/
def readValue (r : Reg) (s : State) : HostResult Int :=
  (perform [.rd (numOfReg r)] s).andThen fun _ t => .done (readReg s r) t

/-- A draw of the host from the one oracle (rule R243). -/
def hostDraw (lo hi : Nat) (s : State) : HostResult Nat :=
  .done (draw lo hi s.oracle).1 { s with oracle := (draw lo hi s.oracle).2 }

/-! ## Prime generation (rule R231) -/

/-- The candidate of some raw bits: top bit and bottom bit forced to 1 (rule R231, D43). The spec defines
it for `bits >= 1` only (90_conflicts.md C8); that `bits = 0` takes the shift as 0, so that only the
bottom bit is forced, is the model's choice (DESIGN CHOICE, unsafe, log 18). -/
def primeCandidate (bits u : Nat) : Nat := u ||| 1 <<< (bits - 1) ||| 1

/-- `generatePrime(bitLength, requireCongruent3Mod4)` with `gpRounds` rounds a test (the OPEN parameter
`GP_ROUNDS`), at most `fuel` iterations of its loop. -/
def generatePrime (gpRounds bits : Nat) (threeModFour : Bool) : Nat → State → HostResult Nat
  | 0, s => .failed .unfinished s
  | fuel + 1, s =>
    (hostDraw 0 (2 ^ bits - 1) s).andThen fun u s1 =>
    (perform [wrAction .x (primeCandidate bits u), issueAction (.mrtest gpRounds)] s1).andThen
      fun _ s2 =>
    (readValue .status s2).andThen fun status s3 =>
      if status / 2 ^ 5 % 2 = 1 ∧ (threeModFour = false ∨ primeCandidate bits u % 4 = 3) then
        .done (primeCandidate bits u) s3
      else generatePrime gpRounds bits threeModFour fuel s3

/-- `repeat: q = generatePrime(half, …) until q != p` (rules R233 and R234). -/
def generateOtherPrime (gpRounds bits : Nat) (threeModFour : Bool) (p : Nat) :
    Nat → State → HostResult Nat
  | 0, s => .failed .unfinished s
  | fuel + 1, s =>
    (generatePrime gpRounds bits threeModFour (fuel + 1) s).andThen fun q t =>
      if q ≠ p then .done q t else generateOtherPrime gpRounds bits threeModFour p fuel t

/-! ## Extended Euclid (rule R232) -/

/-- What extended Euclid returns: `u*x + v*y = g`. -/
structure Bezout where
  g : Nat
  x : Int
  y : Int
  deriving DecidableEq, Repr

/-- The loop of rule R232, at most `fuel` iterations. -/
def egcdLoop : Nat → Nat → Nat → Int → Int → Int → Int → Bezout
  | 0, r0, _, s0, _, t0, _ => { g := r0, x := s0, y := t0 }
  | fuel + 1, r0, r1, s0, s1, t0, t1 =>
    if r1 = 0 then { g := r0, x := s0, y := t0 }
    else
      egcdLoop fuel r1 (r0 - r0 / r1 * r1) s1 (s0 - (r0 / r1 : Nat) * s1) t1
        (t0 - (r0 / r1 : Nat) * t1)

/-- `egcd(u, v)`: `r1` strictly decreases, so `v + 1` iterations are enough (rule R232, for
arguments not both 0; what both 0 give is the model's choice, log 19). -/
def egcd (u v : Nat) : Bezout := egcdLoop (v + 1) u v 1 0 0 1

/-- `modinv(e, phi)`; `none` is NoModularInverse (rule R235; what `phi = 0` gives is the model's choice,
log 19). -/
def modinv (e phi : Nat) : Option Nat :=
  if (egcd e phi).g ≠ 1 then none else some (residue (egcd e phi).x phi)

/-! ## Key generation (rules R233 and R234) -/

/-- `RabinPrivateKey = (p, q, a, b, n)` (rule R195). -/
structure RabinKey where
  p : Nat
  q : Nat
  a : Int
  b : Int
  n : Nat
  deriving DecidableEq, Repr

/-- `RSAKeyPair = (n, e, d)` (rule R213). -/
structure RsaKey where
  n : Nat
  e : Nat
  d : Nat
  deriving DecidableEq, Repr

/-- The writes that load a Rabin private key (rule R233). -/
def loadRabinKey (k : RabinKey) : List Action :=
  [wrAction .rp k.p, wrAction .rq k.q, wrAction .ra k.a, wrAction .rb k.b, wrAction .rn k.n]

/-- Rabin key generation for a target modulus length (rule R233). -/
def generateRabinKey (gpRounds bits fuel : Nat) (s : State) : HostResult RabinKey :=
  (generatePrime gpRounds (bits / 2) true fuel s).andThen fun p s1 =>
  (generateOtherPrime gpRounds (bits / 2) true p fuel s1).andThen fun q s2 =>
    let key : RabinKey := { p := p, q := q, a := (egcd p q).x, b := (egcd p q).y, n := p * q }
    (perform (loadRabinKey key) s2).andThen fun _ s3 => .done key s3

/-- The first odd number from `e` upwards coprime to `phi`, at most `fuel` increments (rule R234). -/
def searchExponent (phi : Nat) : Nat → Nat → Nat
  | 0, e => e
  | fuel + 1, e => if (egcd e phi).g = 1 then e else searchExponent phi fuel (e + 2)

/-- The public exponent: 65537, else the first coprime value of the list, else the search from 3; an
odd number coprime to `phi` stands at or below `2 * phi + 1`, so `phi` increments are enough (rule
R234; the list is transcribed as given, 90_conflicts.md C7). -/
def chooseExponent (phi : Nat) : Nat :=
  if (egcd 65537 phi).g = 1 then 65537
  else
    match [3, 5, 17, 257, 65537].find? fun f => (egcd f phi).g = 1 with
    | some f => f
    | none => searchExponent phi phi 3

/-- The writes that load an RSA key pair (rule R234). -/
def loadRsaKey (k : RsaKey) : List Action := [wrAction .sn k.n, wrAction .se k.e, wrAction .sd k.d]

/-- The key pair of two primes, or NoModularInverse (rules R234 and R235). -/
def rsaKeyOf (p q : Nat) : Option RsaKey :=
  (modinv (chooseExponent ((p - 1) * (q - 1))) ((p - 1) * (q - 1))).map fun d =>
    { n := p * q, e := chooseExponent ((p - 1) * (q - 1)), d := d }

/-- RSA key generation for a target length (rule R234). -/
def generateRsaKey (gpRounds bits fuel : Nat) (s : State) : HostResult RsaKey :=
  (generatePrime gpRounds (bits / 2) false fuel s).andThen fun p s1 =>
  (generateOtherPrime gpRounds (bits / 2) false p fuel s1).andThen fun q s2 =>
    match rsaKeyOf p q with
    | none => .failed .noModularInverse s2
    | some key => (perform (loadRsaKey key) s2).andThen fun _ s3 => .done key s3

/-! ## DES-X messages (rules R236 and R237) -/

/-- `RD MLEN -> L'`, `RDM 0, L'`: the message in the buffer. -/
def readMessage (s : State) : HostResult (List Byte) :=
  (readValue .mlen s).andThen fun _ s1 =>
  (perform (rdmBytes 0 s.mlen.toNat) s1).andThen fun _ s2 =>
    .done ((List.range s.mlen.toNat).map (readByte s)) s2

/-- DES-X encrypt of a byte sequence (rule R236). -/
def desxEncryptBytes (m : List Byte) (s : State) : HostResult (List Byte) :=
  (performChecked (ldmsg m ++ [issueAction .xencm]) s).andThen fun _ t => readMessage t

/-- DES-X decrypt of a byte sequence (rule R237). -/
def desxDecryptBytes (c : List Byte) (s : State) : HostResult (List Byte) :=
  (performChecked (ldmsg c ++ [issueAction .xdecm]) s).andThen fun _ t => readMessage t

/-- Eight bytes, zero-padded on the right, as a block (rules R72 and R236). -/
def packChunk (chunk : List Byte) : Block :=
  BitVec.ofNat 64 ((List.range 8).foldl (fun acc k => 256 * acc + (chunk.getD k 0#8).toNat) 0)

/-- A block as eight bytes (rule R72). -/
def unpackBlock (v : Block) : List Byte := (List.range 8).map (blockByte v)

/-- The streaming form with a block command: chunk by chunk `WR DIN`, the command, `RD DOUT`, at most
`fuel` chunks (rules R236 and R237). -/
def streamBlocks (i : Instr) : Nat → List Byte → State → HostResult (List Byte)
  | 0, _, s => .done [] s
  | fuel + 1, m, s =>
    if m = [] then .done [] s
    else
      (performChecked [wrAction .din (packChunk (m.take 8)).toNat, issueAction i] s).andThen
        fun _ s1 =>
      (readValue .dout s1).andThen fun v s2 =>
      (streamBlocks i fuel (m.drop 8) s2).andThen fun rest s3 =>
        .done (unpackBlock (BitVec.ofInt 64 v) ++ rest) s3

/-- DES-X encrypt with the block commands (rule R236). -/
def streamEncrypt (m : List Byte) (s : State) : HostResult (List Byte) :=
  (performChecked [issueAction .cbcinit] s).andThen fun _ t => streamBlocks .cbcenc m.length m t

/-- The bytes without the zero bytes at their end (rule R173). -/
def stripZeros (bytes : List Byte) : List Byte := (bytes.reverse.dropWhile (· = 0#8)).reverse

/-- DES-X decrypt with the block commands; the host strips (rule R237). The rule covers lengths that are
a multiple of 8 only; that a shorter last chunk is zero-padded on the right and decrypted like the
others is the model's choice (DESIGN CHOICE, unsafe, log 17). -/
def streamDecrypt (c : List Byte) (s : State) : HostResult (List Byte) :=
  (performChecked [issueAction .cbcinit] s).andThen fun _ t =>
  (streamBlocks .cbcdec c.length c t).andThen fun out t1 => .done (stripZeros out) t1

/-! ## The hybrid protocol (rules R238, R239 and R241) -/

/-- The envelope, "a logical triple"; no wire format is specified (rule R241). -/
structure Envelope where
  ciphertext : List Byte
  encryptedKey : Nat
  signature : Nat
  deriving DecidableEq, Repr

/-- `decimal(n)`: the base-10 numeral (rule R238, D44). -/
def decimal (n : Nat) : List Char := Nat.toDigits 10 n

/-- `hybridEncrypt(plaintext, rabinPublicKey, rsaKeyPair)` (rule R238). -/
def hybridEncrypt (plaintext : List Byte) (rabinN : Nat) (rsa : RsaKey) (s : State) :
    HostResult Envelope :=
  (hostDraw 0 (2 ^ 64 - 1) s).andThen fun k s1 =>
  (performChecked (ldkey k) s1).andThen fun _ s2 =>
  (desxEncryptBytes plaintext s2).andThen fun ct s3 =>
  (performChecked [wrAction .rn rabinN, wrAction .x k, issueAction .rabenc] s3).andThen fun _ s4 =>
  (readValue .y s4).andThen fun ek s5 =>
  (performChecked (digestActions (decimal ek.toNat) ++
      [wrAction .sn rsa.n, wrAction .sd rsa.d, issueAction .rsasign]) s5).andThen fun _ s6 =>
  (readValue .y s6).andThen fun sig s7 =>
    .done { ciphertext := ct, encryptedKey := ek.toNat, signature := sig.toNat } s7

/-- The part of `hybridDecrypt` up to the verdict: nothing is decrypted here (rule R239). -/
def hybridVerify (e : Envelope) (rsa : RsaKey) (s : State) : HostResult Unit :=
  (performChecked (digestActions (decimal e.encryptedKey) ++
      [wrAction .sn rsa.n, wrAction .se rsa.e, wrAction .x e.signature, issueAction .rsavfy])
    s).andThen fun _ s1 =>
  (readValue .status s1).andThen fun status s2 =>
    if status / 2 ^ 6 % 2 = 1 then .done () s2 else .failed .signatureInvalid s2

/-- The part of `hybridDecrypt` after the verdict (rule R239). -/
def hybridOpen (e : Envelope) (rabin : RabinKey) (s : State) : HostResult (List Byte) :=
  (performChecked (loadRabinKey rabin ++ [wrAction .x e.encryptedKey, issueAction .rabdec])
    s).andThen fun _ s1 =>
  (readValue .y s1).andThen fun k s2 =>
  (performChecked (ldkey (k.toNat % 2 ^ 64)) s2).andThen fun _ s3 =>
  desxDecryptBytes e.ciphertext s3

/-- `hybridDecrypt(envelope, rabinPrivateKey, rsaKeyPair)`, in fail-closed order (rule R239). -/
def hybridDecrypt (e : Envelope) (rabin : RabinKey) (rsa : RsaKey) (s : State) :
    HostResult (List Byte) :=
  (hybridVerify e rsa s).andThen fun _ t => hybridOpen e rabin t

/-! ## Text wrapper (rule R240) -/

/-- `TEXT_ENCODING`, an OPEN parameter (rules R11 and R240). -/
structure TextEncoding where
  encode : List Char → List Byte
  decode : List Byte → List Char

/-- The lower-case hexadecimal digit of a number below 16. -/
def hexDigit (n : Nat) : Char := if n < 10 then Char.ofNat (48 + n) else Char.ofNat (87 + n)

/-- `hex(bytes)`: two lower-case digits a byte, high nibble first (rule R240, D41). -/
def hexText : List Byte → List Char
  | [] => []
  | b :: rest => hexDigit (b.toNat / 16) :: hexDigit (b.toNat % 16) :: hexText rest

/-- The value of a lower-case hexadecimal digit. -/
def hexValue (ch : Char) : Option Nat :=
  if '0' ≤ ch ∧ ch ≤ '9' then some (ch.toNat - 48)
  else if 'a' ≤ ch ∧ ch ≤ 'f' then some (ch.toNat - 87)
  else none

/-- `unhex(text)`; `none` for a malformed string (rule R240, U15). -/
def unhexText : List Char → Option (List Byte)
  | [] => some []
  | [_] => none
  | hi :: lo :: rest =>
    match hexValue hi, hexValue lo, unhexText rest with
    | some h, some l, some bytes => some (BitVec.ofNat 8 (16 * h + l) :: bytes)
    | _, _, _ => none

/-- The text without the U+0000 characters at its end (rule R240, 90_conflicts.md C10). -/
def stripNuls (text : List Char) : List Char :=
  (text.reverse.dropWhile fun ch => ch.toNat = 0).reverse

/-- `encryptText(text)` (rule R240). -/
def encryptText (enc : TextEncoding) (text : List Char) (s : State) : HostResult (List Char) :=
  (desxEncryptBytes (enc.encode text) s).andThen fun ct t => .done (hexText ct) t

/-- `decryptText(hex)` (rule R240). -/
def decryptText (enc : TextEncoding) (hex : List Char) (s : State) : HostResult (List Char) :=
  match unhexText hex with
  | none => .failed .malformedHex s
  | some ct => (desxDecryptBytes ct s).andThen fun pt t => .done (stripNuls (enc.decode pt)) t

end Sys2Proof.Machine
end

