-- ==== Sys2Proof/Safety.lean ====
section
/-! DEFINITION. What a sound state is: the facts that rules R8, R9, R16, R40, R41, R48 and R226 claim
of every state a run reaches. -/

namespace Sys2Proof.Machine

/-- Every big-integer register holds a value of its range (rules R16, R40 and R41). -/
def State.inRange (s : State) : Prop :=
  s.x < 2 ^ s.params.nbits ∧ s.y < 2 ^ s.params.nbits ∧ s.rp < 2 ^ s.params.nbits
    ∧ s.rq < 2 ^ s.params.nbits ∧ s.rn < 2 ^ s.params.nbits ∧ s.sn < 2 ^ s.params.nbits
    ∧ s.se < 2 ^ s.params.nbits ∧ s.sd < 2 ^ s.params.nbits
    ∧ (-2 ^ (s.params.nbits - 1) ≤ s.ra ∧ s.ra < 2 ^ (s.params.nbits - 1))
    ∧ (-2 ^ (s.params.nbits - 1) ≤ s.rb ∧ s.rb < 2 ^ (s.params.nbits - 1))

/-- The buffer is in its canonical form and lists no byte at or beyond `MSGMAX` (rules R70, R84). -/
def State.bufferWf (s : State) : Prop :=
  s.msg.wf = true ∧ s.msg.below s.params.msgmax = true

/-- Whenever a key is bound, the round keys are its schedule (rule R48). -/
def State.keysMatch (s : State) : Prop := s.keyv = true → s.rk = keySchedule s.key

/-- KeyNotSet never coexists with a bound key (rule R226). -/
def State.latchMatch (s : State) : Prop := s.err = .keyNotSet → s.keyv = false

/-- A sound state. -/
structure State.Sound (s : State) : Prop where
  paramsWf : s.params.wf = true
  inRange : s.inRange
  bufferWf : s.bufferWf
  keysMatch : s.keysMatch
  latchMatch : s.latchMatch

end Sys2Proof.Machine
end

