-- ==== Sys2Proof/Certificates/Slice0/Obligations.lean ====
section
/-! DEFINITION. The statements for the provers, taken from the numbered rules of spec/. -/

namespace Sys2Proof.Claims

open Sys2Proof.Machine

/-- The rows of rule R94: match, mask, and the command a word that the row selects stands for. -/
def opcodeRows : List (CmdWord × CmdWord × (CmdWord → Instr)) :=
  [(0x00000000#32, 0xFFFFFFFF#32, fun _ => .nop),
    (0x01000000#32, 0xFFFFFFFF#32, fun _ => .clrerr),
    (0x10000000#32, 0xFFFFFFFF#32, fun _ => .deskey),
    (0x11000000#32, 0xFFFFFFFF#32, fun _ => .desenc),
    (0x12000000#32, 0xFFFFFFFF#32, fun _ => .desdec),
    (0x20000000#32, 0xFFFFFFFF#32, fun _ => .cbcinit),
    (0x21000000#32, 0xFFFFFFFF#32, fun _ => .cbcenc),
    (0x22000000#32, 0xFFFFFFFF#32, fun _ => .cbcdec),
    (0x23000000#32, 0xFFFFFFFF#32, fun _ => .xencm),
    (0x24000000#32, 0xFFFFFFFF#32, fun _ => .xdecm),
    (0x30000000#32, 0xFFFF0000#32, fun w => .mrtest (w &&& 0xFFFF#32).toNat),
    (0x40000000#32, 0xFFFFFFFF#32, fun _ => .rabenc),
    (0x41000000#32, 0xFFFFFFFF#32, fun _ => .rabdec),
    (0x50000000#32, 0xFFFFFFFF#32, fun _ => .dgclr),
    (0x51000000#32, 0xFFE00000#32, fun w => .dgadd (w &&& 0x1FFFFF#32).toNat),
    (0x52000000#32, 0xFFFFFFFF#32, fun _ => .rsasign),
    (0x53000000#32, 0xFFFFFFFF#32, fun _ => .rsavfy)]

/-- The six commands that use the DES round keys (rule R252). -/
def usesRoundKeys : Instr → Prop
  | .desenc | .desdec | .cbcenc | .cbcdec | .xencm | .xdecm => True
  | _ => False

/-- The condition of rule R262's table for a command's operands to be bad. -/
def operandBad (s : State) : Instr → Prop
  | .rabdec => s.rp = 0 ∨ s.rq = 0 ∨ s.rn = 0
  | .rsasign | .rsavfy => s.sn = 0
  | .xencm => s.params.msgmax < s.mlen.toNat
  | .xdecm => s.params.msgmax < s.mlen.toNat ∨ s.mlen.toNat % 8 ≠ 0
  | _ => False

/-- Rule R30's table as the host reads it: each assigned number and what `RD` of it returns. -/
def portReads (s : State) : List (Nat × Int) :=
  ([(0x00, 0), (0x01, (statusWord s).toNat), (0x02, s.din.toNat), (0x03, s.dout.toNat),
    (0x04, s.k1.toNat), (0x05, s.k2.toNat), (0x06, s.iv.toNat), (0x07, s.chain.toNat),
    (0x08, s.mlen.toNat), (0x09, s.marker.toNat), (0x0A, s.h.toNat), (0x0B, s.key.toNat),
    (0x20, s.x), (0x21, s.y), (0x22, s.rp), (0x23, s.rq), (0x24, s.ra), (0x25, s.rb),
    (0x26, s.rn), (0x27, s.sn), (0x28, s.se), (0x29, s.sd)] : List (Nat × Int)) ++
  (List.finRange 16).map fun i => (0x10 + i.val, (s.rk[i].toNat : Int))

/-- A row of rule R30's table for a register the host writes. -/
structure WriteRow where
  /-- the register's number -/
  num : Nat
  /-- the least value of its range -/
  lo : Int
  /-- the bound above its range -/
  hi : Int
  /-- the state with the value written -/
  written : State

/-- Rule R30's table as the host writes it: each number whose right has W but CMD's, the values
`lo <= v < hi` of its width and sign, and the state after `v` is written. -/
def portWrites (s : State) (v : Int) : List WriteRow :=
  [⟨0x02, 0, 2 ^ 64, { s with din := BitVec.ofInt 64 v }⟩,
    ⟨0x04, 0, 2 ^ 64, { s with k1 := BitVec.ofInt 64 v }⟩,
    ⟨0x05, 0, 2 ^ 64, { s with k2 := BitVec.ofInt 64 v }⟩,
    ⟨0x06, 0, 2 ^ 64, { s with iv := BitVec.ofInt 64 v }⟩,
    ⟨0x08, 0, 2 ^ 32, { s with mlen := BitVec.ofInt 32 v }⟩,
    ⟨0x09, 0, 2 ^ 16, { s with marker := BitVec.ofInt 16 v }⟩,
    ⟨0x0A, 0, 2 ^ 32, { s with h := BitVec.ofInt 32 v }⟩,
    ⟨0x20, 0, 2 ^ s.params.nbits, { s with x := v.toNat }⟩,
    ⟨0x22, 0, 2 ^ s.params.nbits, { s with rp := v.toNat }⟩,
    ⟨0x23, 0, 2 ^ s.params.nbits, { s with rq := v.toNat }⟩,
    ⟨0x24, -2 ^ (s.params.nbits - 1), 2 ^ (s.params.nbits - 1), { s with ra := v }⟩,
    ⟨0x25, -2 ^ (s.params.nbits - 1), 2 ^ (s.params.nbits - 1), { s with rb := v }⟩,
    ⟨0x26, 0, 2 ^ s.params.nbits, { s with rn := v.toNat }⟩,
    ⟨0x27, 0, 2 ^ s.params.nbits, { s with sn := v.toNat }⟩,
    ⟨0x28, 0, 2 ^ s.params.nbits, { s with se := v.toNat }⟩,
    ⟨0x29, 0, 2 ^ s.params.nbits, { s with sd := v.toNat }⟩]

/-- Rule R72's packing: `MemRead(a, 8)` is the sum of the eight bytes, the first the most significant,
and byte `k` of a block is its bits `[63 - 8k : 56 - 8k]`. -/
def BigEndianPacking : Prop :=
  (∀ (m : Memory) (a : Nat), (readBlock m a).toNat =
    (m.read a).toNat * 2 ^ 56 + (m.read (a + 1)).toNat * 2 ^ 48 + (m.read (a + 2)).toNat * 2 ^ 40 +
      (m.read (a + 3)).toNat * 2 ^ 32 + (m.read (a + 4)).toNat * 2 ^ 24 +
      (m.read (a + 5)).toNat * 2 ^ 16 + (m.read (a + 6)).toNat * 2 ^ 8 + (m.read (a + 7)).toNat) ∧
  (∀ (v : Block) (k : Nat), k < 8 → blockByte v k = v.extractLsb' (56 - 8 * k) 8)

/-- Commands executed one after the other. -/
def commands : List Instr → State → Outcome
  | [], s => .next s
  | i :: rest, s =>
    match exec i s with
    | .next t => commands rest t
    | .fault r => .fault r
    | .refused r => .refused r

/-- A block command executed for each block in order, the block written to DIN before it, DOUT read
after it. -/
def streamed (i : Instr) : List Block → State → Option (List Block × State)
  | [], s => some ([], s)
  | b :: rest, s =>
    match exec i { s with din := b } with
    | .next t => (streamed i rest t).map fun r => (t.dout :: r.1, r.2)
    | _ => none

/-- The first `n` blocks of a buffer (rule R71). -/
def blocksOf (m : Memory) (n : Nat) : List Block := (List.range n).map fun j => readBlock m (8 * j)

/-- The Miller–Rabin round accepts base `a` for `n`, in the words of rules R186 and R187. -/
def Accepts (n a : Nat) : Prop :=
  ∃ s d, n - 1 = 2 ^ s * d ∧ d % 2 = 1 ∧
    (a ^ d % n = 1 ∨ ∃ i < s, a ^ (2 ^ i * d) % n = n - 1)

/-- Two states agree on what the verification half of the hybrid decryption must leave alone. -/
def NothingDecrypted (s t : State) : Prop :=
  t.key = s.key ∧ t.rk = s.rk ∧ t.keyv = s.keyv ∧ t.msg = s.msg ∧ t.mlen = s.mlen ∧
    t.chain = s.chain ∧ t.dout = s.dout ∧ t.roots = s.roots ∧ t.y = s.y

end Sys2Proof.Claims

open Sys2Proof Sys2Proof.Machine Sys2Proof.Claims

/-! ## Encoding and the command port -/

/-- Every well-formed command's word decodes to it, with every operand at every value. -/
def Obligations.DecodeOfEncode : Prop := ∀ i : Instr, i.wf = true → decode (encode i) = .ok i

/-- A word has one meaning: a word that decodes is the word of the command it decodes to. -/
def Obligations.EncodeOfDecode : Prop :=
  ∀ (w : CmdWord) (i : Instr), decode w = .ok i → i.wf = true ∧ encode i = w

/-- Rule R94: a word selects a command when `(w & mask) = match`; the pairs are pairwise disjoint; a
word that no row selects decodes to none (rule R95's first sentence). -/
def Obligations.WordSelectsByMaskAndMatch : Prop :=
  (∀ w, ∀ row ∈ opcodeRows, w &&& row.2.1 = row.1 → decode w = .ok (row.2.2 w)) ∧
  (∀ w, (∀ row ∈ opcodeRows, w &&& row.2.1 ≠ row.1) → ∃ r, decode w = .error r) ∧
  opcodeRows.Pairwise (fun r r' => ∀ w, ¬(w &&& r.2.1 = r.1 ∧ w &&& r'.2.1 = r'.1))

/-- Words of spec/95_test_vectors.md section 10, one or more a family, legal and illegal. -/
def Obligations.ListedWordsDecode : Prop :=
  decode 0x00000000#32 = .ok .nop ∧ decode 0x10000000#32 = .ok .deskey ∧
  decode 0x24000000#32 = .ok .xdecm ∧ decode 0x30000014#32 = .ok (.mrtest 20) ∧
  decode 0x3000FFFF#32 = .ok (.mrtest 65535) ∧ decode 0x41000000#32 = .ok .rabdec ∧
  decode 0x51000054#32 = .ok (.dgadd 0x54) ∧ decode 0x511FFFFF#32 = .ok (.dgadd 0x1FFFFF) ∧
  decode 0x53000000#32 = .ok .rsavfy ∧ decode 0x30010000#32 = .error .reservedBits ∧
  decode 0x51200000#32 = .error .reservedBits ∧ decode 0x11000001#32 = .error .reservedBits ∧
  decode 0x7F000000#32 = .error .unassignedOpcode

/-- When the host's next action writes a word to CMD, no error is latched and the word decodes to `i`,
the step is `exec i` on the state whose host has that action behind it. The list of actions is the
model's form of the host (log 2). -/
def Obligations.StepRunsDecodedCommand : Prop :=
  ∀ (s : State) (rest : List Action) (v : Int) (i : Instr),
    s.host.todo = .wr 0 v :: rest → 0 ≤ v → v < 2 ^ 32 → s.err = .none →
    decode (BitVec.ofNat 32 v.toNat) = .ok i →
    i.wf = true ∧ step s = exec i (withTodo s rest)

/-- A step is the next action, performed whole on the state whose host has it behind it; with nothing
to come the core holds its state. The list of actions is the model's form of the host (log 2). -/
def Obligations.StepPerformsNextAction : Prop :=
  (∀ (s : State) (a : Action) (rest : List Action), s.host.todo = a :: rest →
    step s = act a (withTodo s rest)) ∧
  (∀ s : State, s.host.todo = [] → step s = .next s)

/-- Rule R257: while an error is latched, a word other than those of NOP and CLRERR has no effect,
legal or not, and neither has NOP; CLRERR clears the latch; every host access but a command works as
it does with no error latched. -/
def Obligations.LatchedPortRefusesCommands : Prop :=
  ∀ s : State, s.err ≠ .none →
    (∀ w : CmdWord, w ≠ 0x01000000#32 → act (.wr 0 w.toNat) s = .next s) ∧
    act (.wr 0 0x01000000) s = .next { s with err := .none } ∧
    (∀ num, act (.rd num) s = .next (returned s (readNum s num))) ∧
    (∀ addr, act (.rdm addr) s = .next (returned s (readByte s addr).toNat)) ∧
    (∀ addr b, act (.wrm addr b) s = .next (writeByte s addr b)) ∧
    (∀ r v, r ≠ .cmd → act (.wr (numOfReg r) v) s = writeReg s v r)

/-- Rules R95 and R260: a word that no row of rule R94 selects, executed while `ERR = 0`, sets ERR to
8 and changes nothing else. -/
def Obligations.IllegalWordLatchesIllegalCommand : Prop :=
  ∀ (s : State) (w : CmdWord), s.err = .none → (∀ row ∈ opcodeRows, w &&& row.2.1 ≠ row.1) →
    act (.wr 0 w.toNat) s = .next { s with err := .illegalCommand } ∧
      errCode .illegalCommand = 8#4

/-! ## The access port -/

/-- Rule R50: access-right violations, unassigned numbers and out-of-range buffer addresses are ignored
or read 0, a read changes nothing but what the host has seen, and every other access is performed:
`RD` of each assigned number returns that number's register, and `WR` of each writable one writes that
register alone (the numbers, widths and signs of rule R30's table). No hypothesis on ERR. -/
def Obligations.AccessRightsAreKept : Prop :=
  ∀ s : State,
    (∀ v, act (.wr 0x01 v) s = .next s ∧ act (.wr 0x03 v) s = .next s ∧
      act (.wr 0x07 v) s = .next s ∧ act (.wr 0x0B v) s = .next s ∧ act (.wr 0x21 v) s = .next s ∧
      ∀ i, 1 ≤ i → i ≤ 16 → act (.wr (0x0F + i) v) s = .next s) ∧
    act (.rd 0x00) s = .next (returned s 0) ∧
    (∀ num v, (0x0C ≤ num ∧ num ≤ 0x0F) ∨ 0x2A ≤ num →
      act (.rd num) s = .next (returned s 0) ∧ act (.wr num v) s = .next s) ∧
    (∀ addr b, s.params.msgmax ≤ addr →
      act (.rdm addr) s = .next (returned s 0) ∧ act (.wrm addr b) s = .next s) ∧
    (∀ num, act (.rd num) s = .next (returned s (readNum s num))) ∧
    (∀ addr, act (.rdm addr) s = .next (returned s (readByte s addr).toNat)) ∧
    (∀ v, returned s v = { s with host := { s.host with seen := v :: s.host.seen } }) ∧
    (∀ r v lo hi, r ≠ .cmd → portRange s.params r = some (lo, hi) → lo ≤ v → v < hi →
      act (.wr (numOfReg r) v) s = .next (storeReg s v r)) ∧
    (∀ addr b, addr < s.params.msgmax →
      act (.wrm addr b) s = .next { s with msg := s.msg.write addr b }) ∧
    (∀ addr, addr < s.params.msgmax →
      act (.rdm addr) s = .next (returned s (s.msg.read addr).toNat)) ∧
    (∀ row ∈ portReads s, act (.rd row.1) s = .next (returned s row.2)) ∧
    (∀ v, ∀ row ∈ portWrites s v, row.lo ≤ v → v < row.hi →
      act (.wr row.num v) s = .next row.written)

/-- A value the host writes to a register it may write reads back, and nothing else of the CORE
changes; by name, and by the numbers of rule R30's table, where every other number reads as before. -/
def Obligations.WrittenRegisterReadsBack : Prop :=
  (∀ (s : State) (r : Reg) (v lo hi : Int),
    r ≠ .cmd → portRange s.params r = some (lo, hi) → lo ≤ v → v < hi →
    ∃ t, act (.wr (numOfReg r) v) s = .next t ∧
      act (.rd (numOfReg r)) t = .next (returned t v) ∧
      (∀ r', r' ≠ r → readReg t r' = readReg s r') ∧
      t.msg = s.msg ∧ t.params = s.params ∧ t.oracle = s.oracle ∧ t.resets = s.resets ∧
      t.host = s.host) ∧
  (∀ (s : State) (v : Int), ∀ row ∈ portWrites s v, row.lo ≤ v → v < row.hi →
    ∃ t, act (.wr row.num v) s = .next t ∧ t = row.written ∧
      act (.rd row.num) t = .next (returned t v) ∧
      ∀ other ∈ portReads s, other.1 ≠ row.num →
        act (.rd other.1) t = .next (returned t other.2))

/-- A byte the host writes inside the buffer reads back, every other byte reads as before, nothing else
changes and the buffer stays in its canonical form (the model's own, log 1). -/
def Obligations.WrittenByteReadsBack : Prop :=
  ∀ (s : State) (addr : Nat) (b : Byte), s.msg.wf = true → addr < s.params.msgmax →
    ∃ t, act (.wrm addr b) s = .next t ∧ t = { s with msg := t.msg } ∧ t.msg.wf = true ∧
      act (.rdm addr) t = .next (returned t b.toNat) ∧
      ∀ a, a ≠ addr → readByte t a = readByte s a ∧ t.msg.read a = s.msg.read a

/-- A write the port cannot carry is no step of the machine: the model stops by name (log 6). -/
def Obligations.ImpossiblePortValueFaults : Prop :=
  (∀ (s : State) (r : Reg) (v lo hi : Int),
    portRange s.params r = some (lo, hi) → ¬(lo ≤ v ∧ v < hi) →
    act (.wr (numOfReg r) v) s = .fault .portValue) ∧
  (∀ (s : State) (v : Int), ∀ row ∈ portWrites s v, ¬(row.lo ≤ v ∧ v < row.hi) →
    act (.wr row.num v) s = .fault .portValue) ∧
  (∀ (s : State) (v : Int), ¬(0 ≤ v ∧ v < 2 ^ 32) → act (.wr 0x00 v) s = .fault .portValue)

/-- Rule R34's layout of the STATUS word, reserved bits 0, and the codes of ERR in rule R251's table. -/
def Obligations.StatusWordLayout : Prop :=
  (errCode .none = 0#4 ∧ errCode .keyNotSet = 1#4 ∧ errCode .messageTooLarge = 2#4 ∧
    errCode .ambiguous = 3#4 ∧ errCode .noValidRoot = 4#4 ∧ errCode .illegalCommand = 8#4 ∧
    errCode .badOperand = 9#4) ∧
  ∀ s : State,
    (statusWord s).extractLsb' 0 4 = errCode s.err ∧ (statusWord s).getLsbD 4 = s.keyv ∧
    (statusWord s).getLsbD 5 = s.flagP ∧ (statusWord s).getLsbD 6 = s.flagV ∧
    (statusWord s).getLsbD 7 = false ∧ (statusWord s).extractLsb' 8 4 = s.roots ∧
    (statusWord s).extractLsb' 12 20 = 0#20 ∧
    readReg s .status = ((statusWord s).toNat : Int)

/-! ## Errors -/

/-- Rule R255: the latch is sticky. Once non-zero it keeps its value until CLRERR or reset. -/
def Obligations.LatchIsSticky : Prop :=
  State.reset.err = .none ∧
  ∀ s t : State, s.err ≠ .none → step s = .next t →
    t.err = s.err ∨
    (t.err = .none ∧ ∃ rest, s.host.todo = .wr 0 0x01000000 :: rest) ∨
    (t.err = .none ∧ ∃ rest, s.host.todo = .reset :: rest)

/-- Rule R256: after a raise the state equals the state before the command except for ERR, and ROOTS
when RABDEC raises NoValidRoot or Ambiguous. -/
def Obligations.RaisingChangesOnlyTheLatch : Prop :=
  ∀ (i : Instr) (s t : State), s.err = .none → exec i s = .next t → t.err ≠ .none →
    t = { s with err := t.err } ∨
    (i = .rabdec ∧ (t.err = .noValidRoot ∨ t.err = .ambiguous) ∧
      t = { s with err := t.err, roots := t.roots })

/-- Rule R252: the six commands that use the round keys raise KeyNotSet while no key is bound,
whatever their other operands are; no other command raises it, and none does once a key is bound. No
key is bound after reset, and DESKEY alone binds one. -/
def Obligations.KeyNotSetExactlyWhenUnkeyed : Prop :=
  (∀ (i : Instr) (s : State), usesRoundKeys i → s.keyv = false →
    exec i s = .next { s with err := .keyNotSet }) ∧
  (∀ (i : Instr) (s t : State), s.err ≠ .keyNotSet → exec i s = .next t → t.err = .keyNotSet →
    usesRoundKeys i ∧ s.keyv = false) ∧
  State.reset.keyv = false ∧
  (∀ (i : Instr) (s t : State), exec i s = .next t →
    (t.keyv = true ↔ s.keyv = true ∨ i = .deskey))

/-- Rule R262: BadOperand is raised, after the KeyNotSet check, exactly under the conditions of the
rule's table, and changes nothing else. -/
def Obligations.BadOperandExactlyOnBadOperands : Prop :=
  (∀ (i : Instr) (s : State), operandBad s i → (usesRoundKeys i → s.keyv = true) →
    exec i s = .next { s with err := .badOperand }) ∧
  (∀ (i : Instr) (s t : State), s.err ≠ .badOperand → exec i s = .next t → t.err = .badOperand →
    operandBad s i ∧ (usesRoundKeys i → s.keyv = true))

/-! ## The invariant and reset -/

/-- Every step keeps a state sound: parameters legal, big registers in range (rules R16, R40, R41), the
buffer canonical and inside MSGMAX, round keys the schedule of the bound key (rule R48), KeyNotSet
never beside a bound key (rule R226). -/
def Obligations.EveryStepKeepsSoundness : Prop :=
  ∀ s t : State, s.Sound → step s = .next t → t.Sound

/-- Rule R48: whenever a key is bound, the round keys are its schedule. It holds after reset, and every
step keeps it, in any state. -/
def Obligations.BoundKeyMatchesItsRoundKeys : Prop :=
  State.reset.keysMatch ∧ ∀ s t : State, s.keysMatch → step s = .next t → t.keysMatch

/-- The state right after reset is sound and its STATUS is 0. The values in its other registers are the
model's choice (log 1). -/
def Obligations.ResetStateIsSound : Prop := State.reset.Sound ∧ statusWord State.reset = 0#32

/-- Rule R281: after a reset event STATUS is 0, and every other register and every byte of the buffer
may hold any value of its width: any such contents are the result for some choice of the free values,
which are the model's form of "unspecified" (log 5). -/
def Obligations.ResetLeavesArbitraryContents : Prop :=
  (∀ (s : State) (rest : List Action), s.host.todo = .reset :: rest →
    ∃ u, step s = .next { resetTo u (withTodo s rest) with resets := s.resets + 1 }) ∧
  (∀ (u : Nat → Nat) (s : State), statusWord (resetTo u s) = 0#32 ∧
    (resetTo u s).params = s.params ∧ (s.params.wf = true → (resetTo u s).Sound)) ∧
  (∀ s t : State, statusWord t = 0#32 → t.params = s.params → 1 ≤ s.params.nbits → t.inRange →
    t.bufferWf → t.oracle = s.oracle → t.resets = s.resets → t.host = s.host →
    ∃ u, resetTo u s = t)

/-! ## The DES network, the key schedule and the round engine -/

/-- Rule R111: output position `j` of a permutation is the input bit at position `T[j]`, positions
counted from the most significant end. -/
def Obligations.PermutationReadsItsTable : Prop :=
  ∀ (w m : Nat) (table : List Nat) (v : BitVec w), table.length = m →
    (∀ i ∈ table, 1 ≤ i ∧ i ≤ w) →
    ∀ j (hj : j < table.length), (permute m table v).getMsbD j = v.getMsbD (table[j] - 1)

/-- Rule R114: FP is the inverse of IP, and so are their tables. -/
def Obligations.FinalPermutationInvertsInitial : Prop :=
  (∀ v : Block, finalPerm (initialPerm v) = v) ∧ (∀ v : Block, initialPerm (finalPerm v) = v) ∧
  (∀ j, 1 ≤ j → j ≤ 64 → ipTable.getD (fpTable.getD (j - 1) 0 - 1) 0 = j)

/-- Rules R117 and R126: nibble `j` of the S-box layer is the entry of table `S_j` whose row is the
group's two outer bits and whose column is its four inner bits, group 1 most significant. -/
def Obligations.SboxesReadTheirTables : Prop :=
  ∀ (x : BitVec 48) (j : Nat), j < 8 →
    (sboxes x).extractLsb' (28 - 4 * j) 4 =
      BitVec.ofNat 4 (((sTables.getD j []).getD
        (2 * (x.getMsbD (6 * j)).toNat + (x.getMsbD (6 * j + 5)).toNat) []).getD
        (8 * (x.getMsbD (6 * j + 1)).toNat + 4 * (x.getMsbD (6 * j + 2)).toNat +
          2 * (x.getMsbD (6 * j + 3)).toNat + (x.getMsbD (6 * j + 4)).toNat) 0)

/-- Rules R140 to R143: the round keys are PC-2 of the halves of PC-1, rotated left round after round
by 1 in rounds 1, 2, 9 and 16 and by 2 in the others. -/
def Obligations.RoundKeysFollowTheSchedule : Prop :=
  ∀ k : Block, ∃ C D : Nat → KeyHalf,
    C 0 = (pc1 k).extractLsb' 28 28 ∧ D 0 = (pc1 k).extractLsb' 0 28 ∧
    ∀ i, 1 ≤ i → i ≤ 16 →
      C i = (C (i - 1)).rotateLeft (if i = 1 ∨ i = 2 ∨ i = 9 ∨ i = 16 then 1 else 2) ∧
      D i = (D (i - 1)).rotateLeft (if i = 1 ∨ i = 2 ∨ i = 9 ∨ i = 16 then 1 else 2) ∧
      (keySchedule k).toList[i - 1]? = some (pc2 (C i ++ D i))

/-- Rule R145: keys that differ only in the parity positions 8, 16, ..., 64 have the same `CD_0`, the
same round keys and therefore the same cipher; DESKEY takes any parity. -/
def Obligations.ParityBitsAreIgnored : Prop :=
  ∀ k k' : Block, (∀ i < 64, i % 8 ≠ 7 → k.getMsbD i = k'.getMsbD i) →
    pc1 k = pc1 k' ∧ keySchedule k = keySchedule k' ∧
      (∀ s : State, exec .deskey { s with din := k } =
        .next { s with din := k, key := k, rk := keySchedule k', keyv := true }) ∧
      ∀ b dir, processBlock (keySchedule k) b dir = processBlock (keySchedule k') b dir

/-- Rule R147's derived facts: the rotations of a whole schedule cancel; a key whose two halves are
uniform has equal round keys and one function for both directions; the round keys of all zeros and of
all ones. -/
def Obligations.UniformHalvesGiveEqualRoundKeys : Prop :=
  (∀ c : KeyHalf, shiftSchedule.foldl rotl28 c = c) ∧
  (∀ k : Block, (c0 k = 0#28 ∨ c0 k = 0xFFFFFFF#28) → (d0 k = 0#28 ∨ d0 k = 0xFFFFFFF#28) →
    (∀ rk ∈ (keySchedule k).toList, ∀ rk' ∈ (keySchedule k).toList, rk = rk') ∧
    ∀ b, processBlock (keySchedule k) b .encrypt = processBlock (keySchedule k) b .decrypt) ∧
  (∀ rk ∈ (keySchedule 0#64).toList, rk = 0#48) ∧
  (∀ rk ∈ (keySchedule 0xFFFFFFFFFFFFFFFF#64).toList, rk = 0xFFFFFFFFFFFF#48)

/-- Rules R150 to R155: the block transform is IP, sixteen Feistel rounds with the round keys in the
direction's order, the exchange of the halves, and FP. -/
def Obligations.BlockTransformRunsSixteenRounds : Prop :=
  ∀ (rk : Vector RoundKey 16) (b : Block) (dir : Direction), ∃ L R : Nat → Half,
    L 0 = (initialPerm b).extractLsb' 32 32 ∧ R 0 = (initialPerm b).extractLsb' 0 32 ∧
    (∀ i, 1 ≤ i → i ≤ 16 →
      L i = R (i - 1) ∧
      R i = L (i - 1) ^^^ pbox (sboxes (expand (R (i - 1)) ^^^
        rk.toList.getD (if dir = .encrypt then i - 1 else 16 - i) 0))) ∧
    processBlock rk b dir = finalPerm (R 16 ++ L 16)

/-- Rule R157: decrypting the encryption of a block returns it, and the other way round, for every
list of round keys. -/
def Obligations.DecryptionInvertsEncryption : Prop :=
  ∀ (rk : Vector RoundKey 16) (b : Block),
    processBlock rk (processBlock rk b .encrypt) .decrypt = b ∧
    processBlock rk (processBlock rk b .decrypt) .encrypt = b

/-- The published known answers of spec/95_test_vectors.md section 1. -/
def Obligations.PublishedKnownAnswers : Prop :=
  processBlock (keySchedule 0x133457799BBCDFF1#64) 0x0123456789ABCDEF#64 .encrypt =
    0x85E813540F0AB405#64 ∧
  processBlock (keySchedule 0x0E329232EA6D0D73#64) 0x8787878787878787#64 .encrypt = 0#64 ∧
  processBlock (keySchedule 0#64) 0#64 .encrypt = 0x8CA64DE9C1B123A7#64 ∧
  processBlock (keySchedule 0x0123456789ABCDEF#64) 0x4E6F772069732074#64 .encrypt =
    0x3FA40E8A984D4815#64

/-! ## DES and DES-X commands -/

/-- Rule R146: DESKEY binds the key in DIN with its round keys, sets KEYV and changes nothing else,
for every key; no command clears KEYV; the worked example. -/
def Obligations.DeskeyBindsTheKey : Prop :=
  encode .deskey = 0x10000000#32 ∧
  (∀ s : State, exec .deskey s =
    .next { s with key := s.din, rk := keySchedule s.din, keyv := true }) ∧
  (∀ (i : Instr) (s t : State), s.keyv = true → exec i s = .next t → t.keyv = true) ∧
  c0 0x133457799BBCDFF1#64 = 0xF0CCAAF#28 ∧ d0 0x133457799BBCDFF1#64 = 0x556678F#28 ∧
  (keySchedule 0x133457799BBCDFF1#64).toList[0]? = some 0x1B02EFFC7072#48 ∧
  (keySchedule 0x133457799BBCDFF1#64).toList[15]? = some 0xCB3D8B0E17F5#48

/-- Rules R158 and R159: with a key bound DESENC and DESDEC write DOUT and nothing else; without one
they raise KeyNotSet and DOUT is not written. -/
def Obligations.DesencAndDesdecTransformDin : Prop :=
  encode .desenc = 0x11000000#32 ∧ encode .desdec = 0x12000000#32 ∧
  (∀ s : State, s.keyv = true →
    exec .desenc s = .next { s with dout := processBlock s.rk s.din .encrypt } ∧
    exec .desdec s = .next { s with dout := processBlock s.rk s.din .decrypt }) ∧
  (∀ s : State, s.keyv = false →
    exec .desenc s = .next { s with err := .keyNotSet } ∧
    exec .desdec s = .next { s with err := .keyNotSet }) ∧
  (∀ s : State, (∀ rk ∈ s.rk.toList, ∀ rk' ∈ s.rk.toList, rk = rk') →
    exec .desdec s = exec .desenc s) ∧
  processBlock (keySchedule 0x133457799BBCDFF1#64) 0x0123456789ABCDEF#64 .encrypt =
    0x85E813540F0AB405#64 ∧
  processBlock (keySchedule 0x133457799BBCDFF1#64) 0x85E813540F0AB405#64 .decrypt =
    0x0123456789ABCDEF#64

/-- Rule R166: CBCINIT copies IV to CHAIN, needs no key and changes nothing else; twice is once. -/
def Obligations.CbcinitSeedsTheChain : Prop :=
  encode .cbcinit = 0x20000000#32 ∧
  (∀ s : State, exec .cbcinit s = .next { s with chain := s.iv }) ∧
  (∀ s : State, commands [.cbcinit, .cbcinit] s = exec .cbcinit s)

/-- Rule R167: CBCENC whitens, encrypts and chains one block; with zero whitening and chain it writes
the DOUT of DESENC; issued twice in a row it writes two different blocks unless the first equals the
CHAIN it started from; the worked example. -/
def Obligations.CbcencEncryptsOneBlock : Prop :=
  encode .cbcenc = 0x21000000#32 ∧
  (∀ s : State, s.keyv = true →
    exec .cbcenc s = .next { s with
      dout := processBlock s.rk (s.din ^^^ s.chain ^^^ s.k1) .encrypt ^^^ s.k2
      chain := processBlock s.rk (s.din ^^^ s.chain ^^^ s.k1) .encrypt ^^^ s.k2 }) ∧
  (∀ s : State, s.keyv = false → exec .cbcenc s = .next { s with err := .keyNotSet }) ∧
  (∀ s t u : State, s.k1 = 0#64 → s.k2 = 0#64 → s.chain = 0#64 → s.keyv = true →
    exec .cbcenc s = .next t → exec .desenc s = .next u → t.dout = u.dout) ∧
  (∀ s t u : State, s.keyv = true → exec .cbcenc s = .next t → exec .cbcenc t = .next u →
    (u.dout = t.dout ↔ t.dout = s.chain)) ∧
  processBlock (keySchedule 0x133457799BBCDFF1#64)
      (0x4142434445464748#64 ^^^ 0x1122334455667788#64 ^^^ 0x0123456789ABCDEF#64) .encrypt ^^^
    0xFEDCBA9876543210#64 = 0x0112577118177FDC#64

/-- Rule R168: CBCDEC decrypts and unchains one block, and CHAIN advances to the ciphertext; it undoes
CBCENC when both start from the same CHAIN; the worked example. -/
def Obligations.CbcdecDecryptsOneBlock : Prop :=
  encode .cbcdec = 0x22000000#32 ∧
  (∀ s : State, s.keyv = true →
    exec .cbcdec s = .next { s with
      dout := processBlock s.rk (s.din ^^^ s.k2) .decrypt ^^^ s.k1 ^^^ s.chain
      chain := s.din }) ∧
  (∀ s : State, s.keyv = false → exec .cbcdec s = .next { s with err := .keyNotSet }) ∧
  (∀ s : State, s.keyv = true → ∃ t u, exec .cbcenc s = .next t ∧
    exec .cbcdec { t with din := t.dout, chain := s.chain } = .next u ∧
    u.dout = s.din ∧ u.chain = t.chain) ∧
  processBlock (keySchedule 0x133457799BBCDFF1#64)
      (0x0112577118177FDC#64 ^^^ 0xFEDCBA9876543210#64) .decrypt ^^^ 0x0123456789ABCDEF#64 ^^^
    0x1122334455667788#64 = 0x4142434445464748#64

/-- Rule R178: one block encrypted twice in a chain gives two equal ciphertexts exactly when the first
equals the IV; and the ciphertext is determined by the registers the commands read. -/
def Obligations.EqualBlocksEncryptDifferently : Prop :=
  (∀ s : State, s.keyv = true → ∃ t1 t2, commands [.cbcinit, .cbcenc] s = .next t1 ∧
    exec .cbcenc t1 = .next t2 ∧ (t1.dout = t2.dout ↔ t1.dout = s.iv)) ∧
  (∀ s s' t t' : State, s.keyv = true → s'.keyv = true → s.rk = s'.rk → s.k1 = s'.k1 →
    s.k2 = s'.k2 → s.iv = s'.iv → s.din = s'.din → commands [.cbcinit, .cbcenc] s = .next t →
    commands [.cbcinit, .cbcenc] s' = .next t' → t.dout = t'.dout ∧ t.chain = t'.chain)

/-- XENCM (rule R171): with a key bound and a length the buffer holds, every block of the zero-padded
message, packed as rule R72 says, is encrypted in place and chained from IV; the length becomes the
padded one; the bytes beyond it and every register but MLEN and CHAIN are untouched. Where the padded
length does not fit MLEN (only with `MSGMAX >= 2^32`), that MLEN takes it modulo 2^32 is the model's
choice (DEDUCED, log 7) and not rule R171's. -/
def Obligations.XencmEncryptsTheMessage : Prop :=
  BigEndianPacking ∧
  ∀ s : State, s.keyv = true → s.mlen.toNat ≤ s.params.msgmax → s.msg.wf = true →
    ∃ (t : State) (plain : Nat → Block), exec .xencm s = .next t ∧
      t = { s with msg := t.msg, mlen := t.mlen, chain := t.chain } ∧
      t.mlen = BitVec.ofNat 32 (8 * ((s.mlen.toNat + 7) / 8)) ∧
      (∀ j < (s.mlen.toNat + 7) / 8, ∀ k < 8, blockByte (plain j) k =
        if 8 * j + k < s.mlen.toNat then s.msg.read (8 * j + k) else 0#8) ∧
      (∀ j < (s.mlen.toNat + 7) / 8, readBlock t.msg (8 * j) =
        processBlock s.rk (plain j ^^^ (if j = 0 then s.iv else readBlock t.msg (8 * (j - 1)))
          ^^^ s.k1) .encrypt ^^^ s.k2) ∧
      t.chain = (if s.mlen.toNat = 0 then s.iv
        else readBlock t.msg (8 * ((s.mlen.toNat + 7) / 8 - 1))) ∧
      (∀ a, 8 * ((s.mlen.toNat + 7) / 8) ≤ a → t.msg.read a = s.msg.read a) ∧
      t.msg.wf = true

/-- XDECM (rule R172): with a key bound and a length that is a multiple of 8 and fits the buffer, every
block, packed as rule R72 says, is decrypted in place, chained from IV by the ciphertext before it; the
new length is the largest `k` with `k = 0` or a non-zero byte before it; the rest is untouched. -/
def Obligations.XdecmDecryptsTheMessage : Prop :=
  BigEndianPacking ∧
  ∀ s : State, s.keyv = true → s.mlen.toNat ≤ s.params.msgmax → s.mlen.toNat % 8 = 0 →
    s.msg.wf = true →
    ∃ t : State, exec .xdecm s = .next t ∧
      t = { s with msg := t.msg, mlen := t.mlen, chain := t.chain } ∧
      (∀ j < s.mlen.toNat / 8, readBlock t.msg (8 * j) =
        processBlock s.rk (readBlock s.msg (8 * j) ^^^ s.k2) .decrypt ^^^ s.k1 ^^^
          (if j = 0 then s.iv else readBlock s.msg (8 * (j - 1)))) ∧
      t.chain = (if s.mlen.toNat = 0 then s.iv else readBlock s.msg (s.mlen.toNat - 8)) ∧
      (∀ a, s.mlen.toNat ≤ a → t.msg.read a = s.msg.read a) ∧
      t.mlen.toNat ≤ s.mlen.toNat ∧
      (t.mlen.toNat = 0 ∨ t.msg.read (t.mlen.toNat - 1) ≠ 0#8) ∧
      (∀ a, t.mlen.toNat ≤ a → a < s.mlen.toNat → t.msg.read a = 0#8) ∧
      t.msg.wf = true

/-- The message commands are exactly CBCINIT followed by the block command on each block in order
(rules R171 and R172), but for DIN and DOUT. -/
def Obligations.MessageCommandsAreChainedBlockCommands : Prop :=
  (∀ s t c : State, s.keyv = true → s.mlen.toNat ≤ s.params.msgmax → s.msg.wf = true →
    exec .xencm s = .next t → exec .cbcinit s = .next c →
    ∃ u, streamed .cbcenc
        (blocksOf (padMessage s.msg s.mlen.toNat) ((s.mlen.toNat + 7) / 8)) c =
      some (blocksOf t.msg ((s.mlen.toNat + 7) / 8), u) ∧ u.chain = t.chain) ∧
  (∀ s t c : State, s.keyv = true → s.mlen.toNat ≤ s.params.msgmax → s.mlen.toNat % 8 = 0 →
    s.msg.wf = true → exec .xdecm s = .next t → exec .cbcinit s = .next c →
    ∃ u, streamed .cbcdec (blocksOf s.msg (s.mlen.toNat / 8)) c =
      some (blocksOf t.msg (s.mlen.toNat / 8), u) ∧ u.chain = t.chain)

/-- Rule R174: lengths after the message commands. The length XENCM computes must fit MLEN, which it
does unless `MSGMAX >= 2^32` (log 7). -/
def Obligations.MessageLengthsAfterCommands : Prop :=
  (∀ s t : State, s.keyv = true → s.mlen.toNat ≤ s.params.msgmax →
    8 * ((s.mlen.toNat + 7) / 8) < 2 ^ 32 → exec .xencm s = .next t →
    t.mlen.toNat % 8 = 0 ∧ s.mlen.toNat ≤ t.mlen.toNat) ∧
  (∀ s t : State, s.keyv = true → s.mlen.toNat ≤ s.params.msgmax → s.mlen.toNat % 8 = 0 →
    exec .xdecm s = .next t →
    t.mlen.toNat ≤ s.mlen.toNat ∧ (t.mlen.toNat = 0 ∨ t.msg.read (t.mlen.toNat - 1) ≠ 0#8))

/-- Rule R175: XENCM followed by XDECM gives back every non-empty message that does not end in a zero
byte. The padded length must fit MLEN, which it does unless `MSGMAX >= 2^32` (log 7). -/
def Obligations.MessageRoundTrip : Prop :=
  ∀ s : State, s.params.wf = true → s.keyv = true → 1 ≤ s.mlen.toNat →
    s.mlen.toNat ≤ s.params.msgmax → 8 * ((s.mlen.toNat + 7) / 8) < 2 ^ 32 → s.msg.wf = true →
    s.msg.read (s.mlen.toNat - 1) ≠ 0#8 →
    ∃ t u : State, exec .xencm s = .next t ∧ exec .xdecm t = .next u ∧
      u = { s with msg := u.msg, chain := u.chain } ∧
      ∀ a < s.mlen.toNat, u.msg.read a = s.msg.read a

/-! ## Miller–Rabin -/

/-- MRTEST on an odd `X >= 5` (rules R185 to R189): one draw in `[2, X - 2]` a round executed, P is 1
exactly when every one of `rounds` rounds accepts, and the test ends at the first that does not;
nothing but P and the oracle changes. -/
def Obligations.MrtestVerdictOverItsDraws : Prop :=
  ∀ (s : State) (rounds : Nat), 5 ≤ s.x → s.x % 2 = 1 →
    ∃ (t : State) (bases : List Nat), exec (.mrtest rounds) s = .next t ∧
      t = { s with flagP := t.flagP, oracle := t.oracle } ∧
      bases.length ≤ rounds ∧ (∀ a ∈ bases, 2 ≤ a ∧ a ≤ s.x - 2) ∧
      t.oracle.drawn = s.oracle.drawn + bases.length ∧
      t.oracle.answers = s.oracle.answers.drop bases.length ∧
      (∀ k < bases.length, ∀ a, s.oracle.answers[k]? = some a → 2 ≤ a → a ≤ s.x - 2 →
        bases[k]? = some a) ∧
      ((t.flagP = true ∧ bases.length = rounds ∧ ∀ a ∈ bases, Accepts s.x a) ∨
       (t.flagP = false ∧ ∃ init a, bases = init ++ [a] ∧ (∀ b ∈ init, Accepts s.x b) ∧
          ¬Accepts s.x a))

/-- MRTEST on a number below 5 or even: the verdict of rule R185's first checks, no draw, whatever the
number of rounds; and with no round every odd number from 5 up is accepted. -/
def Obligations.MrtestVerdictWithoutDraws : Prop :=
  ∀ (s : State) (rounds : Nat),
    (s.x < 2 → exec (.mrtest rounds) s = .next { s with flagP := false }) ∧
    (s.x = 2 ∨ s.x = 3 → exec (.mrtest rounds) s = .next { s with flagP := true }) ∧
    (4 ≤ s.x → s.x % 2 = 0 → exec (.mrtest rounds) s = .next { s with flagP := false }) ∧
    (5 ≤ s.x → s.x % 2 = 1 → exec (.mrtest 0) s = .next { s with flagP := true })

/-- A prime is accepted for every number of rounds and every sequence of draws: a result of false is
certain (rule R190's first sentence). -/
def Obligations.MrtestAcceptsEveryPrime : Prop :=
  ∀ (s : State) (rounds : Nat), s.x.Prime →
    ∃ t, exec (.mrtest rounds) s = .next t ∧ t.flagP = true

/-- The false positives a model must admit (rule R190): 221 with base 174 and 2047 with base 2 are
composite and accepted. -/
def Obligations.MrtestAdmitsFalsePositives : Prop :=
  ¬Nat.Prime 221 ∧ ¬Nat.Prime 2047 ∧
  (∃ t, exec (.mrtest 1) { State.reset with x := 221, oracle := ⟨[174], 0⟩ } = .next t ∧
    t.flagP = true) ∧
  (∃ t, exec (.mrtest 1) { State.reset with x := 2047, oracle := ⟨[2], 0⟩ } = .next t ∧
    t.flagP = true)

/-- Rule R188: a draw is an integer of its interval, and every integer of the interval can be the
answer. The form of the oracle is the model's (log 3). -/
def Obligations.DrawIsAnyValueOfItsInterval : Prop :=
  ∀ lo hi : Nat, lo ≤ hi →
    (∀ o : Oracle, lo ≤ (draw lo hi o).1 ∧ (draw lo hi o).1 ≤ hi) ∧
    (∀ a k, lo ≤ a → a ≤ hi → ∀ rest, draw lo hi ⟨a :: rest, k⟩ = (a, ⟨rest, k + 1⟩))

/-! ## Rabin -/

/-- Rule R198: RABENC raises MessageTooLarge when the labelled message is not below the modulus, and
else writes its square modulo RN to Y and changes nothing else. -/
def Obligations.RabencSquaresTheLabel : Prop :=
  encode .rabenc = 0x40000000#32 ∧
  (∀ s : State, s.rn ≤ s.x * 65536 + s.marker.toNat →
    exec .rabenc s = .next { s with err := .messageTooLarge }) ∧
  (∀ s : State, s.x * 65536 + s.marker.toNat < s.rn →
    exec .rabenc s = .next { s with y := (s.x * 65536 + s.marker.toNat) ^ 2 % s.rn } ∧
      (s.x * 65536 + s.marker.toNat) ^ 2 % s.rn < s.rn) ∧
  (0x1234 * 65536 + 0xA5C3) ^ 2 % 1000042000117 = 794572723212

/-- What RABDEC does (rule R203), with the formulas of rules R199 to R202 as they stand, and its worked
example. -/
def Obligations.RabdecRecombinesTheRoots : Prop :=
  encode .rabdec = 0x41000000#32 ∧
  (∀ s : State, s.rp = 0 ∨ s.rq = 0 ∨ s.rn = 0 →
    exec .rabdec s = .next { s with err := .badOperand }) ∧
  (∀ (s : State) (r q1 x1 x2 x3 x4 : Nat) (m1 m2 m3 m4 : Bool),
    s.rp ≠ 0 → s.rq ≠ 0 → s.rn ≠ 0 →
    r = s.x ^ ((s.rp + 1) / 4) % s.rp → q1 = s.x ^ ((s.rq + 1) / 4) % s.rq →
    (x1 : Int) = (s.ra * s.rp * q1 + s.rb * s.rq * r) % s.rn → x2 = s.rn - x1 →
    (x3 : Int) = (s.ra * s.rp * q1 - s.rb * s.rq * r) % s.rn → x4 = s.rn - x3 →
    m1 = decide (x1 % 65536 = s.marker.toNat) → m2 = decide (x2 % 65536 = s.marker.toNat) →
    m3 = decide (x3 % 65536 = s.marker.toNat) → m4 = decide (x4 % 65536 = s.marker.toNat) →
    ((m1.toNat + m2.toNat + m3.toNat + m4.toNat = 0 → exec .rabdec s =
        .next { s with roots := 0#4, err := .noValidRoot }) ∧
     (2 ≤ m1.toNat + m2.toNat + m3.toNat + m4.toNat → exec .rabdec s =
        .next { s with
          roots := BitVec.ofNat 4 (m1.toNat + 2 * m2.toNat + 4 * m3.toNat + 8 * m4.toNat)
          err := .ambiguous }) ∧
     (m1.toNat + m2.toNat + m3.toNat + m4.toNat = 1 → exec .rabdec s =
        .next { s with
          roots := BitVec.ofNat 4 (m1.toNat + 2 * m2.toNat + 4 * m3.toNat + 8 * m4.toNat)
          y := (if m1 then x1 else if m2 then x2 else if m3 then x3 else x4) / 65536 }))) ∧
  (∃ t, exec .rabdec { State.reset with
      x := 794572723212
      rp := 1000003
      rq := 1000039
      ra := 194452
      rb := -194445
      rn := 1000042000117
      marker := 0xA5C3#16 } = .next t ∧
    t.err = .none ∧ t.roots = 0b0010#4 ∧ t.y = 0x1234)

/-- Rule R196: the four candidates, so the whole outcome, do not depend on which Bézout pair is
loaded. -/
def Obligations.RabdecIgnoresTheBezoutChoice : Prop :=
  ∀ (s : State) (k : Int), s.rp ≠ 0 → s.rq ≠ 0 → s.rn = s.rp * s.rq →
    ∃ t, exec .rabdec s = .next t ∧
      exec .rabdec { s with ra := s.ra + k * s.rq, rb := s.rb - k * s.rp } =
        .next { t with ra := s.ra + k * s.rq, rb := s.rb - k * s.rp }

/-- Rule R203's derived sentence: for an odd modulus `x1` and `x2` are never both valid, nor `x3` and
`x4`. -/
def Obligations.OddModulusOpposedRootsNotBothValid : Prop :=
  ∀ s t : State, s.rp ≠ 0 → s.rq ≠ 0 → s.rn % 2 = 1 → exec .rabdec s = .next t →
    ¬(t.roots.getLsbD 0 = true ∧ t.roots.getLsbD 1 = true) ∧
    ¬(t.roots.getLsbD 2 = true ∧ t.roots.getLsbD 3 = true)

/-- Rule R204 with its exception: under a key that satisfies rule R195, RABDEC of what RABENC made
returns the message or raises Ambiguous; it never returns another message and never NoValidRoot. -/
def Obligations.RabinRoundTripOrAmbiguous : Prop :=
  ∀ s : State, s.rp.Prime → s.rq.Prime → s.rp ≠ s.rq → s.rp % 4 = 3 → s.rq % 4 = 3 →
    s.rn = s.rp * s.rq → s.ra * s.rp + s.rb * s.rq = 1 → s.err = .none →
    s.x * 65536 + s.marker.toNat < s.rn →
    ∃ t u, exec .rabenc s = .next t ∧ exec .rabdec { t with x := t.y } = .next u ∧
      ((u.err = .none ∧ u.y = s.x) ∨ (u.err = .ambiguous ∧ u.y = t.y))

/-! ## RSA -/

/-- Rules R211 and R212: DGCLR clears H, DGADD adds its operand modulo 2^32, silently; nothing else
changes. -/
def Obligations.DgclrAndDgaddWriteTheDigest : Prop :=
  encode .dgclr = 0x50000000#32 ∧ (∀ cp < 2 ^ 21, (encode (.dgadd cp)).toNat = 0x51000000 + cp) ∧
  (∀ s : State, exec .dgclr s = .next { s with h := 0#32 }) ∧
  (∀ (s : State) (cp : Nat), ∃ t, exec (.dgadd cp) s = .next t ∧ t = { s with h := t.h } ∧
    t.h.toNat = (s.h.toNat + cp) % 2 ^ 32) ∧
  (∀ s : State, commands [.dgclr, .dgclr] s = exec .dgclr s) ∧
  (∀ s : State, exec (.dgadd 0) s = .next s)

/-- Rule R210: after DGCLR and one DGADD a character the digest is the sum of the code points modulo
2^32, in any order of the characters. -/
def Obligations.DigestIsTheOrderBlindSum : Prop :=
  (∀ (s : State) (text : List Nat), ∃ t,
    commands (.dgclr :: text.map .dgadd) s = .next t ∧ t = { s with h := t.h } ∧
    t.h.toNat = text.sum % 2 ^ 32) ∧
  (∀ (s : State) (text text' : List Nat), text.Perm text' →
    commands (.dgclr :: text.map .dgadd) s = commands (.dgclr :: text'.map .dgadd) s)

/-- Rule R214: RSASIGN writes `(H mod SN)^SD mod SN` to Y and changes nothing else; BadOperand on a
zero modulus. -/
def Obligations.RsasignRaisesTheDigest : Prop :=
  encode .rsasign = 0x52000000#32 ∧
  (∀ s : State, s.sn = 0 → exec .rsasign s = .next { s with err := .badOperand }) ∧
  (∀ s : State, s.sn ≠ 0 →
    exec .rsasign s = .next { s with y := (s.h.toNat % s.sn) ^ s.sd % s.sn } ∧
      (s.h.toNat % s.sn) ^ s.sd % s.sn < s.sn) ∧
  1189 ^ 2753 % 3233 = 3044

/-- Rule R215: RSAVFY writes the verdict `X^SE mod SN = H mod SN` to V and changes nothing else, so
`X + SN` verifies whenever `X` does; BadOperand on a zero modulus. -/
def Obligations.RsavfyComparesTheRecoveredDigest : Prop :=
  encode .rsavfy = 0x53000000#32 ∧
  (∀ s : State, s.sn = 0 → exec .rsavfy s = .next { s with err := .badOperand }) ∧
  (∀ s : State, s.sn ≠ 0 →
    exec .rsavfy s =
      .next { s with flagV := decide (s.x ^ s.se % s.sn = s.h.toNat % s.sn) }) ∧
  (∀ s t t' : State, s.sn ≠ 0 → exec .rsavfy s = .next t →
    exec .rsavfy { s with x := s.x + s.sn } = .next t' → t'.flagV = t.flagV) ∧
  3044 ^ 17 % 3233 = 1189

/-- Rule R216's first half: under a key that satisfies rule R213 every signature verifies. -/
def Obligations.SignedDigestVerifies : Prop :=
  ∀ (s : State) (p q : Nat), p.Prime → q.Prime → p ≠ q → s.sn = p * q →
    s.se * s.sd ≡ 1 [MOD (p - 1) * (q - 1)] →
    ∃ t u, exec .rsasign s = .next t ∧ exec .rsavfy { t with x := t.y } = .next u ∧
      u.flagV = true ∧ u.err = s.err

/-! ## System commands and frames -/

/-- Rules R225 and R226: NOP changes nothing, CLRERR clears ERR and nothing else, whatever ERR holds;
the other words of their opcodes are illegal; KeyNotSet never comes to stand beside a bound key. -/
def Obligations.NopAndClrerr : Prop :=
  encode .nop = 0x00000000#32 ∧ encode .clrerr = 0x01000000#32 ∧
  (∀ s : State, exec .nop s = .next s) ∧
  (∀ s : State, exec .clrerr s = .next { s with err := .none }) ∧
  (∀ s : State, s.err = .none → exec .clrerr s = .next s) ∧
  (∀ (w : CmdWord) (s : State), opcodeOf w = 0x00 ∨ opcodeOf w = 0x01 → w ≠ 0x00000000#32 →
    w ≠ 0x01000000#32 → decode w = .error .reservedBits ∧
      (s.err ≠ .none → issue w s = .next s) ∧
      (s.err = .none → issue w s = .next { s with err := .illegalCommand })) ∧
  (∀ s t : State, s.latchMatch → step s = .next t → t.latchMatch)

/-- Rule R30's "written by" column, over all commands: every command completes, no command writes a
register that only the host writes, and every other register is written by the commands listed for it
alone. -/
def Obligations.CommandsWriteOnlyTheirRegisters : Prop :=
  ∀ (i : Instr) (s : State), ∃ t, exec i s = .next t ∧
    (t.din = s.din ∧ t.k1 = s.k1 ∧ t.k2 = s.k2 ∧ t.iv = s.iv ∧ t.marker = s.marker ∧ t.x = s.x ∧
      t.rp = s.rp ∧ t.rq = s.rq ∧ t.ra = s.ra ∧ t.rb = s.rb ∧ t.rn = s.rn ∧ t.sn = s.sn ∧
      t.se = s.se ∧ t.sd = s.sd ∧ t.params = s.params ∧ t.resets = s.resets ∧ t.host = s.host) ∧
    (t.dout ≠ s.dout → i = .desenc ∨ i = .desdec ∨ i = .cbcenc ∨ i = .cbcdec) ∧
    (t.chain ≠ s.chain → i = .cbcinit ∨ i = .cbcenc ∨ i = .cbcdec ∨ i = .xencm ∨ i = .xdecm) ∧
    (t.mlen ≠ s.mlen ∨ t.msg ≠ s.msg → i = .xencm ∨ i = .xdecm) ∧
    (t.h ≠ s.h → i = .dgclr ∨ ∃ cp, i = .dgadd cp) ∧
    (t.key ≠ s.key ∨ t.rk ≠ s.rk ∨ t.keyv ≠ s.keyv → i = .deskey ∧ t.keyv = true) ∧
    (t.y ≠ s.y → i = .rabenc ∨ i = .rabdec ∨ i = .rsasign) ∧
    (t.flagP ≠ s.flagP ∨ t.oracle ≠ s.oracle → ∃ rounds, i = .mrtest rounds) ∧
    (t.flagV ≠ s.flagV → i = .rsavfy) ∧ (t.roots ≠ s.roots → i = .rabdec)

/-! ## Host procedures -/

/-- Rules R232 and R235: the extended Euclid gives the greatest common divisor with its coefficients,
and `modinv` the inverse where there is one and NoModularInverse where there is none, which the
exponent of rule R234 never meets. -/
def Obligations.ExtendedEuclidAndInverse : Prop :=
  (∀ u v : Nat, (u ≠ 0 ∨ v ≠ 0) →
    (egcd u v).g = Nat.gcd u v ∧ (u : Int) * (egcd u v).x + v * (egcd u v).y = Nat.gcd u v) ∧
  (∀ e phi : Nat, 0 < phi → Nat.gcd e phi = 1 →
    ∃ d < phi, modinv e phi = some d ∧ e * d ≡ 1 [MOD phi]) ∧
  (∀ e phi : Nat, 0 < phi → Nat.gcd e phi ≠ 1 → modinv e phi = none) ∧
  (∀ phi : Nat, 0 < phi → ∃ d, modinv (chooseExponent phi) phi = some d) ∧
  egcd 1000003 1000039 = ⟨1, 194452, -194445⟩ ∧ egcd 17 3120 = ⟨1, -367, 2⟩ ∧
  modinv 17 3120 = some 2753 ∧ modinv 65537 3120 = some 2753

/-- Rule R239's order: when the verification of an envelope fails, the decryption fails the same way
with no RABDEC, DESKEY, XDECM or CBCDEC issued: nothing of what those write has changed. With no error
latched and values that fit their registers it fails, with SignatureInvalid and ERR 0, exactly when
`sig^e mod N` is not the digest of the decimal numeral of the encrypted key modulo `N`. -/
def Obligations.HybridDecryptionFailsClosed : Prop :=
  (∀ (e : Envelope) (rabin : RabinKey) (rsa : RsaKey) (s t : State) (k : HostFailure),
    hybridVerify e rsa s = .failed k t →
    hybridDecrypt e rabin rsa s = .failed k t ∧ NothingDecrypted s t) ∧
  (∀ (e : Envelope) (rabin : RabinKey) (rsa : RsaKey) (s : State), s.err = .none → rsa.n ≠ 0 →
    rsa.n < 2 ^ s.params.nbits → rsa.e < 2 ^ s.params.nbits → e.signature < 2 ^ s.params.nbits →
    (e.signature ^ rsa.e % rsa.n ≠
        ((decimal e.encryptedKey).map Char.toNat).sum % 2 ^ 32 % rsa.n →
      ∃ t, hybridDecrypt e rabin rsa s = .failed .signatureInvalid t ∧ t.err = .none ∧
        t.flagV = false ∧ NothingDecrypted s t) ∧
    (e.signature ^ rsa.e % rsa.n =
        ((decimal e.encryptedKey).map Char.toNat).sum % 2 ^ 32 % rsa.n →
      ∃ t, hybridVerify e rsa s = .done () t ∧ t.err = .none ∧ t.flagV = true ∧
        NothingDecrypted s t)) ∧
  decimal 1203 = ['1', '2', '0', '3'] ∧
  ((decimal 111903556570146014433428805).map Char.toNat).sum = 1392
end

