-- ==== Sys2Proof/Laws/BigInt.lean ====
section
/-! SUPPORT. The big-integer operations are the mathematical ones (rules R17 to R19). -/

namespace Sys2Proof.Machine

/-- Square-and-multiply with enough fuel computes the power. -/
theorem modexpSteps_eq (fuel b e n : Nat) (h : e < 2 ^ fuel) :
    modexpSteps fuel b e n = b ^ e % n := by
  induction fuel generalizing b e with
  | zero =>
    have : e = 0 := by simpa using h
    subst this; simp [modexpSteps]
  | succ fuel ih =>
    unfold modexpSteps
    have hlt : e / 2 < 2 ^ fuel := by rw [pow_succ] at h; omega
    have hp : (b * b % n) ^ (e / 2) % n = b ^ (2 * (e / 2)) % n := by
      rw [← Nat.pow_mod, pow_mul, pow_two]
    split
    · subst_vars; simp
    · split
      · rename_i hodd
        have he : e = 2 * (e / 2) + 1 := by omega
        rw [ih _ _ hlt, hp, ← Nat.mul_mod_mod, Nat.mod_mod, Nat.mul_mod_mod]
        conv_rhs => rw [he, pow_succ, mul_comm]
      · have he : e = 2 * (e / 2) := by omega
        rw [ih _ _ hlt, hp]
        conv_rhs => rw [he]

/-- `modexp(b, e, n) = (b^e) mod n` (rule R18). -/
theorem modexp_eq (b e n : Nat) : modexp b e n = b ^ e % n := by
  rw [modexp, modexpSteps_eq _ _ _ _ Nat.lt_log2_self, ← Nat.pow_mod]

theorem modexp_lt (b e n : Nat) (h : 0 < n) : modexp b e n < n := by
  rw [modexp_eq]; exact Nat.mod_lt _ h

/-- `x mod n` is the residue: in `[0, n)`, and `n` divides the difference (rule R17). -/
theorem residue_spec (x : Int) (n : Nat) (h : 0 < n) :
    residue x n < n ∧ (n : Int) ∣ x - residue x n := by
  have hn : (n : Int) ≠ 0 := by omega
  have h0 := Int.emod_nonneg x hn
  have h1 := Int.emod_lt_of_pos x (show (0 : Int) < n by omega)
  have hc : ((residue x n : Nat) : Int) = x % n := Int.toNat_of_nonneg h0
  refine ⟨by omega, ?_⟩
  rw [hc]
  exact Int.dvd_self_sub_emod

theorem residue_cast (x : Int) (n : Nat) (h : 0 < n) : ((residue x n : Nat) : Int) = x % n :=
  Int.toNat_of_nonneg (Int.emod_nonneg x (by omega))

/-- The four candidates lie in the ranges rule R200 gives, so a stripped one fits `Y` (rule R203). -/
theorem recombine_le (a b : Int) (p q n r s : Nat) (h : 0 < n) :
    (recombine a b p q n r s).x1 < n ∧ (recombine a b p q n r s).x2 ≤ n ∧
      (recombine a b p q n r s).x3 < n ∧ (recombine a b p q n r s).x4 ≤ n :=
  ⟨(residue_spec _ n h).1, Nat.sub_le _ _, (residue_spec _ n h).1, Nat.sub_le _ _⟩

/-- The stripped root is one of the candidates shifted right 16 bits. -/
theorem strippedRoot_cases (marker : BitVec 16) (c : Roots) :
    strippedRoot marker c = c.x1 / 2 ^ 16 ∨ strippedRoot marker c = c.x2 / 2 ^ 16 ∨
      strippedRoot marker c = c.x3 / 2 ^ 16 ∨ strippedRoot marker c = c.x4 / 2 ^ 16 := by
  unfold strippedRoot
  split
  · exact .inl rfl
  · split
    · exact .inr (.inl rfl)
    · split
      · exact .inr (.inr (.inl rfl))
      · exact .inr (.inr (.inr rfl))

/-- The label is the low 16 bits and the message the rest (rule R197). -/
theorem low16_labeled (message : Nat) (marker : BitVec 16) :
    low16 (labeled message marker) = marker.toNat := by
  have := marker.isLt
  unfold low16 labeled; omega

theorem labeled_shift (message : Nat) (marker : BitVec 16) :
    labeled message marker / 2 ^ 16 = message := by
  have := marker.isLt
  unfold labeled; omega

end Sys2Proof.Machine
end

