-- ==== Sys2Proof/Laws/Decode.lean ====
section
/-! SUPPORT. What the decoder can answer, said once (rule R101). -/

namespace Sys2Proof

/-- The cases of `decode`: MRTEST, DGADD, a format-N command, or no command. -/
theorem decode_cases (w : CmdWord) :
    (opcodeOf w = 0x30 ∧ w.extractLsb' 16 8 = 0#8 ∧
      decode w = .ok (.mrtest (w.extractLsb' 0 16).toNat)) ∨
    (opcodeOf w = 0x51 ∧ w.extractLsb' 21 3 = 0#3 ∧
      decode w = .ok (.dgadd (w.extractLsb' 0 21).toNat)) ∨
    (∃ i, formatN (opcodeOf w) = some i ∧ w.extractLsb' 0 24 = 0#24 ∧ decode w = .ok i) ∨
    (∃ r, decode w = .error r) := by
  unfold decode
  split
  · split
    · exact .inl ⟨‹_›, ‹_›, rfl⟩
    · exact .inr (.inr (.inr ⟨_, rfl⟩))
  · split
    · split
      · exact .inr (.inl ⟨‹_›, ‹_›, rfl⟩)
      · exact .inr (.inr (.inr ⟨_, rfl⟩))
    · split
      · split
        · exact .inr (.inr (.inl ⟨_, ‹_›, ‹_›, rfl⟩))
        · exact .inr (.inr (.inr ⟨_, rfl⟩))
      · exact .inr (.inr (.inr ⟨_, rfl⟩))

/-- The opcodes of the commands of format N. -/
theorem formatN_eq_some (opc : Nat) (i : Instr) (h : formatN opc = some i) :
    opcodeFor i = opc ∧ operandBits i = 0#24 ∧ i.wf = true := by
  unfold formatN at h
  split at h <;> first | (cases h; exact ⟨rfl, rfl, rfl⟩) | cases h

/-- The value of an opcode put in front of an operand field. -/
theorem toNat_opcode_append (opc : BitVec 8) (operand : BitVec 24) :
    (opc ++ operand : BitVec 32).toNat = opc.toNat * 2 ^ 24 + operand.toNat := by
  have h := BitVec.toNat_append opc operand
  rw [← Nat.shiftLeft_add_eq_or_of_lt operand.isLt, Nat.shiftLeft_eq] at h
  exact h

theorem opcodeOf_append (opc : BitVec 8) (operand : BitVec 24) :
    opcodeOf (opc ++ operand : BitVec 32) = opc.toNat := by
  have := operand.isLt
  have := opc.isLt
  rw [opcodeOf, BitVec.extractLsb'_toNat, toNat_opcode_append, Nat.shiftRight_eq_div_pow]
  omega

theorem operand_append (opc : BitVec 8) (operand : BitVec 24) :
    (opc ++ operand : BitVec 32).extractLsb' 0 24 = operand := by
  have := operand.isLt
  apply BitVec.eq_of_toNat_eq
  rw [BitVec.extractLsb'_toNat, toNat_opcode_append, Nat.shiftRight_zero]
  omega

end Sys2Proof
end

