-- ==== Sys2Proof/Laws/DesNetwork.lean ====
section
/-! SUPPORT. The bits of a permuted value, and the lengths and orders of the round-key list. -/

namespace Sys2Proof.Machine

theorem bitAt_lt {w : Nat} (v : BitVec w) (i : Nat) : bitAt v i < 2 := by
  unfold bitAt; omega

/-- `bit(v, w, i)` is the bit counted from the most significant end (rules R12 and R13). -/
theorem bitAt_eq_getLsbD {w : Nat} (v : BitVec w) (i : Nat) :
    bitAt v i = (v.getLsbD (w - i)).toNat := by
  unfold bitAt
  rw [← Nat.and_one_is_mod, BitVec.getLsbD, Nat.testBit, Nat.and_comm]
  have : 1 &&& v.toNat >>> (w - i) < 2 := by rw [Nat.and_comm, Nat.and_one_is_mod]; omega
  interval_cases h : (1 &&& v.toNat >>> (w - i)) <;> rfl

/-- The fold of `permute` puts entry `j` of the table at bit `length - 1 - j`. -/
theorem permute_fold_testBit {w : Nat} (v : BitVec w) (table : List Nat) (acc b : Nat) :
    (table.foldl (fun acc i => 2 * acc + bitAt v i) acc).testBit b =
      if b < table.length then v.getLsbD (w - table.getD (table.length - 1 - b) 0)
      else acc.testBit (b - table.length) := by
  induction table using List.reverseRecOn generalizing b with
  | nil => simp
  | append_singleton init i ih =>
    rw [List.foldl_append, List.foldl_cons, List.foldl_nil]
    have hb := bitAt_lt v i
    cases b with
    | zero =>
      rw [if_pos (by simp)]
      have hm : bitAt v i = (v.getLsbD (w - i)).toNat := bitAt_eq_getLsbD v i
      simp only [Nat.testBit_zero, List.length_append, List.length_singleton]
      rw [show init.length + 1 - 1 - 0 = init.length by omega]
      rw [List.getD_append_right _ _ _ _ (le_refl _), Nat.sub_self, List.getD_cons_zero, hm]
      cases v.getLsbD (w - i) <;> simp
    | succ b =>
      rw [Nat.testBit_succ, Nat.mul_add_div (by omega), Nat.div_eq_of_lt hb, Nat.add_zero, ih]
      simp only [List.length_append, List.length_singleton, Nat.add_lt_add_iff_right]
      split
      · rw [show init.length + 1 - 1 - (b + 1) = init.length - 1 - b by omega,
          List.getD_append _ _ _ _ (by omega)]
      · rw [show b + 1 - (init.length + 1) = b - init.length by omega]

/-- Bit `b` of a permuted value, counted from the least significant end, is the input bit at the
position in table entry `m - b` (rule R111). -/
theorem permute_getLsbD {w : Nat} (m : Nat) (table : List Nat) (v : BitVec w)
    (hm : table.length = m) (b : Nat) (hb : b < m) :
    (permute m table v).getLsbD b = v.getLsbD (w - table.getD (m - 1 - b) 0) := by
  subst hm
  rw [permute, BitVec.getLsbD, BitVec.toNat_ofNat, Nat.testBit_mod_two_pow, permute_fold_testBit,
    if_pos hb]
  simp [hb]

/-- One permutation after another reads the input at the table's table. -/
theorem permute_permute {w : Nat} (m n : Nat) (t1 t2 : List Nat) (v : BitVec w)
    (h1 : t1.length = m) (h2 : t2.length = n) (hr : ∀ i ∈ t2, 1 ≤ i ∧ i ≤ m) :
    permute n t2 (permute m t1 v) = permute n (t2.map fun i => t1.getD (i - 1) 0) v := by
  apply BitVec.eq_of_getLsbD_eq
  intro b hb
  rw [permute_getLsbD n t2 _ h2 b hb, permute_getLsbD n _ _ (by simpa using h2) b hb]
  have hk : n - 1 - b < t2.length := by omega
  have hi := hr _ (List.getElem_mem hk)
  have hg : t2.getD (n - 1 - b) 0 = t2[n - 1 - b] := by simp [hk]
  rw [hg, permute_getLsbD m t1 v h1 _ (by omega)]
  have hmap : (t2.map fun i => t1.getD (i - 1) 0).getD (n - 1 - b) 0 =
      t1.getD (t2[n - 1 - b] - 1) 0 := by
    simp [hk]
  rw [hmap, show m - 1 - (m - t2[n - 1 - b]) = t2[n - 1 - b] - 1 by omega]

@[simp] theorem keySchedule_toList (k : Block) :
    (keySchedule k).toList = roundKeysFrom shiftSchedule (c0 k) (d0 k) := rfl

theorem roundOrder_encrypt (rk : Vector RoundKey 16) : roundOrder rk .encrypt = rk.toList := rfl

theorem roundOrder_decrypt (rk : Vector RoundKey 16) :
    roundOrder rk .decrypt = rk.toList.reverse := rfl

/-- `k_i = RK[17 - i]` when decrypting (rule R153). -/
theorem roundOrder_decrypt_getElem (rk : Vector RoundKey 16) (i : Nat) (h : i < 16) :
    (roundOrder rk .decrypt)[i]? = rk.toList[15 - i]? := by
  rw [roundOrder_decrypt, List.getElem?_reverse (by simpa using h)]
  simp

/-- A round undone by the same round key, the halves exchanged before and after (rule R157). -/
theorem feistelRound_swap (lr : Half × Half) (k : RoundKey) :
    (feistelRound (feistelRound lr k).swap k).swap = lr := by
  rcases lr with ⟨l, r⟩
  simp [feistelRound]

end Sys2Proof.Machine
end

