-- ==== Sys2Proof/Laws/Memory.lean ====
section
/-! SUPPORT. What the message-buffer operations do: read after write, the canonical form, blocks. -/

namespace Sys2Proof.Machine

@[simp] theorem Memory.read_nil (a : Nat) : Memory.read [] a = Config.unlistedByte := rfl

theorem Memory.read_cons (cell : Host.Cell) (m : Memory) (a : Nat) :
    Memory.read (cell :: m) a = if cell.1 = a then cell.2 else m.read a := rfl

theorem cellFor_cases (a : Nat) (b : Byte) :
    (b = Config.unlistedByte ∧ cellFor a b = []) ∨
      (b ≠ Config.unlistedByte ∧ cellFor a b = [(a, b)]) := by
  unfold cellFor
  split
  · exact .inl ⟨‹_›, rfl⟩
  · exact .inr ⟨‹_›, rfl⟩

/-- The canonical form, unfolded once. -/
theorem Memory.wf_cons (cell : Host.Cell) (m : Memory) :
    Memory.wf (cell :: m) = true ↔
      (∀ other ∈ m, cell.1 < other.1) ∧ cell.2 ≠ Config.unlistedByte ∧ m.wf = true := by
  simp [Memory.wf, and_assoc]

/-- An address below every listed one is unlisted. -/
theorem Memory.read_of_lt (m : Memory) (a : Nat) (h : ∀ other ∈ m, a < other.1) :
    m.read a = Config.unlistedByte := by
  induction m with
  | nil => rfl
  | cons cell rest ih =>
    have hc := h cell (by simp)
    rw [Memory.read_cons, if_neg (by omega)]
    exact ih fun o ho => h o (by simp [ho])

/-- What a write leaves listed: the written cell or an old one. -/
theorem Memory.mem_write (m : Memory) (a : Nat) (b : Byte) (o : Host.Cell)
    (h : o ∈ m.write a b) : o = (a, b) ∨ o ∈ m := by
  induction m with
  | nil =>
    rcases cellFor_cases a b with ⟨_, e⟩ | ⟨_, e⟩ <;> simp_all [Memory.write]
  | cons cell rest ih =>
    unfold Memory.write at h
    rcases cellFor_cases a b with ⟨_, e⟩ | ⟨_, e⟩ <;> rw [e] at h <;> split at h <;>
      (try split at h) <;> simp at h ⊢ <;> tauto

/-- A write keeps the canonical form. -/
theorem Memory.wf_write (m : Memory) (a : Nat) (b : Byte) (h : m.wf = true) :
    (m.write a b).wf = true := by
  induction m with
  | nil =>
    rw [Memory.write]
    rcases cellFor_cases a b with ⟨hb, e⟩ | ⟨hb, e⟩ <;> rw [e] <;> simp [Memory.wf]
    exact hb
  | cons cell rest ih =>
    obtain ⟨hlt, hne, hrest⟩ := (Memory.wf_cons _ _).1 h
    unfold Memory.write
    split
    · rename_i hac
      rcases cellFor_cases a b with ⟨_, e⟩ | ⟨hb, e⟩ <;> rw [e]
      · exact h
      · refine (Memory.wf_cons _ _).2 ⟨fun o ho => ?_, hb, h⟩
        rcases List.mem_cons.1 ho with rfl | ho
        · exact hac
        · exact lt_trans hac (hlt o ho)
    · split
      · rename_i hac
        rcases cellFor_cases a b with ⟨_, e⟩ | ⟨hb, e⟩ <;> rw [e]
        · exact hrest
        · exact (Memory.wf_cons _ _).2 ⟨fun o ho => by simpa [hac] using hlt o ho, hb, hrest⟩
      · refine (Memory.wf_cons _ _).2 ⟨fun o ho => ?_, hne, ih hrest⟩
        rcases Memory.mem_write rest a b o ho with rfl | ho
        · simp only; omega
        · exact hlt o ho

/-- Read after write: the written byte there, the old byte everywhere else. -/
theorem Memory.read_write (m : Memory) (h : m.wf = true) (a : Nat) (b : Byte) (a' : Nat) :
    (m.write a b).read a' = if a' = a then b else m.read a' := by
  induction m with
  | nil =>
    rw [Memory.write]
    rcases cellFor_cases a b with ⟨hb, e⟩ | ⟨hb, e⟩ <;> rw [e]
    · simp [hb]
    · simp [Memory.read_cons, eq_comm]
  | cons cell rest ih =>
    obtain ⟨hlt, hne, hrest⟩ := (Memory.wf_cons _ _).1 h
    unfold Memory.write
    split
    · rename_i hac
      rcases cellFor_cases a b with ⟨hb, e⟩ | ⟨hb, e⟩ <;> rw [e]
      · split
        · rename_i ha; subst ha
          rw [List.nil_append, hb]
          refine Memory.read_of_lt _ _ fun o ho => ?_
          rcases List.mem_cons.1 ho with rfl | ho
          · exact hac
          · exact lt_trans hac (hlt o ho)
        · rfl
      · simp [Memory.read_cons, eq_comm]
    · split
      · rename_i hac; subst hac
        rcases cellFor_cases cell.1 b with ⟨hb, e⟩ | ⟨hb, e⟩ <;> rw [e]
        · split
          · rename_i ha; subst ha
            rw [List.nil_append, hb]
            exact Memory.read_of_lt _ _ hlt
          · rw [List.nil_append, Memory.read_cons, if_neg (by omega)]
        · simp only [List.singleton_append, Memory.read_cons, eq_comm (a := a')]
          split <;> rfl
      · rw [Memory.read_cons, ih hrest, Memory.read_cons]
        split <;> split <;> first | rfl | omega

@[simp] theorem Memory.below_nil (limit : Nat) : Memory.below limit [] = true := rfl

theorem Memory.below_iff (limit : Nat) (m : Memory) :
    m.below limit = true ↔ ∀ o ∈ m, o.1 < limit := by
  simp [Memory.below]

/-- A write below the limit keeps every listed address below it. -/
theorem Memory.below_write (limit : Nat) (m : Memory) (a : Nat) (b : Byte) (ha : a < limit)
    (h : m.below limit = true) : (m.write a b).below limit = true := by
  rw [Memory.below_iff] at *
  intro o ho
  rcases Memory.mem_write m a b o ho with rfl | ho
  · exact ha
  · exact h o ho

/-- Two buffers in canonical form that read alike are the same data. -/
theorem Memory.ext_of_read (m m' : Memory) (h : m.wf = true) (h' : m'.wf = true)
    (hr : ∀ a, m.read a = m'.read a) : m = m' := by
  induction m generalizing m' with
  | nil =>
    cases m' with
    | nil => rfl
    | cons c r =>
      have := hr c.1
      simp [Memory.read_cons] at this
      exact absurd this.symm ((Memory.wf_cons _ _).1 h').2.1
  | cons c r ih =>
    obtain ⟨hlt, hne, hwf⟩ := (Memory.wf_cons _ _).1 h
    cases m' with
    | nil =>
      have := hr c.1
      simp [Memory.read_cons] at this
      exact absurd this hne
    | cons c' r' =>
      obtain ⟨hlt', hne', hwf'⟩ := (Memory.wf_cons _ _).1 h'
      have hcc : c.1 = c'.1 := by
        rcases lt_trichotomy c.1 c'.1 with hl | he | hl
        · have := hr c.1
          rw [Memory.read_cons, if_pos rfl, Memory.read_of_lt] at this
          · exact absurd this hne
          · intro o ho
            rcases List.mem_cons.1 ho with rfl | ho
            · exact hl
            · exact lt_trans hl (hlt' o ho)
        · exact he
        · have := hr c'.1
          rw [Memory.read_of_lt, Memory.read_cons, if_pos rfl] at this
          · exact absurd this.symm hne'
          · intro o ho
            rcases List.mem_cons.1 ho with rfl | ho
            · exact hl
            · exact lt_trans hl (hlt o ho)
      have hb : c.2 = c'.2 := by
        have := hr c.1
        rwa [Memory.read_cons, if_pos rfl, Memory.read_cons, if_pos hcc.symm] at this
      have : c = c' := Prod.ext hcc hb
      subst this
      congr 1
      refine ih r' hwf hwf' fun a => ?_
      by_cases ha : c.1 = a
      · subst ha
        rw [Memory.read_of_lt _ _ hlt, Memory.read_of_lt _ _ hlt']
      · have := hr a
        rwa [Memory.read_cons, if_neg ha, Memory.read_cons, if_neg ha] at this

/-- `fill` gives a buffer in canonical form, below its length. -/
theorem Memory.fill_spec (f : Nat → Byte) (n : Nat) :
    (Memory.fill f n).wf = true ∧ (Memory.fill f n).below n = true ∧
      ∀ a < n, (Memory.fill f n).read a = f a := by
  induction n with
  | zero => exact ⟨rfl, rfl, fun a h => absurd h (by omega)⟩
  | succ n ih =>
    obtain ⟨hw, hb, hr⟩ := ih
    refine ⟨Memory.wf_write _ _ _ hw, Memory.below_write _ _ _ _ (by omega) ?_, fun a ha => ?_⟩
    · rw [Memory.below_iff] at *
      exact fun o ho => lt_trans (hb o ho) (by omega)
    · rw [Memory.fill, Memory.read_write _ hw]
      split
      · rename_i h; rw [h]
      · exact hr a (by omega)

/-- `zeroBytes` keeps the canonical form, writes 0 to its range and leaves every other byte alone. -/
theorem zeroBytes_spec (m : Memory) (a n : Nat) (h : m.wf = true) :
    (zeroBytes m a n).wf = true ∧
      ∀ a', (zeroBytes m a n).read a' = if a ≤ a' ∧ a' < a + n then 0#8 else m.read a' := by
  induction n generalizing m a with
  | zero =>
    refine ⟨h, fun a' => ?_⟩
    rw [if_neg (by omega)]; rfl
  | succ n ih =>
    obtain ⟨hw, hr⟩ := ih (m.write a 0#8) (a + 1) (Memory.wf_write _ _ _ h)
    refine ⟨hw, fun a' => ?_⟩
    rw [zeroBytes, hr, Memory.read_write _ h]
    split <;> split <;> (try split) <;> first | rfl | omega

theorem zeroBytes_below (limit : Nat) (m : Memory) (a n : Nat) (hn : a + n ≤ limit)
    (h : m.below limit = true) : (zeroBytes m a n).below limit = true := by
  induction n generalizing m a with
  | zero => exact h
  | succ n ih =>
    exact ih (m.write a 0#8) (a + 1) (by omega) (Memory.below_write _ _ _ _ (by omega) h)

/-- `writeBlock` keeps the canonical form, writes byte `k` of the block at `a + k` and leaves every
byte outside `a .. a + 7` alone. -/
theorem writeBlock_spec (m : Memory) (a : Nat) (v : Block) (h : m.wf = true) :
    (writeBlock m a v).wf = true ∧
      ∀ a', (writeBlock m a v).read a' =
        if a ≤ a' ∧ a' < a + 8 then blockByte v (a' - a) else m.read a' := by
  unfold writeBlock
  have w0 := Memory.wf_write m a (blockByte v 0) h
  have w1 := Memory.wf_write _ (a + 1) (blockByte v 1) w0
  have w2 := Memory.wf_write _ (a + 2) (blockByte v 2) w1
  have w3 := Memory.wf_write _ (a + 3) (blockByte v 3) w2
  have w4 := Memory.wf_write _ (a + 4) (blockByte v 4) w3
  have w5 := Memory.wf_write _ (a + 5) (blockByte v 5) w4
  have w6 := Memory.wf_write _ (a + 6) (blockByte v 6) w5
  have w7 := Memory.wf_write _ (a + 7) (blockByte v 7) w6
  refine ⟨w7, fun a' => ?_⟩
  simp only [Memory.read_write _ w6, Memory.read_write _ w5, Memory.read_write _ w4,
    Memory.read_write _ w3, Memory.read_write _ w2, Memory.read_write _ w1, Memory.read_write _ w0,
    Memory.read_write _ h]
  by_cases hin : a ≤ a' ∧ a' < a + 8
  · obtain ⟨k, rfl⟩ := Nat.exists_eq_add_of_le hin.1
    have hk : k < 8 := by omega
    rw [if_pos hin, Nat.add_sub_cancel_left]
    interval_cases k <;> simp
  · rw [if_neg hin]
    repeat rw [if_neg (by omega)]

theorem writeBlock_below (limit : Nat) (m : Memory) (a : Nat) (v : Block) (ha : a + 8 ≤ limit)
    (h : m.below limit = true) : (writeBlock m a v).below limit = true := by
  unfold writeBlock
  repeat' first | exact h | refine Memory.below_write _ _ _ _ (by omega) ?_

/-- `readBlock` depends on its eight bytes alone. -/
theorem readBlock_congr (m m' : Memory) (a : Nat) (h : ∀ k < 8, m.read (a + k) = m'.read (a + k)) :
    readBlock m a = readBlock m' a := by
  have h0 := h 0 (by omega)
  have h1 := h 1 (by omega)
  have h2 := h 2 (by omega)
  have h3 := h 3 (by omega)
  have h4 := h 4 (by omega)
  have h5 := h 5 (by omega)
  have h6 := h 6 (by omega)
  have h7 := h 7 (by omega)
  simp only [readBlock, readBytes, Nat.add_assoc, Nat.reduceAdd, Nat.add_zero] at *
  rw [h0, h1, h2, h3, h4, h5, h6, h7]

/-- The bytes of a block, put together again, are the block (rule R72). -/
theorem readBlock_of_bytes (m : Memory) (a : Nat) (v : Block)
    (h : ∀ k < 8, m.read (a + k) = blockByte v k) : readBlock m a = v := by
  have h0 := h 0 (by omega)
  have h1 := h 1 (by omega)
  have h2 := h 2 (by omega)
  have h3 := h 3 (by omega)
  have h4 := h 4 (by omega)
  have h5 := h 5 (by omega)
  have h6 := h 6 (by omega)
  have h7 := h 7 (by omega)
  simp only [readBlock, readBytes, Nat.add_assoc, Nat.reduceAdd, Nat.add_zero] at *
  rw [h0, h1, h2, h3, h4, h5, h6, h7]
  apply BitVec.eq_of_toNat_eq
  have hv := v.isLt
  simp only [blockByte, BitVec.extractLsb'_toNat, BitVec.toNat_ofNat, Nat.shiftRight_eq_div_pow]
  norm_num
  omega

/-- A block reads back as it was written. -/
theorem readBlock_writeBlock (m : Memory) (a : Nat) (v : Block) (h : m.wf = true) :
    readBlock (writeBlock m a v) a = v := by
  refine readBlock_of_bytes _ _ _ fun k hk => ?_
  rw [(writeBlock_spec m a v h).2, if_pos (by omega), Nat.add_sub_cancel_left]

/-- A block write leaves the blocks at other places alone. -/
theorem readBlock_writeBlock_ne (m : Memory) (a a' : Nat) (v : Block) (h : m.wf = true)
    (hd : a + 8 ≤ a' ∨ a' + 8 ≤ a) : readBlock (writeBlock m a v) a' = readBlock m a' := by
  refine readBlock_congr _ _ _ fun k hk => ?_
  rw [(writeBlock_spec m a v h).2, if_neg (by omega)]

/-- Byte `k` of the block at `a` is the buffer's byte `a + k` (rule R72). -/
theorem blockByte_readBlock (m : Memory) (a k : Nat) (hk : k < 8) :
    blockByte (readBlock m a) k = m.read (a + k) := by
  have b := fun j => (m.read (a + j)).isLt
  have b0 := b 0; have b1 := b 1; have b2 := b 2; have b3 := b 3
  have b4 := b 4; have b5 := b 5; have b6 := b 6; have b7 := b 7
  apply BitVec.eq_of_toNat_eq
  simp only [readBlock, readBytes, blockByte, BitVec.extractLsb'_toNat, BitVec.toNat_ofNat,
    Nat.shiftRight_eq_div_pow, Nat.add_assoc, Nat.reduceAdd, Nat.add_zero] at *
  interval_cases k <;> norm_num <;> omega

/-- `stripLen` is the largest `k <= L` with `k = 0` or a non-zero byte before it (rule R173). -/
theorem stripLen_spec (m : Memory) (len : Nat) :
    stripLen m len ≤ len ∧ (stripLen m len = 0 ∨ m.read (stripLen m len - 1) ≠ 0#8) ∧
      ∀ j, stripLen m len ≤ j → j < len → m.read j = 0#8 := by
  induction len with
  | zero => exact ⟨le_refl _, .inl rfl, fun j _ h => absurd h (by omega)⟩
  | succ k ih =>
    obtain ⟨h1, h2, h3⟩ := ih
    unfold stripLen
    split
    · rename_i hz
      refine ⟨by omega, h2, fun j hj hk => ?_⟩
      by_cases he : j = k
      · rw [he]; exact hz
      · exact h3 j hj (by omega)
    · rename_i hz
      exact ⟨le_refl _, .inr (by simpa using hz), fun j hj hk => absurd hk (by omega)⟩

end Sys2Proof.Machine
end

