-- ==== Sys2Proof/Laws/Desx.lean ====
section
/-! SUPPORT. What the block loops of XENCM and XDECM do, said once (rules R171 and R172). -/

namespace Sys2Proof.Machine

/-- Padding writes zeros from the message's end to the end of its last block, and nothing else. -/
theorem padMessage_spec (m : Memory) (len : Nat) (h : m.wf = true) :
    (padMessage m len).wf = true ∧
      ∀ a, (padMessage m len).read a =
        if len ≤ a ∧ a < 8 * blockCount len then 0#8 else m.read a := by
  obtain ⟨hw, hr⟩ := zeroBytes_spec m len (8 * blockCount len - len) h
  refine ⟨hw, fun a => ?_⟩
  have : len ≤ 8 * blockCount len := by unfold blockCount; omega
  rw [padMessage, hr, show len + (8 * blockCount len - len) = 8 * blockCount len by omega]

/-- The padded length stays inside a buffer that the message fits (rule R84). -/
theorem blockCount_le (len limit : Nat) (hl : len ≤ limit) (h8 : limit % 8 = 0) :
    8 * blockCount len ≤ limit := by
  unfold blockCount; omega

theorem padMessage_below (limit : Nat) (m : Memory) (len : Nat) (hl : len ≤ limit)
    (h8 : limit % 8 = 0) (h : m.below limit = true) : (padMessage m len).below limit = true := by
  have := blockCount_le len limit hl h8
  have : len ≤ 8 * blockCount len := by unfold blockCount; omega
  exact zeroBytes_below _ _ _ _ (by omega) h

/-- The encrypting loop: canonical form kept, nothing outside its blocks written, each block the
encryption of the block that stood there, chained from the block before it. -/
theorem encryptBlocks_spec (s : State) (n i : Nat) (m : Memory) (chain : Block) (h : m.wf = true) :
    (encryptBlocks s n i m chain).1.wf = true ∧
    (∀ a, a < 8 * i ∨ 8 * (i + n) ≤ a → (encryptBlocks s n i m chain).1.read a = m.read a) ∧
    (∀ j, i ≤ j → j < i + n →
      readBlock (encryptBlocks s n i m chain).1 (8 * j) =
        desxEncrypt s
          (if j = i then chain else readBlock (encryptBlocks s n i m chain).1 (8 * (j - 1)))
          (readBlock m (8 * j))) ∧
    (encryptBlocks s n i m chain).2 =
      (if n = 0 then chain else readBlock (encryptBlocks s n i m chain).1 (8 * (i + n - 1))) := by
  induction n generalizing i m chain with
  | zero => exact ⟨h, fun _ _ => rfl, fun j h1 h2 => absurd h2 (by omega), rfl⟩
  | succ n ih =>
    have hw := (writeBlock_spec m (8 * i) (desxEncrypt s chain (readBlock m (8 * i))) h).1
    obtain ⟨h1, h2, h3, h4⟩ := ih (i + 1)
      (writeBlock m (8 * i) (desxEncrypt s chain (readBlock m (8 * i))))
      (desxEncrypt s chain (readBlock m (8 * i))) hw
    have hfirst : readBlock (encryptBlocks s (n + 1) i m chain).1 (8 * i) =
        desxEncrypt s chain (readBlock m (8 * i)) := by
      rw [encryptBlocks, readBlock_congr _ _ _ fun k hk => h2 (8 * i + k) (by omega),
        readBlock_writeBlock _ _ _ h]
    refine ⟨h1, fun a ha => ?_, fun j hij hj => ?_, ?_⟩
    · rw [encryptBlocks, h2 a (by omega), (writeBlock_spec m (8 * i) _ h).2, if_neg (by omega)]
    · by_cases hji : j = i
      · subst hji; rw [if_pos rfl, hfirst]
      · rw [if_neg hji]
        have := h3 j (by omega) (by omega)
        rw [readBlock_writeBlock_ne _ _ _ _ h (by omega)] at this
        rw [encryptBlocks, this]
        by_cases hj1 : j = i + 1
        · subst hj1
          rw [if_pos rfl, Nat.add_sub_cancel]
          rw [encryptBlocks] at hfirst
          rw [hfirst]
        · rw [if_neg hj1]
    · rw [if_neg (by omega)]
      by_cases hn : n = 0
      · subst hn
        rw [show i + (0 + 1) - 1 = i by omega, hfirst]; rfl
      · rw [if_neg hn] at h4
        rw [encryptBlocks, h4, show i + 1 + n - 1 = i + (n + 1) - 1 by omega]

theorem encryptBlocks_below (limit : Nat) (s : State) (n i : Nat) (m : Memory) (chain : Block)
    (hl : 8 * (i + n) ≤ limit) (h : m.below limit = true) :
    (encryptBlocks s n i m chain).1.below limit = true := by
  induction n generalizing i m chain with
  | zero => exact h
  | succ n ih => exact ih (i + 1) _ _ (by omega) (writeBlock_below _ _ _ _ (by omega) h)

/-- The decrypting loop: canonical form kept, nothing outside its blocks written, each block the
decryption of the block that stood there, chained from the ciphertext block before it. -/
theorem decryptBlocks_spec (s : State) (n i : Nat) (m : Memory) (chain : Block) (h : m.wf = true) :
    (decryptBlocks s n i m chain).1.wf = true ∧
    (∀ a, a < 8 * i ∨ 8 * (i + n) ≤ a → (decryptBlocks s n i m chain).1.read a = m.read a) ∧
    (∀ j, i ≤ j → j < i + n →
      readBlock (decryptBlocks s n i m chain).1 (8 * j) =
        desxDecrypt s (if j = i then chain else readBlock m (8 * (j - 1)))
          (readBlock m (8 * j))) ∧
    (decryptBlocks s n i m chain).2 =
      (if n = 0 then chain else readBlock m (8 * (i + n - 1))) := by
  induction n generalizing i m chain with
  | zero => exact ⟨h, fun _ _ => rfl, fun j h1 h2 => absurd h2 (by omega), rfl⟩
  | succ n ih =>
    have hw := (writeBlock_spec m (8 * i) (desxDecrypt s chain (readBlock m (8 * i))) h).1
    obtain ⟨h1, h2, h3, h4⟩ := ih (i + 1)
      (writeBlock m (8 * i) (desxDecrypt s chain (readBlock m (8 * i)))) (readBlock m (8 * i)) hw
    refine ⟨h1, fun a ha => ?_, fun j hij hj => ?_, ?_⟩
    · rw [decryptBlocks, h2 a (by omega), (writeBlock_spec m (8 * i) _ h).2, if_neg (by omega)]
    · by_cases hji : j = i
      · subst hji
        rw [if_pos rfl, decryptBlocks,
          readBlock_congr _ _ _ fun k hk => h2 (8 * j + k) (by omega), readBlock_writeBlock _ _ _ h]
      · rw [if_neg hji, decryptBlocks, h3 j (by omega) (by omega),
          readBlock_writeBlock_ne m (8 * i) (8 * j) _ h (by omega)]
        by_cases hj1 : j = i + 1
        · subst hj1; rw [if_pos rfl, Nat.add_sub_cancel]
        · rw [if_neg hj1, readBlock_writeBlock_ne m (8 * i) (8 * (j - 1)) _ h (by omega)]
    · rw [if_neg (by omega), decryptBlocks, h4]
      by_cases hn : n = 0
      · subst hn; rw [if_pos rfl, show i + (0 + 1) - 1 = i by omega]
      · rw [if_neg hn, readBlock_writeBlock_ne _ _ _ _ h (by omega),
          show i + 1 + n - 1 = i + (n + 1) - 1 by omega]

theorem decryptBlocks_below (limit : Nat) (s : State) (n i : Nat) (m : Memory) (chain : Block)
    (hl : 8 * (i + n) ≤ limit) (h : m.below limit = true) :
    (decryptBlocks s n i m chain).1.below limit = true := by
  induction n generalizing i m chain with
  | zero => exact h
  | succ n ih => exact ih (i + 1) _ _ (by omega) (writeBlock_below _ _ _ _ (by omega) h)

end Sys2Proof.Machine
end

