-- ==== Sys2Proof/Laws/State.lean ====
section
/-! SUPPORT. One lemma per field per named update of the state, each true by `rfl`. -/

namespace Sys2Proof.Machine

@[simp] theorem clearErr_params (s : State) : (clearErr s).params = s.params := rfl
@[simp] theorem clearErr_err (s : State) : (clearErr s).err = .none := rfl
@[simp] theorem clearErr_keyv (s : State) : (clearErr s).keyv = s.keyv := rfl
@[simp] theorem clearErr_flagP (s : State) : (clearErr s).flagP = s.flagP := rfl
@[simp] theorem clearErr_flagV (s : State) : (clearErr s).flagV = s.flagV := rfl
@[simp] theorem clearErr_roots (s : State) : (clearErr s).roots = s.roots := rfl
@[simp] theorem clearErr_din (s : State) : (clearErr s).din = s.din := rfl
@[simp] theorem clearErr_dout (s : State) : (clearErr s).dout = s.dout := rfl
@[simp] theorem clearErr_k1 (s : State) : (clearErr s).k1 = s.k1 := rfl
@[simp] theorem clearErr_k2 (s : State) : (clearErr s).k2 = s.k2 := rfl
@[simp] theorem clearErr_iv (s : State) : (clearErr s).iv = s.iv := rfl
@[simp] theorem clearErr_chain (s : State) : (clearErr s).chain = s.chain := rfl
@[simp] theorem clearErr_mlen (s : State) : (clearErr s).mlen = s.mlen := rfl
@[simp] theorem clearErr_marker (s : State) : (clearErr s).marker = s.marker := rfl
@[simp] theorem clearErr_h (s : State) : (clearErr s).h = s.h := rfl
@[simp] theorem clearErr_key (s : State) : (clearErr s).key = s.key := rfl
@[simp] theorem clearErr_rk (s : State) : (clearErr s).rk = s.rk := rfl
@[simp] theorem clearErr_x (s : State) : (clearErr s).x = s.x := rfl
@[simp] theorem clearErr_y (s : State) : (clearErr s).y = s.y := rfl
@[simp] theorem clearErr_rp (s : State) : (clearErr s).rp = s.rp := rfl
@[simp] theorem clearErr_rq (s : State) : (clearErr s).rq = s.rq := rfl
@[simp] theorem clearErr_ra (s : State) : (clearErr s).ra = s.ra := rfl
@[simp] theorem clearErr_rb (s : State) : (clearErr s).rb = s.rb := rfl
@[simp] theorem clearErr_rn (s : State) : (clearErr s).rn = s.rn := rfl
@[simp] theorem clearErr_sn (s : State) : (clearErr s).sn = s.sn := rfl
@[simp] theorem clearErr_se (s : State) : (clearErr s).se = s.se := rfl
@[simp] theorem clearErr_sd (s : State) : (clearErr s).sd = s.sd := rfl
@[simp] theorem clearErr_msg (s : State) : (clearErr s).msg = s.msg := rfl
@[simp] theorem clearErr_oracle (s : State) : (clearErr s).oracle = s.oracle := rfl
@[simp] theorem clearErr_resets (s : State) : (clearErr s).resets = s.resets := rfl
@[simp] theorem clearErr_host (s : State) : (clearErr s).host = s.host := rfl

@[simp] theorem withTodo_params (s : State) (rest : List Action) : (withTodo s rest).params = s.params := rfl
@[simp] theorem withTodo_err (s : State) (rest : List Action) : (withTodo s rest).err = s.err := rfl
@[simp] theorem withTodo_keyv (s : State) (rest : List Action) : (withTodo s rest).keyv = s.keyv := rfl
@[simp] theorem withTodo_flagP (s : State) (rest : List Action) : (withTodo s rest).flagP = s.flagP := rfl
@[simp] theorem withTodo_flagV (s : State) (rest : List Action) : (withTodo s rest).flagV = s.flagV := rfl
@[simp] theorem withTodo_roots (s : State) (rest : List Action) : (withTodo s rest).roots = s.roots := rfl
@[simp] theorem withTodo_din (s : State) (rest : List Action) : (withTodo s rest).din = s.din := rfl
@[simp] theorem withTodo_dout (s : State) (rest : List Action) : (withTodo s rest).dout = s.dout := rfl
@[simp] theorem withTodo_k1 (s : State) (rest : List Action) : (withTodo s rest).k1 = s.k1 := rfl
@[simp] theorem withTodo_k2 (s : State) (rest : List Action) : (withTodo s rest).k2 = s.k2 := rfl
@[simp] theorem withTodo_iv (s : State) (rest : List Action) : (withTodo s rest).iv = s.iv := rfl
@[simp] theorem withTodo_chain (s : State) (rest : List Action) : (withTodo s rest).chain = s.chain := rfl
@[simp] theorem withTodo_mlen (s : State) (rest : List Action) : (withTodo s rest).mlen = s.mlen := rfl
@[simp] theorem withTodo_marker (s : State) (rest : List Action) : (withTodo s rest).marker = s.marker := rfl
@[simp] theorem withTodo_h (s : State) (rest : List Action) : (withTodo s rest).h = s.h := rfl
@[simp] theorem withTodo_key (s : State) (rest : List Action) : (withTodo s rest).key = s.key := rfl
@[simp] theorem withTodo_rk (s : State) (rest : List Action) : (withTodo s rest).rk = s.rk := rfl
@[simp] theorem withTodo_x (s : State) (rest : List Action) : (withTodo s rest).x = s.x := rfl
@[simp] theorem withTodo_y (s : State) (rest : List Action) : (withTodo s rest).y = s.y := rfl
@[simp] theorem withTodo_rp (s : State) (rest : List Action) : (withTodo s rest).rp = s.rp := rfl
@[simp] theorem withTodo_rq (s : State) (rest : List Action) : (withTodo s rest).rq = s.rq := rfl
@[simp] theorem withTodo_ra (s : State) (rest : List Action) : (withTodo s rest).ra = s.ra := rfl
@[simp] theorem withTodo_rb (s : State) (rest : List Action) : (withTodo s rest).rb = s.rb := rfl
@[simp] theorem withTodo_rn (s : State) (rest : List Action) : (withTodo s rest).rn = s.rn := rfl
@[simp] theorem withTodo_sn (s : State) (rest : List Action) : (withTodo s rest).sn = s.sn := rfl
@[simp] theorem withTodo_se (s : State) (rest : List Action) : (withTodo s rest).se = s.se := rfl
@[simp] theorem withTodo_sd (s : State) (rest : List Action) : (withTodo s rest).sd = s.sd := rfl
@[simp] theorem withTodo_msg (s : State) (rest : List Action) : (withTodo s rest).msg = s.msg := rfl
@[simp] theorem withTodo_oracle (s : State) (rest : List Action) : (withTodo s rest).oracle = s.oracle := rfl
@[simp] theorem withTodo_resets (s : State) (rest : List Action) : (withTodo s rest).resets = s.resets := rfl
@[simp] theorem withTodo_host (s : State) (rest : List Action) : (withTodo s rest).host = { s.host with todo := rest } := rfl

@[simp] theorem returned_params (s : State) (v : Int) : (returned s v).params = s.params := rfl
@[simp] theorem returned_err (s : State) (v : Int) : (returned s v).err = s.err := rfl
@[simp] theorem returned_keyv (s : State) (v : Int) : (returned s v).keyv = s.keyv := rfl
@[simp] theorem returned_flagP (s : State) (v : Int) : (returned s v).flagP = s.flagP := rfl
@[simp] theorem returned_flagV (s : State) (v : Int) : (returned s v).flagV = s.flagV := rfl
@[simp] theorem returned_roots (s : State) (v : Int) : (returned s v).roots = s.roots := rfl
@[simp] theorem returned_din (s : State) (v : Int) : (returned s v).din = s.din := rfl
@[simp] theorem returned_dout (s : State) (v : Int) : (returned s v).dout = s.dout := rfl
@[simp] theorem returned_k1 (s : State) (v : Int) : (returned s v).k1 = s.k1 := rfl
@[simp] theorem returned_k2 (s : State) (v : Int) : (returned s v).k2 = s.k2 := rfl
@[simp] theorem returned_iv (s : State) (v : Int) : (returned s v).iv = s.iv := rfl
@[simp] theorem returned_chain (s : State) (v : Int) : (returned s v).chain = s.chain := rfl
@[simp] theorem returned_mlen (s : State) (v : Int) : (returned s v).mlen = s.mlen := rfl
@[simp] theorem returned_marker (s : State) (v : Int) : (returned s v).marker = s.marker := rfl
@[simp] theorem returned_h (s : State) (v : Int) : (returned s v).h = s.h := rfl
@[simp] theorem returned_key (s : State) (v : Int) : (returned s v).key = s.key := rfl
@[simp] theorem returned_rk (s : State) (v : Int) : (returned s v).rk = s.rk := rfl
@[simp] theorem returned_x (s : State) (v : Int) : (returned s v).x = s.x := rfl
@[simp] theorem returned_y (s : State) (v : Int) : (returned s v).y = s.y := rfl
@[simp] theorem returned_rp (s : State) (v : Int) : (returned s v).rp = s.rp := rfl
@[simp] theorem returned_rq (s : State) (v : Int) : (returned s v).rq = s.rq := rfl
@[simp] theorem returned_ra (s : State) (v : Int) : (returned s v).ra = s.ra := rfl
@[simp] theorem returned_rb (s : State) (v : Int) : (returned s v).rb = s.rb := rfl
@[simp] theorem returned_rn (s : State) (v : Int) : (returned s v).rn = s.rn := rfl
@[simp] theorem returned_sn (s : State) (v : Int) : (returned s v).sn = s.sn := rfl
@[simp] theorem returned_se (s : State) (v : Int) : (returned s v).se = s.se := rfl
@[simp] theorem returned_sd (s : State) (v : Int) : (returned s v).sd = s.sd := rfl
@[simp] theorem returned_msg (s : State) (v : Int) : (returned s v).msg = s.msg := rfl
@[simp] theorem returned_oracle (s : State) (v : Int) : (returned s v).oracle = s.oracle := rfl
@[simp] theorem returned_resets (s : State) (v : Int) : (returned s v).resets = s.resets := rfl
@[simp] theorem returned_host (s : State) (v : Int) : (returned s v).host = { s.host with seen := v :: s.host.seen } := rfl

@[simp] theorem resetTo_params (u : Nat → Nat) (s : State) : (resetTo u s).params = s.params := rfl
@[simp] theorem resetTo_oracle (u : Nat → Nat) (s : State) : (resetTo u s).oracle = s.oracle := rfl
@[simp] theorem resetTo_host (u : Nat → Nat) (s : State) : (resetTo u s).host = s.host := rfl
@[simp] theorem resetTo_err (u : Nat → Nat) (s : State) : (resetTo u s).err = .none := rfl
@[simp] theorem resetTo_keyv (u : Nat → Nat) (s : State) : (resetTo u s).keyv = false := rfl
@[simp] theorem resetTo_flagP (u : Nat → Nat) (s : State) : (resetTo u s).flagP = false := rfl
@[simp] theorem resetTo_flagV (u : Nat → Nat) (s : State) : (resetTo u s).flagV = false := rfl
@[simp] theorem resetTo_roots (u : Nat → Nat) (s : State) : (resetTo u s).roots = 0#4 := rfl

@[simp] theorem applyReset_params (s : State) : (applyReset s).params = s.params := rfl
@[simp] theorem applyReset_oracle (s : State) : (applyReset s).oracle = s.oracle := rfl
@[simp] theorem applyReset_host (s : State) : (applyReset s).host = s.host := rfl
@[simp] theorem applyReset_err (s : State) : (applyReset s).err = .none := rfl
@[simp] theorem applyReset_keyv (s : State) : (applyReset s).keyv = false := rfl
@[simp] theorem applyReset_flagP (s : State) : (applyReset s).flagP = false := rfl
@[simp] theorem applyReset_flagV (s : State) : (applyReset s).flagV = false := rfl
@[simp] theorem applyReset_roots (s : State) : (applyReset s).roots = 0#4 := rfl
@[simp] theorem applyReset_resets (s : State) : (applyReset s).resets = s.resets + 1 := rfl

/-- Doing nothing with the list of things to come. -/
@[simp] theorem withTodo_self (s : State) : withTodo s s.host.todo = s := rfl

@[simp] theorem withTodo_withTodo (s : State) (a b : List Action) :
    withTodo (withTodo s a) b = withTodo s b := rfl

end Sys2Proof.Machine
end

