-- ==== Sys2Proof/Laws/Ops.lean ====
section
/-! SUPPORT. What each shared operation can do, said once: raising, drawing, the registers of the port,
reset. -/

namespace Sys2Proof.Machine

/-- Raising answers the state with the latch written, and nothing else (rule R256). -/
theorem raise_eq (k : Err) (s : State) : raise k s = .next { s with err := k } := rfl

/-- A draw lies in its interval (rule R188). -/
theorem clip_mem (lo hi u : Nat) (h : lo ≤ hi) : lo ≤ clip lo hi u ∧ clip lo hi u ≤ hi := by
  unfold clip
  split
  · assumption
  · have := Nat.mod_lt u (show 0 < hi - lo + 1 by omega)
    omega

/-- Every answer in the interval is possible (rule R188). -/
theorem clip_of_mem (lo hi u : Nat) (h : lo ≤ u ∧ u ≤ hi) : clip lo hi u = u := if_pos h

theorem draw_mem (lo hi : Nat) (o : Oracle) (h : lo ≤ hi) :
    lo ≤ (draw lo hi o).1 ∧ (draw lo hi o).1 ≤ hi := by
  unfold draw
  split <;> exact clip_mem _ _ _ h

@[simp] theorem draw_drawn (lo hi : Nat) (o : Oracle) : (draw lo hi o).2.drawn = o.drawn + 1 := by
  unfold draw
  split <;> rfl

@[simp] theorem draw_answers (lo hi : Nat) (o : Oracle) :
    (draw lo hi o).2.answers = o.answers.tail := by
  unfold draw
  split
  · rename_i h; simp [h]
  · rename_i h; simp [h]

theorem draw_cons (lo hi u : Nat) (rest : List Nat) (k : Nat) :
    draw lo hi { answers := u :: rest, drawn := k } =
      (clip lo hi u, { answers := rest, drawn := k + 1 }) := rfl

/-- The register numbers are those of the table, and every assigned number names one (rule R30). -/
theorem regOfNum_numOfReg (r : Reg) : regOfNum (numOfReg r) = some r := by
  cases r with
  | rk i => fin_cases i <;> rfl
  | _ => rfl

/-- An assigned number is the number of its register (rule R30). -/
theorem regOfNum_eq_some (num : Nat) (r : Reg) : regOfNum num = some r ↔ num = numOfReg r := by
  constructor
  · intro h
    by_cases hn : num < 0x2A
    · have hall : ∀ n < 0x2A, (regOfNum n).all (fun r => decide (n = numOfReg r)) = true := by decide
      have := hall num hn
      rw [h] at this
      simpa using this
    · rw [regOfNum, dif_neg (by omega), if_neg (by omega),
        List.getElem?_eq_none (by simp [bigRegs]; omega)] at h
      cases h
  · rintro rfl; exact regOfNum_numOfReg r

/-- The unassigned numbers are 0x0C to 0x0F and 0x2A upward (rules R30 and R50). -/
theorem regOfNum_eq_none (num : Nat) :
    regOfNum num = none ↔ (0x0C ≤ num ∧ num ≤ 0x0F) ∨ 0x2A ≤ num := by
  by_cases hn : num < 0x2A
  · have hall : ∀ n < 0x2A, (regOfNum n = none ↔ (0x0C ≤ n ∧ n ≤ 0x0F) ∨ 0x2A ≤ n) := by decide
    exact hall num hn
  · rw [regOfNum, dif_neg (by omega), if_neg (by omega),
      List.getElem?_eq_none (by simp [bigRegs]; omega)]
    simp; omega

/-- A raw number brought into the signed range lies there (rule R41). -/
theorem signedOf_mem (n u : Nat) (h : 0 < n) :
    -2 ^ (n - 1) ≤ signedOf n u ∧ signedOf n u < 2 ^ (n - 1) := by
  obtain ⟨k, rfl⟩ := Nat.exists_eq_add_of_lt h
  have hlt := Nat.mod_lt u (show 0 < 2 ^ (0 + k + 1) by positivity)
  have hp : (2 : Nat) ^ (0 + k + 1) = 2 * 2 ^ k := by rw [Nat.zero_add, pow_succ, mul_comm]
  have hk : (0 + k + 1 : Nat) - 1 = k := by omega
  unfold signedOf
  rw [hk]
  have hc : (((u % 2 ^ (0 + k + 1) : Nat)) : Int) < 2 * 2 ^ k := by
    have : (2 * 2 ^ k : Int) = ((2 ^ (0 + k + 1) : Nat) : Int) := by rw [hp]; push_cast; rfl
    rw [this]; exact Int.ofNat_lt.2 hlt
  constructor <;> omega

/-- A register the host may write keeps what is written to it: it reads back (rules R30 and R79). -/
theorem readReg_storeReg (s : State) (v lo hi : Int) (r : Reg) (hr : r ≠ .cmd)
    (hp : portRange s.params r = some (lo, hi)) (hv : lo ≤ v ∧ v < hi) :
    readReg (storeReg s v r) r = v := by
  cases r <;> simp only [portRange, Option.some.injEq, Prod.mk.injEq, reduceCtorEq] at hp <;>
    first
    | exact absurd rfl hr
    | (obtain ⟨rfl, rfl⟩ := hp
       simp only [readReg, storeReg, BitVec.toNat_ofInt] <;> omega)

/-- A write to a register answers a state in which only that register may have changed: every other
register reads as before (rule R50). -/
theorem readReg_storeReg_ne (s : State) (v : Int) (r r' : Reg) (h : r ≠ r') :
    readReg (storeReg s v r) r' = readReg s r' := by
  cases r <;> cases r' <;> first | rfl | exact absurd rfl h

/-- What a write of an access-port register can do (rules R32 and R50). -/
theorem writeReg_cases (s : State) (v : Int) (r : Reg) :
    (portRange s.params r = none ∧ writeReg s v r = .next s) ∨
    (∃ lo hi, portRange s.params r = some (lo, hi) ∧ lo ≤ v ∧ v < hi ∧
      writeReg s v r = .next (storeReg s v r)) ∨
    (∃ lo hi, portRange s.params r = some (lo, hi) ∧ ¬(lo ≤ v ∧ v < hi) ∧
      writeReg s v r = .fault .portValue) := by
  unfold writeReg
  split
  · rename_i h; exact .inl ⟨h, rfl⟩
  · rename_i lo hi h
    by_cases hv : lo ≤ v ∧ v < hi
    · rw [if_pos hv]; exact .inr (.inl ⟨lo, hi, h, hv.1, hv.2, rfl⟩)
    · rw [if_neg hv]; exact .inr (.inr ⟨lo, hi, h, hv, rfl⟩)

/-- What a buffer write of the host can do (rule R84). -/
theorem writeByte_cases (s : State) (a : Nat) (b : Byte) :
    (a < s.params.msgmax ∧ writeByte s a b = { s with msg := s.msg.write a b }) ∨
      (s.params.msgmax ≤ a ∧ writeByte s a b = s) := by
  unfold writeByte
  split
  · exact .inl ⟨‹_›, rfl⟩
  · exact .inr ⟨by omega, rfl⟩

end Sys2Proof.Machine
end

