-- ==== Sys2Proof/Laws/MillerRabin.lean ====
section
/-! SUPPORT. What the parts of the Miller–Rabin test compute (rules R186 to R188). -/

namespace Sys2Proof.Machine

/-- Halving with enough fuel finds the power of two and the odd part. -/
theorem countTwos_spec (fuel m : Nat) (h0 : 0 < m) (h : m < 2 ^ (fuel + 1)) :
    m = 2 ^ (countTwos fuel m).1 * (countTwos fuel m).2 ∧ (countTwos fuel m).2 % 2 = 1 := by
  induction fuel generalizing m with
  | zero =>
    have : m = 1 := by simp at h; omega
    subst this; simp [countTwos]
  | succ fuel ih =>
    unfold countTwos
    by_cases he : m % 2 = 0
    · rw [if_pos he]
      obtain ⟨h1, h2⟩ := ih (m / 2) (by omega) (by rw [pow_succ] at h; omega)
      refine ⟨?_, h2⟩
      rw [pow_succ, mul_right_comm, ← h1]
      omega
    · rw [if_neg he]
      exact ⟨by simp, by simp only; omega⟩

/-- `decompose(n)` is the pair of rule R186. -/
theorem decompose_spec (n : Nat) (h : 1 < n) :
    n - 1 = 2 ^ (decompose n).1 * (decompose n).2 ∧ (decompose n).2 % 2 = 1 :=
  countTwos_spec _ _ (by omega) Nat.lt_log2_self

/-- For odd `n`, `s >= 1` (rule R186). -/
theorem decompose_pos (n : Nat) (h : 1 < n) (hodd : n % 2 = 1) : 1 ≤ (decompose n).1 := by
  obtain ⟨h1, h2⟩ := decompose_spec n h
  by_contra hc
  have : (decompose n).1 = 0 := by omega
  rw [this, pow_zero, one_mul] at h1
  omega

/-- The squarings find `n - 1` exactly when one of the first `k` squares of `x` is `n - 1`. -/
theorem squaringsFind_iff (k n x : Nat) :
    squaringsFind k n x = true ↔ ∃ i, 1 ≤ i ∧ i ≤ k ∧ x ^ 2 ^ i % n = n - 1 := by
  induction k generalizing x with
  | zero => simp [squaringsFind]
  | succ k ih =>
    unfold squaringsFind
    by_cases hx : x * x % n = n - 1
    · rw [if_pos hx]
      exact ⟨fun _ => ⟨1, le_refl _, by omega, by rw [pow_one, pow_two]; exact hx⟩, fun _ => rfl⟩
    · rw [if_neg hx, ih]
      have hp : ∀ i, (x * x % n) ^ 2 ^ i % n = x ^ 2 ^ (i + 1) % n := fun i => by
        rw [← Nat.pow_mod, ← pow_two, ← pow_mul, pow_succ, mul_comm]
      constructor
      · rintro ⟨i, h1, h2, h3⟩
        exact ⟨i + 1, by omega, by omega, by rw [← hp]; exact h3⟩
      · rintro ⟨i, h1, h2, h3⟩
        obtain ⟨j, rfl⟩ := Nat.exists_eq_add_of_le' h1
        refine ⟨j, ?_, by omega, by rw [hp]; exact h3⟩
        by_contra hj
        have : j = 0 := by omega
        subst this
        exact hx (by rw [← pow_two, ← pow_one 2]; simpa using h3)

/-- A round accepts when `a^d` is 1 or one of `a^d, …, a^(2^(s-1) d)` is `n - 1` (rule R187). -/
theorem witnessRound_iff (n s d a : Nat) (hs : 1 ≤ s) :
    witnessRound n s d a = true ↔
      a ^ d % n = 1 ∨ ∃ i < s, a ^ (2 ^ i * d) % n = n - 1 := by
  unfold witnessRound
  simp only [modexp_eq]
  have hp : ∀ i, (a ^ d % n) ^ 2 ^ i % n = a ^ (2 ^ i * d) % n := fun i => by
    rw [← Nat.pow_mod, ← pow_mul, mul_comm]
  by_cases hx : a ^ d % n = 1 ∨ a ^ d % n = n - 1
  · rw [if_pos hx]
    refine ⟨fun _ => ?_, fun _ => rfl⟩
    rcases hx with hx | hx
    · exact .inl hx
    · exact .inr ⟨0, by omega, by simpa using hx⟩
  · rw [if_neg hx, squaringsFind_iff]
    have h1 : ¬a ^ d % n = 1 := fun h => hx (.inl h)
    have h2 : ¬a ^ d % n = n - 1 := fun h => hx (.inr h)
    constructor
    · rintro ⟨i, _, hi, h⟩
      exact .inr ⟨i, by omega, by rw [← hp]; exact h⟩
    · rintro (h | ⟨i, hi, h⟩)
      · exact absurd h h1
      · rcases Nat.eq_zero_or_pos i with rfl | hpos
        · exact absurd (by simpa using h) h2
        · exact ⟨i, hpos, by omega, by rw [hp]; exact h⟩

/-- The rounds draw at most one answer a round, and leave the rest of the supplied answers. -/
theorem mrRounds_drawn (n s d k : Nat) (o : Oracle) :
    o.drawn ≤ (mrRounds n s d k o).2.drawn ∧ (mrRounds n s d k o).2.drawn ≤ o.drawn + k := by
  induction k generalizing o with
  | zero => exact ⟨le_refl _, le_refl _⟩
  | succ k ih =>
    unfold mrRounds
    split
    · have := ih (draw 2 (n - 2) o).2
      simp only [draw_drawn] at this
      omega
    · simp only [draw_drawn]; omega

end Sys2Proof.Machine
end

