-- ==== Sys2Proof/Laws/PerInstr.lean ====
section
/-! SUPPORT. Statements about every command as syntax, one lemma a constructor. -/

namespace Sys2Proof.Laws

/-- Bits 31:24 of a command's word are its opcode (rule R90). -/
def OpcodeRead.Statement (i : Instr) : Prop := opcodeOf (encode i) = opcodeFor i

theorem OpcodeRead.nop : OpcodeRead.Statement .nop := opcodeOf_append _ _
theorem OpcodeRead.clrerr : OpcodeRead.Statement .clrerr := opcodeOf_append _ _
theorem OpcodeRead.deskey : OpcodeRead.Statement .deskey := opcodeOf_append _ _
theorem OpcodeRead.desenc : OpcodeRead.Statement .desenc := opcodeOf_append _ _
theorem OpcodeRead.desdec : OpcodeRead.Statement .desdec := opcodeOf_append _ _
theorem OpcodeRead.cbcinit : OpcodeRead.Statement .cbcinit := opcodeOf_append _ _
theorem OpcodeRead.cbcenc : OpcodeRead.Statement .cbcenc := opcodeOf_append _ _
theorem OpcodeRead.cbcdec : OpcodeRead.Statement .cbcdec := opcodeOf_append _ _
theorem OpcodeRead.xencm : OpcodeRead.Statement .xencm := opcodeOf_append _ _
theorem OpcodeRead.xdecm : OpcodeRead.Statement .xdecm := opcodeOf_append _ _
theorem OpcodeRead.mrtest (rounds : Nat) : OpcodeRead.Statement (.mrtest rounds) := opcodeOf_append _ _
theorem OpcodeRead.rabenc : OpcodeRead.Statement .rabenc := opcodeOf_append _ _
theorem OpcodeRead.rabdec : OpcodeRead.Statement .rabdec := opcodeOf_append _ _
theorem OpcodeRead.dgclr : OpcodeRead.Statement .dgclr := opcodeOf_append _ _
theorem OpcodeRead.dgadd (cp : Nat) : OpcodeRead.Statement (.dgadd cp) := opcodeOf_append _ _
theorem OpcodeRead.rsasign : OpcodeRead.Statement .rsasign := opcodeOf_append _ _
theorem OpcodeRead.rsavfy : OpcodeRead.Statement .rsavfy := opcodeOf_append _ _

end Sys2Proof.Laws
end

