-- ==== Sys2Proof/Laws/Step.lean ====
section
/-! SUPPORT. What one step can do, said once: the next action, and what a word written to CMD does. -/

namespace Sys2Proof.Machine

/-- With nothing to come the core holds its state (rule R270). -/
theorem step_idle (s : State) (h : s.host.todo = []) : step s = .next s := by
  simp only [step, stepAction, h]

/-- Otherwise the step is the next action, on the state whose host has one thing less to do. -/
theorem step_cons (s : State) (a : Action) (rest : List Action) (h : s.host.todo = a :: rest) :
    step s = act a (withTodo s rest) := by
  simp only [step, stepAction, h]

/-- What a word written to CMD can do (rule R101). -/
theorem issue_cases (w : CmdWord) (s : State) :
    (s.err ≠ .none ∧ w = 0x00000000#32 ∧ issue w s = .next s) ∨
    (s.err ≠ .none ∧ w = 0x01000000#32 ∧ issue w s = .next (clearErr s)) ∨
    (s.err ≠ .none ∧ w ≠ 0x00000000#32 ∧ w ≠ 0x01000000#32 ∧ issue w s = .next s) ∨
    (s.err = .none ∧ ∃ i, decode w = .ok i ∧ issue w s = exec i s) ∨
    (s.err = .none ∧ (∃ r, decode w = .error r) ∧
      issue w s = .next { s with err := .illegalCommand }) := by
  unfold issue
  by_cases he : s.err ≠ .none
  · rw [if_pos he]
    by_cases h0 : w = 0x00000000#32
    · rw [if_pos h0]; exact .inl ⟨he, h0, rfl⟩
    · rw [if_neg h0]
      by_cases h1 : w = 0x01000000#32
      · rw [if_pos h1]; exact .inr (.inl ⟨he, h1, rfl⟩)
      · rw [if_neg h1]; exact .inr (.inr (.inl ⟨he, h0, h1, rfl⟩))
  · rw [if_neg he]
    have he' : s.err = .none := not_not.1 he
    cases hd : decode w with
    | ok i => exact .inr (.inr (.inr (.inl ⟨he', i, rfl, rfl⟩)))
    | error r => exact .inr (.inr (.inr (.inr ⟨he', ⟨r, rfl⟩, rfl⟩)))

/-- A write to CMD whose value the port carries issues the word (rule R33). -/
theorem act_wr_cmd (v : Int) (s : State) (h : 0 ≤ v ∧ v < 2 ^ 32) :
    act (.wr 0 v) s = issue (BitVec.ofNat 32 v.toNat) s := by
  show portWrite 0 v s = _
  unfold portWrite
  rw [show regOfNum 0 = some .cmd from rfl]
  exact if_pos h

/-- A write to any other register of the table is `writeReg` (rule R32). -/
theorem act_wr_reg (r : Reg) (hr : r ≠ .cmd) (v : Int) (s : State) :
    act (.wr (numOfReg r) v) s = writeReg s v r := by
  show portWrite (numOfReg r) v s = _
  unfold portWrite
  rw [regOfNum_numOfReg]
  cases r <;> first | rfl | exact absurd rfl hr

/-- What one action can do: the cases every claim about `step` splits on. -/
theorem act_cases (a : Action) (s t : State) (h : act a s = .next t) :
    (∃ v : Int, a = .wr 0 v ∧ 0 ≤ v ∧ v < 2 ^ 32 ∧ issue (BitVec.ofNat 32 v.toNat) s = .next t) ∨
    (∃ num v, a = .wr num v ∧ regOfNum num = none ∧ t = s) ∨
    (∃ num v r, a = .wr num v ∧ regOfNum num = some r ∧ r ≠ .cmd ∧ writeReg s v r = .next t) ∨
    (∃ num, a = .rd num ∧ t = returned s (readNum s num)) ∨
    (∃ addr b, a = .wrm addr b ∧ t = writeByte s addr b) ∨
    (∃ addr, a = .rdm addr ∧ t = returned s (readByte s addr).toNat) ∨
    (a = .reset ∧ t = applyReset s) := by
  cases a with
  | wr num v =>
    have h' : portWrite num v s = .next t := h
    unfold portWrite at h'
    split at h'
    · rename_i hn
      exact .inr (.inl ⟨num, v, rfl, hn, by cases h'; rfl⟩)
    · rename_i hn
      split at h'
      · rename_i hv
        have hz : num = 0 := (regOfNum_eq_some _ _).1 hn
        subst hz
        exact .inl ⟨v, rfl, hv.1, hv.2, h'⟩
      · cases h'
    · rename_i r hr hn
      exact .inr (.inr (.inl ⟨num, v, r, rfl, hn, fun hc => hr hc, h'⟩))
  | rd num => exact .inr (.inr (.inr (.inl ⟨num, rfl, by cases h; rfl⟩)))
  | wrm addr b => exact .inr (.inr (.inr (.inr (.inl ⟨addr, b, rfl, by cases h; rfl⟩))))
  | rdm addr => exact .inr (.inr (.inr (.inr (.inr (.inl ⟨addr, rfl, by cases h; rfl⟩)))))
  | reset => exact .inr (.inr (.inr (.inr (.inr (.inr ⟨rfl, by cases h; rfl⟩)))))

/-- Where a command word is placed, the next step issues it, whatever the host does after it. -/
theorem step_withFetchWord (s : State) (nbits w : Nat) (h : w % 2 ^ nbits < 2 ^ 32) :
    step (s.withFetchWord nbits w) = issue (BitVec.ofNat 32 (w % 2 ^ nbits)) s := by
  rw [State.withFetchWord, placeWord, step_cons _ _ _ rfl, withTodo_withTodo, withTodo_self,
    act_wr_cmd _ _ ⟨by positivity, by exact_mod_cast h⟩, Int.toNat_natCast]

end Sys2Proof.Machine
end

