-- ==== Sys2Proof/Tests/Slice0.lean ====
section
/-! SUPPORT. Tests: refused ill-formed terms, decoding of words written out from rule R94, one step of
each command on the values of spec/95_test_vectors.md, and a witness for the hypotheses of each
statement. Expected values come from spec/ unless a comment says otherwise. -/

namespace Sys2Proof.Tests

open Sys2Proof.Machine Sys2Proof.Claims

/-! ## Helpers -/

/-- A value read off the next state, if there is one. -/
def after {α : Type} (f : State → α) : Outcome → Option α
  | .next t => some (f t)
  | _ => none

/-- The next state; the given one where there is none. -/
def nextOr (s : State) : Outcome → State
  | .next t => t
  | _ => s

/-- STATUS as a number. -/
def status (s : State) : Nat := (statusWord s).toNat

/-- The example configuration of spec/95_test_vectors.md section 5, with the key of section 3. -/
def keyed : State :=
  { State.reset with
    keyv := true
    key := 0x133457799BBCDFF1#64
    rk := keySchedule 0x133457799BBCDFF1#64
    k1 := 0x0123456789ABCDEF#64
    k2 := 0xFEDCBA9876543210#64
    iv := 0x1122334455667788#64
    din := 0x0123456789ABCDEF#64 }

/-- The first bytes of the buffer. -/
def bytesOf (m : Memory) (n : Nat) : List Nat := (List.range n).map fun a => (m.read a).toNat

/-- "Test message" in the buffer (section 5). -/
def testMessage : State :=
  { keyed with
    mlen := 12#32
    msg := Memory.fill (fun a => [0x54#8, 0x65#8, 0x73#8, 0x74#8, 0x20#8, 0x6D#8, 0x65#8, 0x73#8,
      0x73#8, 0x61#8, 0x67#8, 0x65#8].getD a 0#8) 12 }

/-- Its ciphertext in the buffer (section 5). -/
def testCipher : State :=
  { keyed with
    mlen := 16#32
    msg := Memory.fill (fun a => [0x86#8, 0x68#8, 0x36#8, 0x09#8, 0x59#8, 0x2F#8, 0x75#8, 0xE8#8,
      0xE0#8, 0xD2#8, 0xDE#8, 0x52#8, 0x71#8, 0x0F#8, 0xF2#8, 0xD6#8].getD a 0#8) 16 }

/-- The small Rabin key of section 7 with a value in X. -/
def rabin (x : Nat) : State :=
  { State.reset with
    x := x
    rp := 1000003
    rq := 1000039
    ra := 194452
    rb := -194445
    rn := 1000042000117
    marker := 0xA5C3#16 }

/-- The small RSA key of section 8. -/
def rsa (h : BitVec 32) (x : Nat) : State :=
  { State.reset with
    h := h
    x := x
    sn := 3233
    se := 17
    sd := 2753 }

/-- A candidate prime and the oracle's answers (section 6). -/
def tested (x : Nat) (draws : List Nat) : State :=
  { State.reset with
    x := x
    oracle := { answers := draws, drawn := 0 } }

/-- The host has one action to do. -/
def doing (a : Action) (s : State) : State := withTodo s [a]

/-! ## Well-formedness: ill-formed terms are refused (rules R92 and R93) -/

theorem test_wf_rounds_refused : (Instr.mrtest 65536).wf = false := by decide
theorem test_wf_cp_refused : (Instr.dgadd 0x200000).wf = false := by decide
theorem test_wf_rounds_last : (Instr.mrtest 65535).wf = true := by decide
theorem test_wf_cp_last : (Instr.dgadd 0x1FFFFF).wf = true := by decide
/-- The checks of rules R8 and R9 on the parameters. -/
theorem test_params_refused : Params.wf ⟨63, 64⟩ = false ∧ Params.wf ⟨64, 0⟩ = false ∧
    Params.wf ⟨64, 12⟩ = false ∧ Params.wf ⟨64, 8⟩ = true := by decide

/-! ## Decoding: opcode in bits 31:24, operand field below, written out bit by bit (rule R94) -/

theorem test_decode_nop : decode 0b00000000_000000000000000000000000#32 = .ok .nop := by decide
theorem test_decode_clrerr : decode 0b00000001_000000000000000000000000#32 = .ok .clrerr := by decide
theorem test_decode_deskey : decode 0b00010000_000000000000000000000000#32 = .ok .deskey := by decide
theorem test_decode_desenc : decode 0b00010001_000000000000000000000000#32 = .ok .desenc := by decide
theorem test_decode_desdec : decode 0b00010010_000000000000000000000000#32 = .ok .desdec := by decide
theorem test_decode_cbcinit : decode 0b00100000_000000000000000000000000#32 = .ok .cbcinit := by decide
theorem test_decode_cbcenc : decode 0b00100001_000000000000000000000000#32 = .ok .cbcenc := by decide
theorem test_decode_cbcdec : decode 0b00100010_000000000000000000000000#32 = .ok .cbcdec := by decide
theorem test_decode_xencm : decode 0b00100011_000000000000000000000000#32 = .ok .xencm := by decide
theorem test_decode_xdecm : decode 0b00100100_000000000000000000000000#32 = .ok .xdecm := by decide
theorem test_decode_mrtest : decode 0b00110000_00000000_0000000000010100#32 = .ok (.mrtest 20) := by decide
theorem test_decode_rabenc : decode 0b01000000_000000000000000000000000#32 = .ok .rabenc := by decide
theorem test_decode_rabdec : decode 0b01000001_000000000000000000000000#32 = .ok .rabdec := by decide
theorem test_decode_dgclr : decode 0b01010000_000000000000000000000000#32 = .ok .dgclr := by decide
theorem test_decode_dgadd : decode 0b01010001_000_100001111111111111111#32 = .ok (.dgadd 0x10FFFF) := by
  decide
theorem test_decode_rsasign : decode 0b01010010_000000000000000000000000#32 = .ok .rsasign := by decide
theorem test_decode_rsavfy : decode 0b01010011_000000000000000000000000#32 = .ok .rsavfy := by decide

/-- Illegal words of section 10: reserved bits set. -/
theorem test_decode_reserved : [0x30010000#32, 0x51200000#32, 0x11000001#32, 0x00000001#32,
    0x01800000#32].all (fun w => decide (decode w = .error .reservedBits)) = true := by decide
/-- Illegal words of section 10: unassigned opcodes. -/
theorem test_decode_unassigned : [0x02000000#32, 0x13000000#32, 0x25000000#32, 0x31000000#32,
    0x42000000#32, 0x54000000#32, 0x7F000000#32, 0xFFFFFFFF#32].all
      (fun w => decide (decode w = .error .unassignedOpcode)) = true := by decide
theorem test_table_word : decodeTableWord 32 0x3000FFFF = some (.mrtest 65535) ∧
    decodeTableWord 8 0x00 = some .nop ∧ decodeTableWord 32 0x7F000000 = none := by decide

/-! ## One step from reset with the word placed -/

theorem test_first_step_cbcinit :
    after (fun t => t.chain) (step (State.reset.withFetchWord 32 0x20000000)) =
      some State.reset.iv := by decide
/-- No key is bound after reset (section 11). -/
theorem test_first_step_desenc :
    after status (step (State.reset.withFetchWord 32 0x11000000)) = some 0x00000001 := by decide
theorem test_first_step_illegal :
    after status (step (State.reset.withFetchWord 32 0x7F000000)) = some 0x00000008 := by decide

/-! ## One step of each command (sections 3 to 8 and 11) -/

theorem test_nop : exec .nop (rabin 2) = .next (rabin 2) := rfl
theorem test_clrerr : after status (exec .clrerr { keyed with err := .messageTooLarge }) =
    some 0x00000010 := by decide
theorem test_deskey :
    after (fun t => (status t, t.rk.toList.map BitVec.toNat))
        (exec .deskey { State.reset with din := 0x133457799BBCDFF1#64 }) =
      some (0x10, [0x1B02EFFC7072, 0x79AED9DBC9E5, 0x55FC8A42CF99, 0x72ADD6DB351D, 0x7CEC07EB53A8,
        0x63A53E507B2F, 0xEC84B7F618BC, 0xF78A3AC13BFB, 0xE0DBEBEDE781, 0xB1F347BA464F,
        0x215FD3DED386, 0x7571F59467E9, 0x97C5D1FABA41, 0x5F43B7F2E73A, 0xBF918D3D3F0A,
        0xCB3D8B0E17F5]) := by decide +kernel
theorem test_desenc : after (fun t => t.dout) (exec .desenc keyed) = some 0x85E813540F0AB405#64 := by
  decide +kernel
theorem test_desenc_unkeyed : after status (exec .desenc State.reset) = some 0x00000001 := by decide
theorem test_desdec : after (fun t => t.dout)
    (exec .desdec { keyed with din := 0x85E813540F0AB405#64 }) = some 0x0123456789ABCDEF#64 := by
  decide +kernel
theorem test_cbcinit : after (fun t => t.chain) (exec .cbcinit keyed) = some 0x1122334455667788#64 := by
  decide
/-- The second CBCENC row of section 5. -/
theorem test_cbcenc : after (fun t => (t.dout, t.chain))
    (exec .cbcenc { keyed with chain := 0x0112577118177FDC#64, din := 0x4142434445464748#64 }) =
      some (0x0C0DE04FE3FAEEED#64, 0x0C0DE04FE3FAEEED#64) := by decide +kernel
/-- The last row of section 5's first table: a wrong chain, and CHAIN right again after it. -/
theorem test_cbcdec : after (fun t => (t.dout, t.chain))
    (exec .cbcdec { keyed with chain := 0x0C0DE04FE3FAEEED#64, din := 0x0112577118177FDC#64 }) =
      some (0x5C6D904FF3DADE2D#64, 0x0112577118177FDC#64) := by decide +kernel
theorem test_xencm : after (fun t => (bytesOf t.msg 17, t.mlen.toNat, t.chain)) (exec .xencm testMessage) =
    some ([0x86, 0x68, 0x36, 0x09, 0x59, 0x2F, 0x75, 0xE8, 0xE0, 0xD2, 0xDE, 0x52, 0x71, 0x0F, 0xF2,
      0xD6, 0x5A], 16, 0xE0D2DE52710FF2D6#64) := by decide +kernel
theorem test_xencm_too_long : after status (exec .xencm { keyed with mlen := 65#32 }) =
    some 0x00000019 := by decide
theorem test_xdecm : after (fun t => (bytesOf t.msg 16, t.mlen.toNat, t.chain)) (exec .xdecm testCipher) =
    some ([0x54, 0x65, 0x73, 0x74, 0x20, 0x6D, 0x65, 0x73, 0x73, 0x61, 0x67, 0x65, 0, 0, 0, 0], 12,
      0xE0D2DE52710FF2D6#64) := by decide +kernel
theorem test_xdecm_bad_length : after status (exec .xdecm { keyed with mlen := 5#32 }) =
    some 0x00000019 := by decide
theorem test_mrtest_composite : after (fun t => t.flagP) (exec (.mrtest 1) (tested 561 [2])) =
    some false := by decide
theorem test_mrtest_second_round : after (fun t => (t.flagP, t.oracle.drawn))
    (exec (.mrtest 5) (tested 221 [174, 137, 174])) = some (false, 2) := by decide
theorem test_rabenc : after (fun t => t.y) (exec .rabenc (rabin 0xE8D725)) = some 351112644 := by
  decide
theorem test_rabenc_too_large : after status (exec .rabenc (rabin 0xE8D726)) = some 0x00000002 := by
  decide
theorem test_rabdec : after (fun t => (status t, t.y)) (exec .rabdec (rabin 794572723212)) =
    some (0x00000200, 0x1234) := by decide
theorem test_rabdec_ambiguous : after (fun t => (status t, t.y)) (exec .rabdec (rabin 986476605901)) =
    some (0x00000903, 0x5A) := by decide
theorem test_dgclr : after (fun t => t.h) (exec .dgclr (rsa 1189#32 0)) = some 0#32 := by decide
theorem test_dgadd_wraps : after (fun t => t.h) (exec (.dgadd 0x1FFFFF) (rsa 0xFFFFFFF0#32 0)) =
    some 0x001FFFEF#32 := by decide
theorem test_rsasign : after (fun t => t.y) (exec .rsasign (rsa 4294967295#32 0)) = some 896 := by
  decide
theorem test_rsasign_zero_modulus : after status (exec .rsasign { rsa 5#32 0 with sn := 0 }) =
    some 0x00000009 := by decide
theorem test_rsavfy : after (fun t => t.flagV) (exec .rsavfy (rsa 1189#32 6277)) = some true := by
  decide
theorem test_rsavfy_wrong : after (fun t => t.flagV) (exec .rsavfy (rsa 1189#32 3045)) = some false := by
  decide

/-! ## The network, the ports and the host's text (sections 2, 10 and 12, rules R98 and R240) -/

theorem test_permutations : initialPerm 0x0123456789ABCDEF#64 = 0xCC00CCFFF0AAF0AA#64 ∧
    finalPerm 0x0123456789ABCDEF#64 = 0xFF330FAA00330FAA#64 ∧
    expand 0xF0AAF0AA#32 = 0x7A15557A1555#48 ∧ pbox 0x5C82B597#32 = 0x234AA9BB#32 ∧
    pc1 0x133457799BBCDFF1#64 = 0xF0CCAAF556678F#56 ∧
    pc2 0xF0CCAAF556678F#56 = 0xCB3D8B0E17F5#48 := by decide
/-- Rule R72: the first byte is the most significant (the message of section 5's second row). -/
theorem test_packing :
    readBlock (Memory.fill (fun a => BitVec.ofNat 8 (0x41 + a)) 8) 0 = 0x4142434445464748#64 ∧
    bytesOf (writeBlock [] 0 0x4142434445464748#64) 8 =
      [0x41, 0x42, 0x43, 0x44, 0x45, 0x46, 0x47, 0x48] := by decide
theorem test_sboxes : sboxes 0#48 = 0xEFA72C4D#32 ∧ sboxes 0xFFFFFFFFFFFF#48 = 0xD9CE3DCB#32 ∧
    sboxes 0x6117BA866527#48 = 0x5C82B597#32 := by decide
theorem test_read_rk1 : readNum keyed 0x10 = 0x1B02EFFC7072 ∧ readNum keyed 0x1F = 0xCB3D8B0E17F5 := by
  decide +kernel
theorem test_write_signed : after (fun t => t.rb) (act (.wr 0x25 (-194445)) State.reset) =
    some (-194445) := by decide +kernel
theorem test_assemble : assemble "DGADD 'T' ; 'T'".toList = some 0x51000054#32 ∧
    assemble "MRTEST 0x14".toList = some 0x30000014#32 ∧ assemble "MRTEST 65536".toList = none := by
  decide
theorem test_hex : hexText [0x0F#8, 0xA0#8] = ['0', 'f', 'a', '0'] ∧
    unhexText ['0', 'f', 'a', '0'] = some [0x0F#8, 0xA0#8] ∧ unhexText ['0'] = none := by decide
/-- The fallback exponent of section 8's key generation example. -/
theorem test_choose_exponent : chooseExponent 9175180 = 3 ∧ modinv 3 9175180 = some 6116787 := by
  decide

/-! ## Witnesses: states and operands that meet the hypotheses of the statements -/

theorem witness_decodeOfEncode : (Instr.mrtest 65535).wf = true ∧ (Instr.dgadd 0x1FFFFF).wf = true ∧
    (Instr.mrtest 0).wf = true ∧ Instr.nop.wf = true := by decide

theorem witness_encodeOfDecode : decode 0x3000FFFF#32 = .ok (.mrtest 65535) ∧
    decode 0x511FFFFF#32 = .ok (.dgadd 0x1FFFFF) := by decide

/-- A word the MRTEST row selects, with its largest operand, and the word beyond it, which none does. -/
theorem witness_wordSelects :
    (∃ row ∈ opcodeRows, 0x3000FFFF#32 &&& row.2.1 = row.1) ∧
    (∀ row ∈ opcodeRows, 0x30010000#32 &&& row.2.1 ≠ row.1) :=
  ⟨⟨(0x30000000#32, 0xFFFF0000#32, fun w => .mrtest (w &&& 0xFFFF#32).toNat), by simp [opcodeRows],
    by decide⟩, by simp [opcodeRows]⟩

theorem witness_stepRunsDecodedCommand :
    let s := doing (.wr 0 0x53000000) State.reset
    s.host.todo = [.wr 0 0x53000000] ∧ (0 : Int) ≤ 0x53000000 ∧ (0x53000000 : Int) < 2 ^ 32 ∧
      s.err = .none ∧ decode (BitVec.ofNat 32 (0x53000000 : Int).toNat) = .ok .rsavfy := by decide

theorem witness_stepPerformsNextAction :
    (doing .reset State.reset).host.todo = [.reset] ∧ State.reset.host.todo = [] := by decide

theorem witness_latchedPort : { keyed with err := .badOperand }.err ≠ .none ∧
    (0x00000000#32 : CmdWord) ≠ 0x01000000#32 ∧ (0x11000000#32 : CmdWord) ≠ 0x01000000#32 ∧
    Reg.din ≠ .cmd := by decide

theorem witness_illegalWord : State.reset.err = .none ∧
    (∀ row ∈ opcodeRows, 0xFFFFFFFF#32 &&& row.2.1 ≠ row.1) ∧
    (∀ row ∈ opcodeRows, 0x00000001#32 &&& row.2.1 ≠ row.1) :=
  ⟨rfl, by simp [opcodeRows], by simp [opcodeRows]⟩

/-- Boundary values of each clause: RK numbers, unassigned numbers, the buffer's last byte and the
address past it, the smallest and largest value of a signed register. -/
theorem witness_accessRights :
    (1 ≤ 1 ∧ 1 ≤ 16) ∧ (1 ≤ 16 ∧ 16 ≤ 16) ∧ (0x0C ≤ 0x0C ∧ 0x0C ≤ 0x0F) ∧
    (0x0C ≤ 0x0F ∧ 0x0F ≤ 0x0F) ∧ 0x2A ≤ 0x2A ∧ State.reset.params.msgmax ≤ 64 ∧
    63 < State.reset.params.msgmax ∧
    portRange State.reset.params .ra = some (-2 ^ 1023, 2 ^ 1023) ∧
    (-2 ^ 1023 : Int) ≤ -2 ^ 1023 ∧ (-2 ^ 1023 : Int) < 2 ^ 1023 ∧
    (2 ^ 1023 - 1 : Int) < 2 ^ 1023 := by decide +kernel

/-- Rows of rule R30's table at the least and the largest value of their ranges, and one past each end;
a row another write leaves alone. -/
theorem witness_portTable :
    (∃ row ∈ portWrites State.reset 65535, row.num = 0x09 ∧ row.lo ≤ 65535 ∧ 65535 < row.hi) ∧
    (∃ row ∈ portWrites State.reset 0, row.num = 0x02 ∧ row.lo ≤ 0 ∧ 0 < row.hi) ∧
    (∃ row ∈ portWrites State.reset (-1), row.num = 0x25 ∧ row.lo ≤ -1 ∧ -1 < row.hi) ∧
    (∃ row ∈ portWrites State.reset 65536, row.num = 0x09 ∧ ¬(row.lo ≤ 65536 ∧ 65536 < row.hi)) ∧
    (∃ row ∈ portWrites State.reset (-1), row.num = 0x29 ∧ ¬(row.lo ≤ -1 ∧ -1 < row.hi)) ∧
    ¬((0 : Int) ≤ 2 ^ 32 ∧ (2 ^ 32 : Int) < 2 ^ 32) ∧
    (∃ row ∈ portReads keyed, row = (0x1F, 0xCB3D8B0E17F5) ∧ row.1 ≠ 0x09) := by decide +kernel

theorem witness_writtenRegister : Reg.marker ≠ .cmd ∧
    portRange State.reset.params .marker = some (0, 2 ^ 16) ∧ (0 : Int) ≤ 65535 ∧
    (65535 : Int) < 2 ^ 16 := by decide

theorem witness_writtenByte : State.reset.msg.wf = true ∧ 63 < State.reset.params.msgmax ∧
    0 < State.reset.params.msgmax ∧ (62 : Nat) ≠ 63 := by decide

theorem witness_impossibleValue : portRange State.reset.params .marker = some (0, 2 ^ 16) ∧
    ¬((0 : Int) ≤ 65536 ∧ (65536 : Int) < 2 ^ 16) ∧ ¬((0 : Int) ≤ -1 ∧ (-1 : Int) < 2 ^ 16) := by
  decide

/-- A latched state and its step, for each of the three conclusions. -/
theorem witness_latchIsSticky :
    let s := { keyed with err := .badOperand }
    s.err ≠ .none ∧
      (∃ t, step (doing (.wr 0 0x11000000) s) = .next t ∧ t.err = .badOperand) ∧
      (∃ t, step (doing (.wr 0 0x01000000) s) = .next t ∧ t.err = .none) ∧
      (∃ t, step (doing .reset s) = .next t ∧ t.err = .none) :=
  ⟨by decide, ⟨_, rfl, rfl⟩, ⟨_, rfl, rfl⟩, ⟨_, rfl, rfl⟩⟩

/-- Raising with ERR alone written, and RABDEC raising with ROOTS written. -/
theorem witness_raising : State.reset.err = .none ∧
    after (fun t => t.err) (exec .desenc State.reset) = some .keyNotSet ∧
    (rabin 986476605901).err = .none ∧
    after (fun t => t.err) (exec .rabdec (rabin 986476605901)) = some .ambiguous := by
  decide

theorem witness_keyNotSet : usesRoundKeys .xdecm ∧ State.reset.keyv = false ∧
    State.reset.err ≠ .keyNotSet ∧
    after (fun t => t.err) (exec .xdecm State.reset) = some .keyNotSet ∧
    after (fun t => t.keyv) (exec .deskey State.reset) = some true :=
  ⟨trivial, by decide, by decide, by decide, by decide⟩

theorem witness_badOperand : operandBad { keyed with mlen := 65#32 } .xencm ∧
    operandBad { keyed with mlen := 5#32 } .xdecm ∧ operandBad { rsa 0#32 0 with sn := 0 } .rsasign ∧
    operandBad { rabin 0 with rq := 0 } .rabdec ∧ keyed.keyv = true ∧ keyed.err ≠ .badOperand ∧
    after (fun t => t.err) (exec .xencm { keyed with mlen := 65#32 }) = some .badOperand := by
  refine ⟨?_, ?_, ?_, ?_, rfl, by decide, by decide⟩ <;> simp [operandBad, keyed, rabin,
    State.reset, Config.resetParams]

theorem two_pow_pos_bound : (0x5A : Nat) < 2 ^ 1024 ∧ (-2 ^ 1023 : Int) ≤ 0x5A ∧
    (0x5A : Int) < 2 ^ 1023 := by decide +kernel

/-- A sound state whose step is a command: DESKEY after reset. -/
theorem witness_soundStep : (doing (.wr 0 0x10000000) State.reset).Sound ∧
    ∃ t, step (doing (.wr 0 0x10000000) State.reset) = .next t := by
  obtain ⟨h1, h2, h3⟩ := two_pow_pos_bound
  refine ⟨⟨by decide, ⟨h1, h1, h1, h1, h1, h1, h1, h1, ⟨h2, h3⟩, ⟨h2, h3⟩⟩, ⟨by decide, by decide⟩,
    fun h => ?_, fun h => ?_⟩, ⟨_, rfl⟩⟩
  · exact absurd h (by decide)
  · exact absurd h (by decide)

/-- A state whose key is bound, and its step. -/
theorem witness_keysMatch : keyed.keysMatch ∧ keyed.keyv = true ∧
    ∃ t, step (doing (.wr 0 0x11000000) keyed) = .next t :=
  ⟨fun _ => rfl, rfl, ⟨_, rfl⟩⟩

/-- A reset event to come; and contents a reset may leave. -/
theorem witness_resetContents : (doing .reset keyed).host.todo = [.reset] ∧
    keyed.params.wf = true ∧ statusWord State.reset = 0#32 ∧ 1 ≤ State.reset.params.nbits ∧
    State.reset.inRange ∧ State.reset.bufferWf := by
  obtain ⟨h1, h2, h3⟩ := two_pow_pos_bound
  exact ⟨rfl, by decide, by decide, by decide,
    ⟨h1, h1, h1, h1, h1, h1, h1, h1, ⟨h2, h3⟩, ⟨h2, h3⟩⟩, ⟨by decide, by decide⟩⟩

theorem witness_permutation : [2, 1, 1].length = 3 ∧ (∀ i ∈ [2, 1, 1], 1 ≤ i ∧ i ≤ 2) ∧
    permute 3 [2, 1, 1] 0b10#2 = 0b011#3 := by decide

theorem witness_finalPerm : 1 ≤ 1 ∧ 1 ≤ 64 ∧ 64 ≤ 64 ∧
    ipTable.getD (fpTable.getD (64 - 1) 0 - 1) 0 = 64 := by decide

/-- Group 1 of the first round of section 4, 011000, and group 8, 100111. -/
theorem witness_sboxes : 0 < 8 ∧ 7 < 8 ∧ (sboxes 0x6117BA866527#48).extractLsb' 28 4 = 5#4 ∧
    (sboxes 0x6117BA866527#48).extractLsb' 0 4 = 7#4 := by decide

/-- The two keys of section 3 that differ in parity positions only. -/
theorem witness_parity : ∀ i < 64, i % 8 ≠ 7 →
    (0x133457799BBCDFF1#64).getMsbD i = (0x123456789ABCDEF0#64).getMsbD i := by decide

/-- Each of the four pairs of uniform halves (section 3). -/
theorem witness_uniformHalves :
    (c0 0x0101010101010101#64 = 0#28 ∧ d0 0x0101010101010101#64 = 0#28) ∧
    (c0 0xFEFEFEFEFEFEFEFE#64 = 0xFFFFFFF#28 ∧ d0 0xFEFEFEFEFEFEFEFE#64 = 0xFFFFFFF#28) := by
  decide

theorem witness_deskey : keyed.keyv = true ∧ ∃ t, exec .clrerr keyed = .next t :=
  ⟨rfl, ⟨_, rfl⟩⟩

theorem witness_desenc : keyed.keyv = true ∧ State.reset.keyv = false ∧
    (∀ k ∈ State.reset.rk.toList, ∀ k' ∈ State.reset.rk.toList, k = k') := by
  refine ⟨rfl, rfl, fun k hk k' hk' => ?_⟩
  have h : State.reset.rk.toList = List.replicate 16 (BitVec.ofNat 48 Config.resetFill) := rfl
  rw [h] at hk hk'
  rw [List.eq_of_mem_replicate hk, List.eq_of_mem_replicate hk']

theorem witness_cbcenc :
    let s := { keyed with k1 := 0#64, k2 := 0#64, chain := 0#64 }
    s.k1 = 0#64 ∧ s.k2 = 0#64 ∧ s.chain = 0#64 ∧ s.keyv = true ∧ (∃ t, exec .cbcenc s = .next t ∧
      ∃ u, exec .cbcenc t = .next u) ∧ ∃ u, exec .desenc s = .next u :=
  ⟨rfl, rfl, rfl, rfl, ⟨_, rfl, _, rfl⟩, _, rfl⟩

theorem witness_cbcdec : keyed.keyv = true ∧ State.reset.keyv = false := by decide

theorem witness_equalBlocks :
    let s' := { keyed with chain := 7#64, dout := 9#64, key := 0#64 }
    keyed.keyv = true ∧ s'.keyv = true ∧ keyed.rk = s'.rk ∧ keyed.k1 = s'.k1 ∧ keyed.k2 = s'.k2 ∧
      keyed.iv = s'.iv ∧ keyed.din = s'.din ∧ (∃ t, commands [.cbcinit, .cbcenc] keyed = .next t) ∧
      ∃ t, commands [.cbcinit, .cbcenc] s' = .next t :=
  ⟨rfl, rfl, rfl, rfl, rfl, rfl, rfl, ⟨_, rfl⟩, ⟨_, rfl⟩⟩

/-- Lengths 0, inside the buffer and equal to MSGMAX. -/
theorem witness_xencm : testMessage.keyv = true ∧ testMessage.mlen.toNat ≤ testMessage.params.msgmax ∧
    testMessage.msg.wf = true ∧ (0#32).toNat ≤ testMessage.params.msgmax ∧
    (64#32).toNat ≤ testMessage.params.msgmax := by decide

theorem witness_xdecm : testCipher.keyv = true ∧ testCipher.mlen.toNat ≤ testCipher.params.msgmax ∧
    testCipher.mlen.toNat % 8 = 0 ∧ testCipher.msg.wf = true ∧ (0#32).toNat % 8 = 0 ∧
    (64#32).toNat % 8 = 0 ∧ (64#32).toNat ≤ testCipher.params.msgmax := by decide

theorem witness_chainedCommands : testMessage.keyv = true ∧
    testMessage.mlen.toNat ≤ testMessage.params.msgmax ∧ testMessage.msg.wf = true ∧
    (∃ t, exec .xencm testMessage = .next t) ∧ (∃ c, exec .cbcinit testMessage = .next c) ∧
    testCipher.keyv = true ∧ testCipher.mlen.toNat ≤ testCipher.params.msgmax ∧
    testCipher.mlen.toNat % 8 = 0 ∧ testCipher.msg.wf = true ∧
    (∃ t, exec .xdecm testCipher = .next t) ∧ (∃ c, exec .cbcinit testCipher = .next c) :=
  ⟨rfl, by decide, by decide, ⟨_, rfl⟩, ⟨_, rfl⟩, rfl, by decide, by decide,
    by decide, ⟨_, rfl⟩, ⟨_, rfl⟩⟩

theorem witness_messageLengths : testMessage.keyv = true ∧
    testMessage.mlen.toNat ≤ testMessage.params.msgmax ∧
    8 * ((testMessage.mlen.toNat + 7) / 8) < 2 ^ 32 ∧ (∃ t, exec .xencm testMessage = .next t) ∧
    testCipher.keyv = true ∧ testCipher.mlen.toNat ≤ testCipher.params.msgmax ∧
    testCipher.mlen.toNat % 8 = 0 ∧ (∃ t, exec .xdecm testCipher = .next t) :=
  ⟨rfl, by decide, by decide, ⟨_, rfl⟩, rfl, by decide, by decide, ⟨_, rfl⟩⟩

theorem witness_messageRoundTrip : testMessage.params.wf = true ∧ testMessage.keyv = true ∧
    1 ≤ testMessage.mlen.toNat ∧ testMessage.mlen.toNat ≤ testMessage.params.msgmax ∧
    8 * ((testMessage.mlen.toNat + 7) / 8) < 2 ^ 32 ∧ testMessage.msg.wf = true ∧
    testMessage.msg.read (testMessage.mlen.toNat - 1) ≠ 0#8 := by decide

/-- The smallest number that is drawn for. -/
theorem witness_mrtestVerdict : 5 ≤ (tested 5 [3]).x ∧ (tested 5 [3]).x % 2 = 1 := by decide

theorem witness_mrtestWithoutDraws : (tested 1 []).x < 2 ∧ (tested 2 []).x = 2 ∧ (tested 3 []).x = 3 ∧
    4 ≤ (tested 4 []).x ∧ (tested 4 []).x % 2 = 0 ∧ 5 ≤ (tested 9 []).x ∧ (tested 9 []).x % 2 = 1 := by
  decide

theorem witness_mrtestPrime : (tested 2 []).x.Prime ∧ (tested 7919 [2]).x.Prime := by
  constructor
  · show Nat.Prime 2
    norm_num
  · show Nat.Prime 7919
    norm_num

theorem witness_draw : 2 ≤ 3 ∧ 2 ≤ 2 ∧ (2 ≤ 3 ∧ 3 ≤ 3) := by decide

/-- The largest legal message of section 7 and the one above it; and a label equal to the modulus. -/
theorem witness_rabenc :
    (rabin 0xE8D725).x * 65536 + (rabin 0xE8D725).marker.toNat < (rabin 0xE8D725).rn ∧
    (rabin 0xE8D726).rn ≤ (rabin 0xE8D726).x * 65536 + (rabin 0xE8D726).marker.toNat ∧
    (let s := { rabin 1 with rn := 107971 }
     s.rn = s.x * 65536 + s.marker.toNat) := by decide

/-- Each clause of RABDEC: no zero modulus, with the numbers of section 7's first row. -/
theorem witness_rabdec :
    let s := rabin 794572723212
    s.rp ≠ 0 ∧ s.rq ≠ 0 ∧ s.rn ≠ 0 ∧ squareRoot s.x s.rp = 560723 ∧ squareRoot s.x s.rq = 571739 ∧
      candidates s = ⟨0xE8C4F14932, 0x1234A5C3, 0xD49499DD2D, 0x14428C11C8⟩ ∧
      validRoots s (candidates s) = 1 ∧ validRoots (rabin 2) (candidates (rabin 2)) = 0 ∧
      validRoots (rabin 986476605901) (candidates (rabin 986476605901)) = 2 ∧
      { s with rp := 0 }.rp = 0 := by decide

theorem witness_rabdecBezout : (rabin 794572723212).rp ≠ 0 ∧ (rabin 794572723212).rq ≠ 0 ∧
    (rabin 794572723212).rn = (rabin 794572723212).rp * (rabin 794572723212).rq := by decide

theorem witness_oddModulus : (rabin 2).rp ≠ 0 ∧ (rabin 2).rq ≠ 0 ∧ (rabin 2).rn % 2 = 1 ∧
    (after (fun t => t.roots) (exec .rabdec (rabin 2))).isSome = true := by decide

theorem witness_rabinRoundTrip : (rabin 0x1234).rp.Prime ∧ (rabin 0x1234).rq.Prime ∧
    (rabin 0x1234).rp ≠ (rabin 0x1234).rq ∧ (rabin 0x1234).rp % 4 = 3 ∧ (rabin 0x1234).rq % 4 = 3 ∧
    (rabin 0x1234).rn = (rabin 0x1234).rp * (rabin 0x1234).rq ∧
    (rabin 0x1234).ra * (rabin 0x1234).rp + (rabin 0x1234).rb * (rabin 0x1234).rq = 1 ∧
    (rabin 0x1234).err = .none ∧
    (rabin 0x1234).x * 65536 + (rabin 0x1234).marker.toNat < (rabin 0x1234).rn := by
  refine ⟨?_, ?_, by decide, by decide, by decide, by decide, by decide, by decide, by decide⟩
  · show Nat.Prime 1000003
    norm_num
  · show Nat.Prime 1000039
    norm_num

theorem witness_digest : (0x1FFFFF : Nat) < 2 ^ 21 ∧ [84, 101, 115, 116].Perm [116, 115, 101, 84] := by
  decide

theorem witness_rsasign : { rsa 0#32 0 with sn := 0 }.sn = 0 ∧ (rsa 0#32 0).sn ≠ 0 := by decide

theorem witness_rsavfy : (rsa 1189#32 3044).sn ≠ 0 ∧ (∃ t, exec .rsavfy (rsa 1189#32 3044) = .next t) ∧
    (∃ t, exec .rsavfy { rsa 1189#32 3044 with x := 3044 + 3233 } = .next t) ∧
    { rsa 0#32 0 with sn := 0 }.sn = 0 :=
  ⟨by decide, ⟨_, rfl⟩, ⟨_, rfl⟩, rfl⟩

theorem witness_signedDigest : Nat.Prime 61 ∧ Nat.Prime 53 ∧ 61 ≠ 53 ∧ (rsa 1189#32 0).sn = 61 * 53 ∧
    (rsa 1189#32 0).se * (rsa 1189#32 0).sd ≡ 1 [MOD (61 - 1) * (53 - 1)] :=
  ⟨by norm_num, by norm_num, by decide, by decide, by decide⟩

theorem witness_nopAndClrerr : (opcodeOf 0x01800000#32 = 0x01 ∧ (0x01800000#32 : CmdWord) ≠ 0x00000000#32 ∧
    (0x01800000#32 : CmdWord) ≠ 0x01000000#32) ∧ opcodeOf 0x00000001#32 = 0x00 ∧
    State.reset.err = .none ∧ { keyed with err := .ambiguous }.err ≠ .none := by decide

theorem witness_latchMatch : { State.reset with err := .keyNotSet }.latchMatch ∧
    ∃ t, step { State.reset with err := .keyNotSet } = .next t :=
  ⟨fun _ => rfl, ⟨_, rfl⟩⟩

theorem witness_commands : after (fun t => t.dout) (exec .desenc keyed) ≠ some keyed.dout := by
  decide +kernel

theorem witness_euclid : (17 ≠ 0 ∨ 0 ≠ 0) ∧ (0 ≠ 0 ∨ 3120 ≠ 0) ∧ 0 < 3120 ∧ Nat.gcd 17 3120 = 1 ∧
    Nat.gcd 3 3120 ≠ 1 ∧ 0 < 1 := by decide

/-- Whether a procedure failed because the signature is invalid. -/
def signatureInvalid {α : Type} : HostResult α → Bool
  | .failed .signatureInvalid _ => true
  | _ => false

/-- A signature the key does not verify. -/
theorem witness_hybridFails : signatureInvalid
    (hybridVerify ⟨[], 5, 1⟩ ⟨3233, 17, 2753⟩ State.reset) = true := by decide +kernel

/-- Values that fit their registers: a signature of the text "5" (digest 53) that the small key of
section 8 verifies, and one that it does not; the largest value that fits. -/
theorem witness_hybridVerdict : State.reset.err = .none ∧ 3233 ≠ 0 ∧
    3233 < 2 ^ State.reset.params.nbits ∧ 17 < 2 ^ State.reset.params.nbits ∧
    2 ^ 1024 - 1 < 2 ^ State.reset.params.nbits ∧
    (53 ^ 2753 % 3233) < 2 ^ State.reset.params.nbits ∧
    (53 ^ 2753 % 3233) ^ 17 % 3233 = ((decimal 5).map Char.toNat).sum % 2 ^ 32 % 3233 ∧
    1 ^ 17 % 3233 ≠ ((decimal 5).map Char.toNat).sum % 2 ^ 32 % 3233 := by decide +kernel

end Sys2Proof.Tests
end

/-! # The access port and the bound key (family `10_state`)

First the rules of the access port by register number (rules R30, R32, R50 and R84) and the rights
they give, then what a step can do to the bound key and its round keys (rules R37, R38 and R48). -/

namespace Sys2Proof.Proofs

open Sys2Proof.Machine Sys2Proof.Claims

/-! ## One host access -/

/-- A read of a register number returns what `readNum` says; nothing is checked before it. -/
theorem act_rd (num : Nat) (s : State) : act (.rd num) s = .next (returned s (readNum s num)) := rfl

/-- A read of the buffer returns what `readByte` says. -/
theorem act_rdm (addr : Nat) (s : State) :
    act (.rdm addr) s = .next (returned s (readByte s addr).toNat) := rfl

/-- A write to the buffer is `writeByte`. -/
theorem act_wrm (addr : Nat) (b : Byte) (s : State) :
    act (.wrm addr b) s = .next (writeByte s addr b) := rfl

@[simp] theorem readNum_numOfReg (s : State) (r : Reg) : readNum s (numOfReg r) = readReg s r := by
  rw [readNum, regOfNum_numOfReg]

theorem readNum_unassigned (s : State) (num : Nat) (h : regOfNum num = none) :
    readNum s num = 0 := by
  rw [readNum, h]

/-- A read of an assigned number returns its register (rule R30). -/
theorem act_rd_reg (r : Reg) (s : State) :
    act (.rd (numOfReg r)) s = .next (returned s (readReg s r)) := by
  rw [act_rd, readNum_numOfReg]

/-- A write to an unassigned number is ignored, whatever the value (rule R50). -/
theorem act_wr_unassigned (num : Nat) (v : Int) (s : State) (h : regOfNum num = none) :
    act (.wr num v) s = .next s := by
  show portWrite num v s = _
  rw [portWrite, h]

/-- CMD is writable, so a register without a range is not CMD (rules R30 and R33). -/
theorem ne_cmd_of_portRange_none {c : Params} {r : Reg} (h : portRange c r = none) :
    r ≠ .cmd := by
  rintro rfl
  cases h

/-- A write to a register whose host right lacks W is ignored, whatever the value (rule R50). -/
theorem act_wr_readOnly (r : Reg) (v : Int) (s : State) (h : portRange s.params r = none) :
    act (.wr (numOfReg r) v) s = .next s := by
  rw [act_wr_reg r (ne_cmd_of_portRange_none h), writeReg, h]

/-- A write of a value in a register's range stores it (rules R30 and R32). -/
theorem act_wr_inRange (r : Reg) (v lo hi : Int) (s : State) (hr : r ≠ .cmd)
    (hp : portRange s.params r = some (lo, hi)) (hlo : lo ≤ v) (hhi : v < hi) :
    act (.wr (numOfReg r) v) s = .next (storeReg s v r) := by
  rw [act_wr_reg r hr, writeReg, hp]
  exact if_pos ⟨hlo, hhi⟩

theorem readByte_of_lt (s : State) (a : Nat) (h : a < s.params.msgmax) :
    readByte s a = s.msg.read a := if_pos h

theorem readByte_of_le (s : State) (a : Nat) (h : s.params.msgmax ≤ a) : readByte s a = 0#8 :=
  if_neg (by omega)

theorem writeByte_of_lt (s : State) (a : Nat) (b : Byte) (h : a < s.params.msgmax) :
    writeByte s a b = { s with msg := s.msg.write a b } := if_pos h

theorem writeByte_of_le (s : State) (a : Nat) (b : Byte) (h : s.params.msgmax ≤ a) :
    writeByte s a b = s := if_neg (by omega)

/-! ## Rule R30's table by number -/

/-- The registers of rule R30's table, in the order of `portReads`. -/
def tableRegs : List Reg := lowRegs ++ bigRegs ++ (List.finRange 16).map Reg.rk

/-- `portReads` lists each register's number and what the port reads from it. -/
theorem portReads_eq (s : State) :
    portReads s = tableRegs.map fun r => (numOfReg r, readReg s r) := rfl

/-- The row of a register in the table of host writes; `none` where the host right lacks W. -/
def writeRowOf (s : State) (v : Int) (r : Reg) : Option WriteRow :=
  (portRange s.params r).map fun range => ⟨numOfReg r, range.1, range.2, storeReg s v r⟩

/-- `portWrites` lists the row of each register but CMD that has one. -/
theorem portWrites_eq (s : State) (v : Int) :
    portWrites s v = (lowRegs.tail ++ bigRegs).filterMap (writeRowOf s v) := rfl

/-- A row of `portReads` is a register of the model, by number and value. -/
theorem exists_reg_of_mem_portReads {s : State} {row : Nat × Int} (h : row ∈ portReads s) :
    ∃ r, row = (numOfReg r, readReg s r) := by
  rw [portReads_eq, List.mem_map] at h
  obtain ⟨r, -, rfl⟩ := h
  exact ⟨r, rfl⟩

/-- A row of `portWrites` is a register of the model other than CMD, by number, range and update. -/
theorem exists_reg_of_mem_portWrites {s : State} {v : Int} {row : WriteRow}
    (h : row ∈ portWrites s v) :
    ∃ r, r ≠ .cmd ∧ row.num = numOfReg r ∧ portRange s.params r = some (row.lo, row.hi) ∧
      row.written = storeReg s v r := by
  rw [portWrites_eq, List.mem_filterMap] at h
  obtain ⟨r, hmem, hrow⟩ := h
  obtain ⟨range, hrange, rfl⟩ := Option.map_eq_some_iff.1 hrow
  have hcmd : Reg.cmd ∉ lowRegs.tail ++ bigRegs := by decide
  exact ⟨r, fun hr => hcmd (hr ▸ hmem), rfl, hrange, rfl⟩

/-! ## The access rights -/

/-- The number of `RK[i]` is `0x0F + i`, with `i` counted from 1 (rule R30). -/
theorem numOfReg_rk_pred (i : Nat) (h1 : 1 ≤ i) (h16 : i ≤ 16) :
    numOfReg (.rk ⟨i - 1, by omega⟩) = 0x0F + i := by
  show 0x10 + (i - 1) = 0x0F + i
  omega

/-- A host write to a round key is ignored (rule R50). -/
theorem act_wr_roundKey (i : Nat) (h1 : 1 ≤ i) (h16 : i ≤ 16) (v : Int) (s : State) :
    act (.wr (0x0F + i) v) s = .next s := by
  rw [← numOfReg_rk_pred i h1 h16]
  exact act_wr_readOnly _ v s rfl

/-- An unassigned number reads 0 and ignores writes (rule R50). -/
theorem act_unassigned (num : Nat) (v : Int) (s : State)
    (h : (0x0C ≤ num ∧ num ≤ 0x0F) ∨ 0x2A ≤ num) :
    act (.rd num) s = .next (returned s 0) ∧ act (.wr num v) s = .next s := by
  have hnone : regOfNum num = none := (regOfNum_eq_none num).2 h
  exact ⟨by rw [act_rd, readNum_unassigned s num hnone], act_wr_unassigned num v s hnone⟩

/-- A buffer address at or beyond `MSGMAX` reads 0 and ignores writes (rules R50 and R84). -/
theorem act_beyondBuffer (addr : Nat) (b : Byte) (s : State) (h : s.params.msgmax ≤ addr) :
    act (.rdm addr) s = .next (returned s 0) ∧ act (.wrm addr b) s = .next s := by
  rw [act_rdm, act_wrm, readByte_of_le s addr h, writeByte_of_le s addr b h]
  exact ⟨rfl, rfl⟩

/-- A row of the table of host reads is what the port answers. -/
theorem act_rd_of_mem_portReads (s : State) (row : Nat × Int) (h : row ∈ portReads s) :
    act (.rd row.1) s = .next (returned s row.2) := by
  obtain ⟨r, rfl⟩ := exists_reg_of_mem_portReads h
  exact act_rd_reg r s

/-- A row of the table of host writes is what the port does with a value in the row's range. -/
theorem act_wr_of_mem_portWrites (s : State) (v : Int) (row : WriteRow) (h : row ∈ portWrites s v)
    (hlo : row.lo ≤ v) (hhi : v < row.hi) : act (.wr row.num v) s = .next row.written := by
  obtain ⟨r, hr, hnum, hrange, hwritten⟩ := exists_reg_of_mem_portWrites h
  rw [hnum, hwritten]
  exact act_wr_inRange r v row.lo row.hi s hr hrange hlo hhi

/-- Settles O9: each clause is the rule of one kind of host access. -/
theorem accessRightsAreKept : Obligations.AccessRightsAreKept := by
  intro s
  refine ⟨fun v => ⟨?status, ?dout, ?chain, ?key, ?y, ?roundKeys⟩, ?readCmd, ?unassigned, ?beyond,
    ?rd, ?rdm, ?returned, ?store, ?wrmIn, ?rdmIn, ?reads, ?writes⟩
  case status => exact act_wr_readOnly .status v s rfl
  case dout => exact act_wr_readOnly .dout v s rfl
  case chain => exact act_wr_readOnly .chain v s rfl
  case key => exact act_wr_readOnly .key v s rfl
  case y => exact act_wr_readOnly .y v s rfl
  case roundKeys => exact fun i h1 h16 => act_wr_roundKey i h1 h16 v s
  case readCmd => exact act_rd_reg .cmd s
  case unassigned => exact fun num v h => act_unassigned num v s h
  case beyond => exact fun addr b h => act_beyondBuffer addr b s h
  case rd => exact fun num => act_rd num s
  case rdm => exact fun addr => act_rdm addr s
  case returned => exact fun _ => rfl
  case store => exact fun r v lo hi hr hp hlo hhi => act_wr_inRange r v lo hi s hr hp hlo hhi
  case wrmIn =>
    intro addr b h
    rw [act_wrm, writeByte_of_lt s addr b h]
  case rdmIn =>
    intro addr h
    rw [act_rdm, readByte_of_lt s addr h]
  case reads => exact act_rd_of_mem_portReads s
  case writes => exact act_wr_of_mem_portWrites s

/-! ## The bound key and its round keys -/

/-- `t` has the key material of `s`: KEYV, KEY and RK[1..16] (rules R37 and R38). -/
structure SameKeys (s t : State) : Prop where
  keyv : t.keyv = s.keyv
  key : t.key = s.key
  rk : t.rk = s.rk

/-- Round keys that match the bound key still do when the key material is kept. -/
theorem SameKeys.keysMatch {s t : State} (h : SameKeys s t) (hs : s.keysMatch) : t.keysMatch := by
  intro hbound
  rw [h.rk, h.key]
  exact hs (h.keyv ▸ hbound)

/-- With no key bound there is nothing to match. -/
theorem keysMatch_of_unbound {s : State} (h : s.keyv = false) : s.keysMatch := by
  intro hbound
  rw [h] at hbound
  cases hbound

theorem sameKeys_withTodo (s : State) (rest : List Action) : SameKeys s (withTodo s rest) :=
  ⟨rfl, rfl, rfl⟩

theorem sameKeys_returned (s : State) (v : Int) : SameKeys s (returned s v) := ⟨rfl, rfl, rfl⟩

theorem sameKeys_clearErr (s : State) : SameKeys s (clearErr s) := ⟨rfl, rfl, rfl⟩

theorem sameKeys_err (s : State) (k : Err) : SameKeys s { s with err := k } := ⟨rfl, rfl, rfl⟩

theorem sameKeys_storeReg (s : State) (v : Int) (r : Reg) : SameKeys s (storeReg s v r) := by
  cases r <;> exact ⟨rfl, rfl, rfl⟩

theorem sameKeys_writeReg {s t : State} {v : Int} {r : Reg} (h : writeReg s v r = .next t) :
    SameKeys s t := by
  rcases writeReg_cases s v r with ⟨-, e⟩ | ⟨_, _, -, -, -, e⟩ | ⟨_, _, -, -, e⟩ <;>
    rw [e] at h <;> cases h
  · exact ⟨rfl, rfl, rfl⟩
  · exact sameKeys_storeReg s v r

theorem sameKeys_writeByte (s : State) (a : Nat) (b : Byte) : SameKeys s (writeByte s a b) := by
  rcases writeByte_cases s a b with ⟨-, e⟩ | ⟨-, e⟩ <;> rw [e] <;> exact ⟨rfl, rfl, rfl⟩

/-- DESKEY binds the key in DIN with its schedule (rule R146). -/
theorem exec_deskey (s : State) :
    exec .deskey s = .next { s with key := s.din, rk := keySchedule s.din, keyv := true } := rfl

/-- Every command but DESKEY keeps the key material, whether it completes or raises (rules R30 and
R256). -/
theorem sameKeys_exec {i : Instr} (hi : i ≠ .deskey) {s t : State} (h : exec i s = .next t) :
    SameKeys s t := by
  cases i with
  | deskey => exact absurd rfl hi
  | nop | clrerr | cbcinit | mrtest | dgclr | dgadd => cases h; exact ⟨rfl, rfl, rfl⟩
  | desenc | desdec | cbcenc | cbcdec =>
    simp only [exec, execDesenc, execDesdec, execCbcenc, execCbcdec] at h
    split at h <;> cases h <;> exact ⟨rfl, rfl, rfl⟩
  | rabenc | rsasign | rsavfy =>
    simp only [exec, execRabenc, execRsasign, execRsavfy] at h
    split at h <;> cases h <;> exact ⟨rfl, rfl, rfl⟩
  | xencm | xdecm =>
    simp only [exec, execXencm, execXdecm] at h
    split at h
    · split at h <;> cases h <;> exact ⟨rfl, rfl, rfl⟩
    · cases h; exact ⟨rfl, rfl, rfl⟩
  | rabdec =>
    simp only [exec, execRabdec] at h
    split at h
    · cases h; exact ⟨rfl, rfl, rfl⟩
    · split at h
      · cases h; exact ⟨rfl, rfl, rfl⟩
      · split at h <;> cases h <;> exact ⟨rfl, rfl, rfl⟩

/-- Every command keeps rule R48: DESKEY establishes it, the others touch no key material. -/
theorem keysMatch_exec {i : Instr} {s t : State} (hs : s.keysMatch) (h : exec i s = .next t) :
    t.keysMatch := by
  by_cases hi : i = .deskey
  · subst hi
    rw [exec_deskey] at h
    cases h
    exact fun _ => rfl
  · exact (sameKeys_exec hi h).keysMatch hs

/-- A word written to CMD keeps rule R48, executed or refused. -/
theorem keysMatch_issue {w : CmdWord} {s t : State} (hs : s.keysMatch) (h : issue w s = .next t) :
    t.keysMatch := by
  rcases issue_cases w s with ⟨-, -, e⟩ | ⟨-, -, e⟩ | ⟨-, -, -, e⟩ | ⟨-, i, -, e⟩ | ⟨-, -, e⟩ <;>
    rw [e] at h
  · cases h; exact hs
  · cases h; exact (sameKeys_clearErr s).keysMatch hs
  · cases h; exact hs
  · exact keysMatch_exec hs h
  · cases h; exact (sameKeys_err s .illegalCommand).keysMatch hs

/-- Every host action and the reset event keep rule R48; reset leaves no key bound. -/
theorem keysMatch_act {a : Action} {s t : State} (hs : s.keysMatch) (h : act a s = .next t) :
    t.keysMatch := by
  rcases act_cases a s t h with ⟨_, -, -, -, hissue⟩ | ⟨_, _, -, -, rfl⟩ |
    ⟨_, _, _, -, -, -, hwrite⟩ | ⟨_, -, rfl⟩ | ⟨_, _, -, rfl⟩ | ⟨_, -, rfl⟩ | ⟨-, rfl⟩
  · exact keysMatch_issue hs hissue
  · exact hs
  · exact (sameKeys_writeReg hwrite).keysMatch hs
  · exact (sameKeys_returned s _).keysMatch hs
  · exact (sameKeys_writeByte s _ _).keysMatch hs
  · exact (sameKeys_returned s _).keysMatch hs
  · exact keysMatch_of_unbound (applyReset_keyv s)

/-- Every step keeps rule R48. -/
theorem keysMatch_step {s t : State} (hs : s.keysMatch) (h : step s = .next t) : t.keysMatch := by
  cases htodo : s.host.todo with
  | nil =>
    rw [step_idle s htodo] at h
    cases h
    exact hs
  | cons a rest =>
    rw [step_cons s a rest htodo] at h
    exact keysMatch_act ((sameKeys_withTodo s rest).keysMatch hs) h

/-- Settles O19: no key is bound after reset, and every step keeps rule R48. -/
theorem boundKeyMatchesItsRoundKeys : Obligations.BoundKeyMatchesItsRoundKeys :=
  ⟨keysMatch_of_unbound rfl, fun _ _ hs h => keysMatch_step hs h⟩

end Sys2Proof.Proofs

/-! # The opcode table and the decoder (family `30_encoding`)

The table of rule R94 gives its rows as mask and match, the decoder reads the fields of rule R90. First
what a mask and match of the table say about the fields, then that the two select the same words. -/

namespace Sys2Proof.Proofs

open Sys2Proof.Machine Sys2Proof.Claims

/-! ## Masks and fields -/

/-- A mask of ones above bit `k` clears the `k` bits below it. -/
theorem toNat_and_highMask (w : CmdWord) (k : Nat) :
    (w &&& BitVec.allOnes 32 <<< k).toNat = w.toNat / 2 ^ k * 2 ^ k := by
  have hle : w.toNat / 2 ^ k * 2 ^ k < 2 ^ 32 := (Nat.div_mul_le_self _ _).trans_lt w.isLt
  rw [← BitVec.shiftLeft_ushiftRight, BitVec.toNat_shiftLeft, BitVec.toNat_ushiftRight,
    Nat.shiftRight_eq_div_pow, Nat.shiftLeft_eq, Nat.mod_eq_of_lt hle]

/-- A mask of `k` low ones reads the field of `k` low bits. -/
theorem toNat_and_lowMask (w : CmdWord) (k : Nat) (hk : k ≤ 32) :
    (w &&& BitVec.ofNat 32 (2 ^ k - 1)).toNat = (w.extractLsb' 0 k).toNat := by
  have hpow : 2 ^ k ≤ 2 ^ 32 := Nat.pow_le_pow_right (by decide) hk
  have hpos : 0 < 2 ^ k := Nat.two_pow_pos k
  rw [BitVec.toNat_and, BitVec.toNat_ofNat, Nat.mod_eq_of_lt (by omega),
    Nat.and_two_pow_sub_one_eq_mod, BitVec.extractLsb'_toNat, Nat.shiftRight_zero]

theorem opcodeOf_eq_div (w : CmdWord) : opcodeOf w = w.toNat / 2 ^ 24 := by
  have := w.isLt
  rw [opcodeOf, BitVec.extractLsb'_toNat, Nat.shiftRight_eq_div_pow]
  omega

/-- Multiples of `2 ^ k`, split at bit 24 into a quotient and the bits from `k` up to it. -/
theorem div_mul_pow_eq_iff (n opc k : Nat) (hk : k ≤ 24) :
    n / 2 ^ k * 2 ^ k = opc * 2 ^ 24 ↔ n / 2 ^ 24 = opc ∧ n / 2 ^ k % 2 ^ (24 - k) = 0 := by
  have hpow : 2 ^ 24 = 2 ^ k * 2 ^ (24 - k) := by rw [← Nat.pow_add, Nat.add_sub_cancel' hk]
  have hmul : opc * (2 ^ k * 2 ^ (24 - k)) = 2 ^ (24 - k) * opc * 2 ^ k := by ring
  rw [hpow, ← Nat.div_div_eq_div_mul, Nat.div_mod_unique (Nat.two_pow_pos _), hmul,
    Nat.mul_left_inj (Nat.two_pow_pos k).ne', Nat.zero_add, eq_comm]
  exact ⟨fun h => ⟨h, Nat.two_pow_pos _⟩, And.left⟩

/-- A mask of ones above bit `k` and an opcode as match select the words of that opcode whose bits from
`k` up to the opcode are 0 (rules R90 and R94). -/
theorem and_highMask_eq_iff (w : CmdWord) (opc : BitVec 8) (k : Nat) (hk : k ≤ 24) :
    w &&& BitVec.allOnes 32 <<< k = opc ++ 0#24 ↔
      opcodeOf w = opc.toNat ∧ w.extractLsb' k (24 - k) = 0#(24 - k) := by
  rw [← BitVec.toNat_inj, toNat_and_highMask, toNat_opcode_append, BitVec.toNat_zero, Nat.add_zero,
    div_mul_pow_eq_iff _ _ _ hk, opcodeOf_eq_div, ← BitVec.toNat_inj, BitVec.extractLsb'_toNat,
    Nat.shiftRight_eq_div_pow, BitVec.toNat_zero]

/-! ## The rows of the table -/

/-- The number of low bits that hold the operand: `rounds` (rule R92), `cp` (rule R93), none (rule
R91). -/
def operandWidth : Instr → Nat
  | .mrtest _ => 16
  | .dgadd _ => 21
  | _ => 0

/-- The command of a kind with the operand field of a word as operand. -/
def withOperandOf : Instr → CmdWord → Instr
  | .mrtest _, w => .mrtest (w &&& 0xFFFF#32).toNat
  | .dgadd _, w => .dgadd (w &&& 0x1FFFFF#32).toNat
  | i, _ => i

/-- The row of a command in the table of rule R94; its operand does not matter. -/
def rowOf (i : Instr) : CmdWord × CmdWord × (CmdWord → Instr) :=
  (BitVec.ofNat 8 (opcodeFor i) ++ 0#24, BitVec.allOnes 32 <<< operandWidth i, withOperandOf i)

/-- One command of each row, in the order of the table. -/
def tableCommands : List Instr :=
  [.nop, .clrerr, .deskey, .desenc, .desdec, .cbcinit, .cbcenc, .cbcdec, .xencm, .xdecm, .mrtest 0,
    .rabenc, .rabdec, .dgclr, .dgadd 0, .rsasign, .rsavfy]

theorem opcodeRows_eq : opcodeRows = tableCommands.map rowOf := rfl

theorem exists_rowOf_of_mem {row : CmdWord × CmdWord × (CmdWord → Instr)} (h : row ∈ opcodeRows) :
    ∃ i, row = rowOf i := by
  rw [opcodeRows_eq, List.mem_map] at h
  obtain ⟨i, -, rfl⟩ := h
  exact ⟨i, rfl⟩

/-- Every command has its row in the table. -/
theorem rowOf_mem (i : Instr) : rowOf i ∈ opcodeRows := by
  rw [opcodeRows_eq, List.mem_map]
  cases i with
  | mrtest rounds => exact ⟨.mrtest 0, by decide, rfl⟩
  | dgadd cp => exact ⟨.dgadd 0, by decide, rfl⟩
  | _ => exact ⟨_, by decide, rfl⟩

theorem operandWidth_le (i : Instr) : operandWidth i ≤ 24 := by
  unfold operandWidth
  split <;> decide

theorem opcodeFor_lt (i : Instr) : opcodeFor i < 2 ^ 8 := by
  unfold opcodeFor
  split <;> decide

/-- What it means that a row selects a word, in the fields of rule R90: the row's opcode, and 0 in the
bits between it and the operand. -/
theorem rowOf_selects_iff (w : CmdWord) (i : Instr) :
    w &&& (rowOf i).2.1 = (rowOf i).1 ↔ opcodeOf w = opcodeFor i ∧
      w.extractLsb' (operandWidth i) (24 - operandWidth i) = 0#(24 - operandWidth i) := by
  rw [rowOf, and_highMask_eq_iff w _ _ (operandWidth_le i), BitVec.toNat_ofNat,
    Nat.mod_eq_of_lt (opcodeFor_lt i)]

/-- A row selects words of its own opcode only. -/
theorem opcodeOf_eq_of_selected {row : CmdWord × CmdWord × (CmdWord → Instr)} {w : CmdWord}
    (hmem : row ∈ opcodeRows) (hw : w &&& row.2.1 = row.1) : opcodeOf w = opcodeOf row.1 := by
  obtain ⟨i, rfl⟩ := exists_rowOf_of_mem hmem
  rw [((rowOf_selects_iff w i).1 hw).1, rowOf, opcodeOf_append, BitVec.toNat_ofNat,
    Nat.mod_eq_of_lt (opcodeFor_lt i)]

/-! ## The decoder -/

theorem decode_mrtest {w : CmdWord} (hopc : opcodeOf w = 0x30) (hres : w.extractLsb' 16 8 = 0#8) :
    decode w = .ok (.mrtest (w.extractLsb' 0 16).toNat) := by
  rw [decode, if_pos hopc, if_pos hres]

theorem decode_dgadd {w : CmdWord} (hopc : opcodeOf w = 0x51) (hres : w.extractLsb' 21 3 = 0#3) :
    decode w = .ok (.dgadd (w.extractLsb' 0 21).toNat) := by
  rw [decode, if_neg (by omega), if_pos hopc, if_pos hres]

theorem decode_formatN {w : CmdWord} {i : Instr} (hopc : formatN (opcodeOf w) = some i)
    (hres : w.extractLsb' 0 24 = 0#24) : decode w = .ok i := by
  have hR : opcodeOf w ≠ 0x30 := by
    intro h
    rw [h] at hopc
    cases hopc
  have hC : opcodeOf w ≠ 0x51 := by
    intro h
    rw [h] at hopc
    cases hopc
  simp only [decode, if_neg hR, if_neg hC, hopc, if_pos hres]

/-- A word that a row of the table selects decodes to the row's command. -/
theorem decode_of_rowOf_selects {w : CmdWord} {i : Instr} (h : w &&& (rowOf i).2.1 = (rowOf i).1) :
    decode w = .ok ((rowOf i).2.2 w) := by
  obtain ⟨hopc, hres⟩ := (rowOf_selects_iff w i).1 h
  cases i with
  | mrtest rounds =>
    rw [decode_mrtest hopc hres, ← toNat_and_lowMask w 16 (by decide)]
    rfl
  | dgadd cp =>
    rw [decode_dgadd hopc hres, ← toNat_and_lowMask w 21 (by decide)]
    rfl
  | _ => exact decode_formatN (by rw [hopc]; rfl) hres

theorem operandWidth_of_formatN {opc : Nat} {i : Instr} (h : formatN opc = some i) :
    operandWidth i = 0 := by
  obtain ⟨hopc, -, -⟩ := formatN_eq_some opc i h
  subst hopc
  cases i with
  | mrtest rounds => cases h
  | dgadd cp => cases h
  | _ => rfl

/-- A word that decodes is selected by the row of its command. -/
theorem rowOf_selects_of_decode {w : CmdWord} {i : Instr} (h : decode w = .ok i) :
    w &&& (rowOf i).2.1 = (rowOf i).1 := by
  rw [rowOf_selects_iff]
  rcases decode_cases w with ⟨hopc, hres, e⟩ | ⟨hopc, hres, e⟩ | ⟨j, hopc, hres, e⟩ | ⟨_, e⟩ <;>
    rw [e] at h <;> cases h
  · exact ⟨hopc, hres⟩
  · exact ⟨hopc, hres⟩
  · rw [operandWidth_of_formatN hopc]
    exact ⟨(formatN_eq_some _ _ hopc).1.symm, hres⟩

/-- A word that no row selects decodes to no command (rule R95). -/
theorem decode_eq_error_of_unselected {w : CmdWord} (h : ∀ row ∈ opcodeRows, w &&& row.2.1 ≠ row.1) :
    ∃ r, decode w = .error r := by
  cases hd : decode w with
  | error r => exact ⟨r, rfl⟩
  | ok i => exact absurd (rowOf_selects_of_decode hd) (h _ (rowOf_mem i))

/-- The 17 opcodes of the table are different. -/
theorem opcodeRows_pairwise_opcodeOf_ne :
    opcodeRows.Pairwise fun r r' => opcodeOf r.1 ≠ opcodeOf r'.1 := by decide

/-- Settles O3: mask and match of a row say what its format's fields are, and the opcode alone keeps
two rows apart. -/
theorem wordSelectsByMaskAndMatch : Obligations.WordSelectsByMaskAndMatch := by
  refine ⟨fun w row hmem hw => ?selected, fun w h => decode_eq_error_of_unselected h, ?disjoint⟩
  case selected =>
    obtain ⟨i, rfl⟩ := exists_rowOf_of_mem hmem
    exact decode_of_rowOf_selects hw
  case disjoint =>
    refine opcodeRows_pairwise_opcodeOf_ne.imp_of_mem fun hr hr' hne w ⟨hw, hw'⟩ => hne ?_
    rw [← opcodeOf_eq_of_selected hr hw, opcodeOf_eq_of_selected hr' hw']

/-! ## An illegal word at the command port -/

/-- The port carries every 32-bit word, so writing one to CMD issues it (rule R33). -/
theorem act_wr_cmd_word (w : CmdWord) (s : State) : act (.wr 0 w.toNat) s = issue w s := by
  have hw := w.isLt
  rw [act_wr_cmd _ _ ⟨by omega, by omega⟩, Int.toNat_natCast, BitVec.ofNat_toNat,
    BitVec.setWidth_eq]

/-- A word that decodes to no command raises IllegalCommand when no error is latched (rule R101). -/
theorem issue_of_decode_error {w : CmdWord} {s : State} {r : Reject} (herr : s.err = .none)
    (hd : decode w = .error r) : issue w s = .next { s with err := .illegalCommand } := by
  rcases issue_cases w s with ⟨hlatched, -, -⟩ | ⟨hlatched, -, -⟩ | ⟨hlatched, -, -, -⟩ |
    ⟨-, i, hi, -⟩ | ⟨-, -, e⟩
  · exact absurd herr hlatched
  · exact absurd herr hlatched
  · exact absurd herr hlatched
  · rw [hd] at hi
    cases hi
  · exact e

/-- Settles O8: a word that no row selects has no command, so the port raises IllegalCommand. -/
theorem illegalWordLatchesIllegalCommand : Obligations.IllegalWordLatchesIllegalCommand := by
  intro s w herr hunselected
  obtain ⟨r, hd⟩ := decode_eq_error_of_unselected hunselected
  exact ⟨by rw [act_wr_cmd_word, issue_of_decode_error herr hd], rfl⟩

end Sys2Proof.Proofs

/-! # The DES network (family `40_des_network`)

Rules R111 to R126. A permutation is its table: what is said of it is said of the table's entries.
The S-box layer appends one hexadecimal digit a group, so its nibbles are the digits of the number it
builds. -/

namespace Sys2Proof.Proofs

open Sys2Proof.Machine Sys2Proof.Claims

/-! ## Permutations -/

/-- A permutation read from the most significant end: entry `j` of the table says which position
output position `j` comes from (rule R111). -/
theorem permute_getMsbD {w m : Nat} (table : List Nat) (v : BitVec w) (hm : table.length = m)
    (hrange : ∀ i ∈ table, 1 ≤ i ∧ i ≤ w) (j : Nat) (hj : j < table.length) :
    (permute m table v).getMsbD j = v.getMsbD (table[j] - 1) := by
  obtain ⟨hlo, hhi⟩ := hrange _ (List.getElem_mem hj)
  rw [BitVec.getMsbD_eq_getLsbD, BitVec.getMsbD_eq_getLsbD,
    permute_getLsbD m table v hm _ (by omega), show m - 1 - (m - 1 - j) = j by omega,
    List.getD_eq_getElem _ _ hj, show w - 1 - (table[j] - 1) = w - table[j] by omega,
    decide_eq_true (by omega : j < m), decide_eq_true (by omega : table[j] - 1 < w)]

/-- Settles O22: the bit the table's fold puts there, counted from the most significant end. -/
theorem permutationReadsItsTable : Obligations.PermutationReadsItsTable :=
  fun _ _ table v hm hrange j hj => permute_getMsbD table v hm hrange j hj

/-- The table that lists every position in order permutes nothing. -/
theorem permute_positions {w : Nat} (v : BitVec w) : permute w (List.range' 1 w) v = v := by
  refine BitVec.eq_of_getMsbD_eq fun j hj => ?_
  rw [permute_getMsbD _ v (by simp) (by simp; omega) j (by simpa using hj)]
  simp

/-- Two permutations of `w` bits cancel when the first one's table, read at the second one's, lists
every position in order. -/
theorem permute_permute_eq_self {w : Nat} {t1 t2 : List Nat} (v : BitVec w) (h1 : t1.length = w)
    (h2 : t2.length = w) (hrange : ∀ i ∈ t2, 1 ≤ i ∧ i ≤ w)
    (hinv : t2.map (fun i => t1.getD (i - 1) 0) = List.range' 1 w) :
    permute w t2 (permute w t1 v) = v := by
  rw [permute_permute w w t1 t2 v h1 h2 hrange, hinv, permute_positions]

theorem ipTable_at_fpTable :
    fpTable.map (fun i => ipTable.getD (i - 1) 0) = List.range' 1 64 := by decide

theorem fpTable_at_ipTable :
    ipTable.map (fun i => fpTable.getD (i - 1) 0) = List.range' 1 64 := by decide

theorem finalPerm_initialPerm (v : Block) : finalPerm (initialPerm v) = v :=
  permute_permute_eq_self v rfl rfl (by decide) ipTable_at_fpTable

theorem initialPerm_finalPerm (v : Block) : initialPerm (finalPerm v) = v :=
  permute_permute_eq_self v rfl rfl (by decide) fpTable_at_ipTable

/-- Entry by entry, `IP_TABLE[FP_TABLE[j]] = j` (rule R114). -/
theorem ipTable_getD_fpTable (j : Nat) (h1 : 1 ≤ j) (h64 : j ≤ 64) :
    ipTable.getD (fpTable.getD (j - 1) 0 - 1) 0 = j := by
  have hlen : fpTable.length = 64 := rfl
  have hentry : (fpTable.map fun i => ipTable.getD (i - 1) 0)[j - 1]? = some j := by
    rw [ipTable_at_fpTable, List.getElem?_range' (by omega)]
    congr 1
    omega
  rw [List.getElem?_map, List.getElem?_eq_getElem (by omega)] at hentry
  rw [List.getD_eq_getElem fpTable 0 (by omega)]
  exact Option.some.inj hentry

/-- Settles O23: each table read at the other lists the 64 positions in order. -/
theorem finalPermutationInvertsInitial : Obligations.FinalPermutationInvertsInitial :=
  ⟨finalPerm_initialPerm, initialPerm_finalPerm, ipTable_getD_fpTable⟩

/-! ## The S-box layer -/

/-- Bit `5 - k` of group `j` is position `6j + k` of the input, all counted from 0 (rule R117). -/
theorem sboxGroup_testBit (x : BitVec 48) (j k : Nat) (hj : j < 8) (hk : k < 6) :
    (sboxGroup x (42 - 6 * j)).testBit (5 - k) = x.getMsbD (6 * j + k) := by
  rw [sboxGroup, show 64 = 2 ^ 6 from rfl, Nat.testBit_mod_two_pow, Nat.testBit_shiftRight,
    BitVec.getMsbD_eq_getLsbD, BitVec.getLsbD,
    show 42 - 6 * j + (5 - k) = 48 - 1 - (6 * j + k) by omega,
    decide_eq_true (by omega : 5 - k < 6), decide_eq_true (by omega : 6 * j + k < 48)]

theorem toNat_getMsbD_group (x : BitVec 48) (j k : Nat) (hj : j < 8) (hk : k < 6) :
    (x.getMsbD (6 * j + k)).toNat = sboxGroup x (42 - 6 * j) / 2 ^ (5 - k) % 2 := by
  rw [← sboxGroup_testBit x j k hj hk, Nat.toNat_testBit]

/-- The row of a group is its two outer bits (rule R117). -/
theorem sboxRow_group (x : BitVec 48) (j : Nat) (hj : j < 8) :
    sboxRow (sboxGroup x (42 - 6 * j)) =
      2 * (x.getMsbD (6 * j)).toNat + (x.getMsbD (6 * j + 5)).toNat := by
  have h0 := toNat_getMsbD_group x j 0 hj (by decide)
  have h5 := toNat_getMsbD_group x j 5 hj (by decide)
  rw [Nat.add_zero] at h0
  rw [sboxRow]
  omega

/-- The column of a group is its four inner bits (rule R117). -/
theorem sboxCol_group (x : BitVec 48) (j : Nat) (hj : j < 8) :
    sboxCol (sboxGroup x (42 - 6 * j)) =
      8 * (x.getMsbD (6 * j + 1)).toNat + 4 * (x.getMsbD (6 * j + 2)).toNat +
        2 * (x.getMsbD (6 * j + 3)).toNat + (x.getMsbD (6 * j + 4)).toNat := by
  have h1 := toNat_getMsbD_group x j 1 hj (by decide)
  have h2 := toNat_getMsbD_group x j 2 hj (by decide)
  have h3 := toNat_getMsbD_group x j 3 hj (by decide)
  have h4 := toNat_getMsbD_group x j 4 hj (by decide)
  rw [sboxCol]
  omega

/-- What holds of every entry of a list and of the default holds of whatever is read from it. -/
theorem getD_of_forall_mem {α : Type} {p : α → Prop} {l : List α} {d : α} (hl : ∀ a ∈ l, p a)
    (hd : p d) (n : Nat) : p (l.getD n d) := by
  rcases Nat.lt_or_ge n l.length with hn | hn
  · rw [List.getD_eq_getElem l d hn]
    exact hl _ (List.getElem_mem hn)
  · rwa [List.getD_eq_default l d hn]

/-- The entries of the eight tables are nibbles (rules R118 to R125). -/
theorem sTables_entry_lt : ∀ table ∈ sTables, ∀ row ∈ table, ∀ entry ∈ row, entry < 16 := by
  decide

theorem sboxEntry_lt {table : List (List Nat)} (h : table ∈ sTables) (g : Nat) :
    sboxEntry table g < 16 := by
  have hrow := getD_of_forall_mem (d := []) (sTables_entry_lt table h) (by simp) (sboxRow g)
  exact getD_of_forall_mem hrow (by decide) (sboxCol g)

/-- The outputs of the S-boxes, one hexadecimal digit each, are appended below the accumulator. -/
theorem sboxesFrom_div (x : BitVec 48) (tables : List (List (List Nat))) (shift acc : Nat)
    (hlt : ∀ table ∈ tables, ∀ g, sboxEntry table g < 16) :
    sboxesFrom x tables shift acc / 16 ^ tables.length = acc := by
  induction tables generalizing shift acc with
  | nil => simp [sboxesFrom]
  | cons table rest ih =>
    have hentry := hlt table (by simp) (sboxGroup x shift)
    rw [sboxesFrom, List.length_cons, Nat.pow_succ, ← Nat.div_div_eq_div_mul,
      ih _ _ fun t ht => hlt t (by simp [ht])]
    omega

/-- Digit `j` of the S-boxes' outputs, from the most significant, is the entry of table `j` for the
group `6j` bits below the first (rule R126). -/
theorem sboxesFrom_digit (x : BitVec 48) (tables : List (List (List Nat))) (shift acc j : Nat)
    (hj : j < tables.length) (hlt : ∀ table ∈ tables, ∀ g, sboxEntry table g < 16) :
    sboxesFrom x tables shift acc / 16 ^ (tables.length - 1 - j) % 16 =
      sboxEntry (tables.getD j []) (sboxGroup x (shift - 6 * j)) := by
  induction tables generalizing shift acc j with
  | nil => cases hj
  | cons table rest ih =>
    have hrest : ∀ t ∈ rest, ∀ g, sboxEntry t g < 16 := fun t ht => hlt t (by simp [ht])
    cases j with
    | zero =>
      have hentry := hlt table (by simp) (sboxGroup x shift)
      rw [sboxesFrom, List.length_cons, Nat.add_sub_cancel, Nat.sub_zero,
        sboxesFrom_div x rest _ _ hrest, List.getD_cons_zero, Nat.mul_zero, Nat.sub_zero]
      omega
    | succ j =>
      rw [List.length_cons] at hj ⊢
      rw [sboxesFrom, show rest.length + 1 - 1 - (j + 1) = rest.length - 1 - j by omega,
        ih _ _ j (by omega) hrest, List.getD_cons_succ,
        show shift - 6 - 6 * j = shift - 6 * (j + 1) by omega]

/-- A field of a number's word is the field of the number, when it lies inside the word. -/
theorem extractLsb'_ofNat_eq (n : Nat) {w start len : Nat} (h : start + len ≤ w) :
    (BitVec.ofNat w n).extractLsb' start len = BitVec.ofNat len (n / 2 ^ start) := by
  have hsplit : 2 ^ w = 2 ^ start * 2 ^ (w - start) := by
    rw [← Nat.pow_add, Nat.add_sub_cancel' (by omega)]
  apply BitVec.eq_of_toNat_eq
  rw [BitVec.extractLsb'_toNat, BitVec.toNat_ofNat, BitVec.toNat_ofNat, Nat.shiftRight_eq_div_pow,
    hsplit, Nat.mod_mul_right_div_self, Nat.mod_mod_of_dvd _ (Nat.pow_dvd_pow 2 (by omega))]

/-- Nibble `j` of the S-box layer, from the most significant, is the output of S-box `j + 1`. -/
theorem sboxes_nibble (x : BitVec 48) (j : Nat) (hj : j < 8) :
    (sboxes x).extractLsb' (28 - 4 * j) 4 =
      BitVec.ofNat 4 (sboxEntry (sTables.getD j []) (sboxGroup x (42 - 6 * j))) := by
  have hpow : 2 ^ (28 - 4 * j) = 16 ^ (sTables.length - 1 - j) := by
    rw [show sTables.length = 8 from rfl, show 28 - 4 * j = 4 * (8 - 1 - j) by omega, Nat.pow_mul]
  rw [sboxes, extractLsb'_ofNat_eq _ (by omega), hpow,
    ← sboxesFrom_digit x sTables 42 0 j hj fun _ ht g => sboxEntry_lt ht g]
  apply BitVec.eq_of_toNat_eq
  simp

/-- Settles O24: the nibble is its S-box's entry, whose row and column are bits of the input. -/
theorem sboxesReadTheirTables : Obligations.SboxesReadTheirTables := by
  intro x j hj
  rw [sboxes_nibble x j hj, sboxEntry, sboxRow_group x j hj, sboxCol_group x j hj]

end Sys2Proof.Proofs

/-! # The DES key schedule (family `41_des_key_schedule`)

Rules R140 to R147. The half of round `i` is the first half rotated by the first `i` shifts, one after
another; everything a key contributes to its round keys goes through PC-1. -/

namespace Sys2Proof.Proofs

open Sys2Proof.Machine Sys2Proof.Claims

/-! ## The rotations accumulate -/

/-- `C_i` or `D_i`: the half rotated by the first `i` of the listed shifts in turn (rule R142). -/
def halfAfter (shifts : List Nat) (half : KeyHalf) (i : Nat) : KeyHalf :=
  (shifts.take i).foldl rotl28 half

/-- A round rotates the half of the round before it, not the first one. -/
theorem halfAfter_succ {shifts : List Nat} {i shift : Nat} (h : shifts[i]? = some shift)
    (half : KeyHalf) : halfAfter shifts half (i + 1) = rotl28 (halfAfter shifts half i) shift := by
  rw [halfAfter, List.take_add_one, h, List.foldl_append]
  rfl

/-- The model's rotation of a half is the library's, for every shift below the width (rule R15). -/
theorem rotl28_eq_rotateLeft (half : KeyHalf) {shift : Nat} (h : shift < 28) :
    rotl28 half shift = half.rotateLeft shift :=
  (BitVec.rotateLeft_eq_rotateLeftAux_of_lt h).symm

/-- Each round key is PC-2 of the two accumulated halves of its round (rule R143). -/
theorem roundKeysFrom_getElem? (shifts : List Nat) (c d : KeyHalf) (i : Nat)
    (h : i < shifts.length) :
    (roundKeysFrom shifts c d)[i]? =
      some (pc2 (halfAfter shifts c (i + 1) ++ halfAfter shifts d (i + 1))) := by
  induction shifts generalizing c d i with
  | nil => cases h
  | cons shift rest ih =>
    cases i with
    | zero => rfl
    | succ i => exact ih _ _ i (Nat.lt_of_succ_lt_succ h)

theorem keySchedule_getElem? (k : Block) (i : Nat) (h : i < 16) :
    (keySchedule k).toList[i]? =
      some (pc2 (halfAfter shiftSchedule (c0 k) (i + 1) ++
        halfAfter shiftSchedule (d0 k) (i + 1))) :=
  roundKeysFrom_getElem? shiftSchedule _ _ i h

/-- `SHIFT[i]` by rounds (rule R141). -/
theorem shiftSchedule_getElem? : ∀ i < 16, shiftSchedule[i]? =
    some (if i + 1 = 1 ∨ i + 1 = 2 ∨ i + 1 = 9 ∨ i + 1 = 16 then 1 else 2) := by decide

theorem halfAfter_shiftSchedule_succ (half : KeyHalf) (i : Nat) (h : i < 16) :
    halfAfter shiftSchedule half (i + 1) = (halfAfter shiftSchedule half i).rotateLeft
      (if i + 1 = 1 ∨ i + 1 = 2 ∨ i + 1 = 9 ∨ i + 1 = 16 then 1 else 2) := by
  rw [halfAfter_succ (shiftSchedule_getElem? i h), rotl28_eq_rotateLeft _ (by split <;> decide)]

/-- Settles O25: `C_i` and `D_i` are the accumulated halves. -/
theorem roundKeysFollowTheSchedule : Obligations.RoundKeysFollowTheSchedule := by
  intro k
  refine ⟨halfAfter shiftSchedule (c0 k), halfAfter shiftSchedule (d0 k), rfl, rfl, ?_⟩
  intro i h1 h16
  obtain ⟨n, rfl⟩ := Nat.exists_eq_add_of_le' h1
  have hn : n < 16 := by omega
  exact ⟨halfAfter_shiftSchedule_succ _ n hn, halfAfter_shiftSchedule_succ _ n hn,
    keySchedule_getElem? k n hn⟩

/-! ## The shifts of a whole schedule -/

theorem rotateLeft_zero {w : Nat} (x : BitVec w) : x.rotateLeft 0 = x := by
  refine BitVec.eq_of_getMsbD_eq fun i hi => ?_
  simp only [BitVec.getMsbD_rotateLeft, hi, decide_true, Bool.true_and, Nat.zero_add,
    Nat.mod_eq_of_lt hi]

/-- Rotations of a word add up. -/
theorem rotateLeft_rotateLeft {w : Nat} (x : BitVec w) (m n : Nat) :
    (x.rotateLeft m).rotateLeft n = x.rotateLeft (m + n) := by
  refine BitVec.eq_of_getMsbD_eq fun i hi => ?_
  have hlt : (n + i) % w < w := Nat.mod_lt _ (by omega)
  simp only [BitVec.getMsbD_rotateLeft, hi, hlt, decide_true, Bool.true_and, Nat.add_mod_mod,
    Nat.add_assoc]

/-- Shifts performed one after another are one rotation by their sum. -/
theorem foldl_rotl28 (shifts : List Nat) (half : KeyHalf) (h : ∀ shift ∈ shifts, shift < 28) :
    shifts.foldl rotl28 half = half.rotateLeft shifts.sum := by
  induction shifts generalizing half with
  | nil => exact (rotateLeft_zero half).symm
  | cons shift rest ih =>
    rw [List.foldl_cons, ih _ fun n hn => h n (by simp [hn]),
      rotl28_eq_rotateLeft half (h shift (by simp)), rotateLeft_rotateLeft, List.sum_cons]

/-- The sixteen shifts add up to 28 places, so they bring a half back (rule R147). -/
theorem foldl_rotl28_shiftSchedule (half : KeyHalf) : shiftSchedule.foldl rotl28 half = half := by
  rw [foldl_rotl28 _ _ (by decide), show shiftSchedule.sum = 28 from rfl,
    ← BitVec.rotateLeft_mod_eq_rotateLeft, Nat.mod_self, rotateLeft_zero]

theorem halfAfter_shiftSchedule_last (half : KeyHalf) : halfAfter shiftSchedule half 16 = half :=
  foldl_rotl28_shiftSchedule half

/-! ## Parity positions -/

/-- A permutation reads nothing but the positions its table lists (rule R111). -/
theorem permute_congr {w m : Nat} {table : List Nat} {v v' : BitVec w} (hm : table.length = m)
    (hrange : ∀ i ∈ table, 1 ≤ i ∧ i ≤ w)
    (hagree : ∀ i ∈ table, v.getMsbD (i - 1) = v'.getMsbD (i - 1)) :
    permute m table v = permute m table v' := by
  refine BitVec.eq_of_getMsbD_eq fun j hj => ?_
  have hj' : j < table.length := hm ▸ hj
  rw [permute_getMsbD table v hm hrange j hj', permute_getMsbD table v' hm hrange j hj']
  exact hagree _ (List.getElem_mem hj')

theorem pc1Table_range : ∀ i ∈ pc1Table, 1 ≤ i ∧ i ≤ 64 := by decide

/-- PC-1 lists no parity position; counted from 0 these are the positions that are 7 modulo 8
(rule R127). -/
theorem pc1Table_skips_parity : ∀ i ∈ pc1Table, (i - 1) % 8 ≠ 7 := by decide

theorem pc1_eq_of_agree {k k' : Block}
    (h : ∀ i < 64, i % 8 ≠ 7 → k.getMsbD i = k'.getMsbD i) : pc1 k = pc1 k' := by
  refine permute_congr rfl pc1Table_range fun i hi => h (i - 1) ?_ (pc1Table_skips_parity i hi)
  obtain ⟨hlo, hhi⟩ := pc1Table_range i hi
  omega

/-- The key enters its schedule through PC-1 alone (rule R140). -/
theorem keySchedule_eq_of_pc1_eq {k k' : Block} (h : pc1 k = pc1 k') :
    keySchedule k = keySchedule k' := by
  apply Vector.toList_inj.1
  simp only [keySchedule_toList, c0, d0, h]

/-- Settles O26: PC-1 drops the parity positions, and the schedule, DESKEY and the cipher see the key
through it. -/
theorem parityBitsAreIgnored : Obligations.ParityBitsAreIgnored := by
  intro k k' hagree
  have hpc1 : pc1 k = pc1 k' := pc1_eq_of_agree hagree
  have hrk : keySchedule k = keySchedule k' := keySchedule_eq_of_pc1_eq hpc1
  exact ⟨hpc1, hrk, fun s => by rw [exec_deskey, hrk], fun b dir => by rw [hrk]⟩

/-! ## DESKEY and the worked example -/

/-- No command unbinds the key: DESKEY binds one and the others keep it (rule R146). -/
theorem exec_keeps_keyv {i : Instr} {s t : State} (hs : s.keyv = true) (h : exec i s = .next t) :
    t.keyv = true := by
  by_cases hi : i = .deskey
  · subst hi
    cases h
    rfl
  · rw [(sameKeys_exec hi h).keyv, hs]

/-- `C_0` and `D_0` of the key of spec/95_test_vectors.md section 3 (rule R140). -/
theorem workedExample_halves :
    c0 0x133457799BBCDFF1#64 = 0xF0CCAAF#28 ∧ d0 0x133457799BBCDFF1#64 = 0x556678F#28 := by decide

theorem workedExample_firstRoundKey :
    (keySchedule 0x133457799BBCDFF1#64).toList[0]? = some 0x1B02EFFC7072#48 := by
  obtain ⟨hc, hd⟩ := workedExample_halves
  rw [keySchedule_getElem? _ 0 (by decide), hc, hd]
  decide

theorem workedExample_lastRoundKey :
    (keySchedule 0x133457799BBCDFF1#64).toList[15]? = some 0xCB3D8B0E17F5#48 := by
  obtain ⟨hc, hd⟩ := workedExample_halves
  rw [keySchedule_getElem? _ 15 (by decide), halfAfter_shiftSchedule_last,
    halfAfter_shiftSchedule_last, hc, hd]
  decide

/-- Settles O31: DESKEY's equation, the key kept by every command, and the example's values. -/
theorem deskeyBindsTheKey : Obligations.DeskeyBindsTheKey := by
  obtain ⟨hc, hd⟩ := workedExample_halves
  exact ⟨rfl, exec_deskey, fun _ _ _ hs h => exec_keeps_keyv hs h, hc, hd,
    workedExample_firstRoundKey, workedExample_lastRoundKey⟩

end Sys2Proof.Proofs

/-! # The DES round engine (family `42_des_round_engine`)

Rules R150 to R159. The halves after a round are the entry halves taken through the round keys used
so far. A round with the same key undoes a round once the halves are exchanged, so the keys taken
backwards undo the whole transform: the exit's exchange is what makes the two passes meet. -/

namespace Sys2Proof.Proofs

open Sys2Proof.Machine Sys2Proof.Claims

/-! ## The sixteen rounds -/

@[simp] theorem length_roundOrder (rk : Vector RoundKey 16) (dir : Direction) :
    (roundOrder rk dir).length = 16 := by
  cases dir with
  | encrypt => rw [roundOrder_encrypt, Vector.length_toList]
  | decrypt => rw [roundOrder_decrypt, List.length_reverse, Vector.length_toList]

/-- Round `i + 1` takes `RK[i + 1]` when encrypting and `RK[17 - (i + 1)]` when decrypting (rule
R153). -/
theorem roundOrder_getElem? (rk : Vector RoundKey 16) (dir : Direction) (i : Nat) (h : i < 16) :
    (roundOrder rk dir)[i]? =
      some (rk.toList.getD (if dir = .encrypt then i else 15 - i) 0) := by
  have hget (n : Nat) (hn : n < 16) : rk.toList[n]? = some (rk.toList.getD n 0) := by
    have hlen : n < rk.toList.length := by rwa [Vector.length_toList]
    rw [List.getD_eq_getElem _ _ hlen, List.getElem?_eq_getElem hlen]
  cases dir with
  | encrypt => rw [roundOrder_encrypt, if_pos rfl, hget i h]
  | decrypt => rw [roundOrder_decrypt_getElem rk i h, if_neg (by decide), hget _ (by omega)]

/-- `L_i` and `R_i`: the entry halves after the first `i` rounds (rules R151 and R152). -/
def halvesAfter (rk : Vector RoundKey 16) (b : Block) (dir : Direction) (i : Nat) : Half × Half :=
  ((roundOrder rk dir).take i).foldl feistelRound (entryHalves b)

/-- Each round works on the halves of the round before it, with the direction's key (rule R152). -/
theorem halvesAfter_succ (rk : Vector RoundKey 16) (b : Block) (dir : Direction) (i : Nat)
    (h : i < 16) :
    halvesAfter rk b dir (i + 1) = feistelRound (halvesAfter rk b dir i)
      (rk.toList.getD (if dir = .encrypt then i else 15 - i) 0) := by
  rw [halvesAfter, List.take_add_one, roundOrder_getElem? rk dir i h, List.foldl_append]
  rfl

/-- The transform leaves through the exit after the last round (rules R154 and R155). -/
theorem processBlock_eq_exitBlock (rk : Vector RoundKey 16) (b : Block) (dir : Direction) :
    processBlock rk b dir = exitBlock (halvesAfter rk b dir 16) := by
  rw [processBlock, halvesAfter, List.take_of_length_le (length_roundOrder rk dir).le]

/-- Settles O28: `L_i` and `R_i` are the halves after `i` rounds. -/
theorem blockTransformRunsSixteenRounds : Obligations.BlockTransformRunsSixteenRounds := by
  intro rk b dir
  refine ⟨fun i => (halvesAfter rk b dir i).1, fun i => (halvesAfter rk b dir i).2, rfl, rfl,
    ?round, processBlock_eq_exitBlock rk b dir⟩
  case round =>
    intro i h1 h16
    obtain ⟨n, rfl⟩ := Nat.exists_eq_add_of_le' h1
    dsimp only
    rw [halvesAfter_succ rk b dir n (by omega), Nat.add_sub_cancel,
      show 16 - (n + 1) = 15 - n by omega]
    exact ⟨rfl, rfl⟩

/-! ## Decryption undoes encryption -/

/-- Rounds with the keys taken backwards undo the rounds, the halves exchanged before and after. -/
theorem foldl_feistelRound_reverse_swap (keys : List RoundKey) (lr : Half × Half) :
    (keys.reverse.foldl feistelRound (keys.foldl feistelRound lr).swap).swap = lr := by
  induction keys generalizing lr with
  | nil => exact Prod.swap_swap lr
  | cons k rest ih =>
    have hrest :
        rest.reverse.foldl feistelRound (rest.foldl feistelRound (feistelRound lr k)).swap =
          (feistelRound lr k).swap := Prod.swap_inj.1 ((ih _).trans (Prod.swap_swap _).symm)
    simp only [List.reverse_cons, List.foldl_append, List.foldl_cons, List.foldl_nil, hrest]
    exact feistelRound_swap lr k

/-- The entry takes the exit back, but for the exchange of the halves (rules R151 and R154). -/
theorem entryHalves_exitBlock (lr : Half × Half) : entryHalves (exitBlock lr) = lr.swap := by
  rw [entryHalves, exitBlock, initialPerm_finalPerm, BitVec.extractLsb'_append_eq_left,
    BitVec.extractLsb'_append_eq_right]
  rfl

/-- With no round between, the exit undoes the entry once the halves are exchanged. -/
theorem exitBlock_swap_entryHalves (b : Block) : exitBlock (entryHalves b).swap = b := by
  have hjoin : (entryHalves b).1 ++ (entryHalves b).2 = initialPerm b :=
    (BitVec.extractLsb'_append_extractLsb'_eq_extractLsb' rfl).trans BitVec.extractLsb'_eq_self
  rw [exitBlock, Prod.fst_swap, Prod.snd_swap, hjoin, finalPerm_initialPerm]

/-- Two passes undo each other when the second one takes the round keys of the first backwards
(rule R157). -/
theorem processBlock_processBlock (rk : Vector RoundKey 16) (b : Block) {dir dir' : Direction}
    (hrev : roundOrder rk dir' = (roundOrder rk dir).reverse) :
    processBlock rk (processBlock rk b dir) dir' = b := by
  have hback := foldl_feistelRound_reverse_swap (roundOrder rk dir) (entryHalves b)
  rw [processBlock, processBlock, entryHalves_exitBlock, hrev, ← Prod.swap_swap (List.foldl _ _ _),
    hback, exitBlock_swap_entryHalves]

/-- Settles O29: the two directions take the same list of round keys in opposite orders. -/
theorem decryptionInvertsEncryption : Obligations.DecryptionInvertsEncryption := fun rk b =>
  ⟨processBlock_processBlock rk b (roundOrder_decrypt rk),
    processBlock_processBlock rk b (List.reverse_reverse rk.toList).symm⟩

/-! ## DESENC and DESDEC -/

/-- DESENC writes the encryption of DIN, or raises KeyNotSet (rule R158). -/
theorem exec_desenc (s : State) :
    exec .desenc s = if s.keyv then .next { s with dout := processBlock s.rk s.din .encrypt }
      else .next { s with err := .keyNotSet } := rfl

/-- DESDEC writes the decryption of DIN, or raises KeyNotSet (rule R159). -/
theorem exec_desdec (s : State) :
    exec .desdec s = if s.keyv then .next { s with dout := processBlock s.rk s.din .decrypt }
      else .next { s with err := .keyNotSet } := rfl

/-- With equal round keys the order they are taken in makes no difference (rule R159). -/
theorem processBlock_decrypt_eq_encrypt {rk : Vector RoundKey 16}
    (hequal : ∀ k ∈ rk.toList, ∀ k' ∈ rk.toList, k = k') (b : Block) :
    processBlock rk b .decrypt = processBlock rk b .encrypt := by
  have horder : rk.toList.reverse = rk.toList :=
    List.ext_getElem List.length_reverse fun i hi hi' =>
      hequal _ (List.mem_reverse.1 (List.getElem_mem hi)) _ (List.getElem_mem hi')
  rw [processBlock, processBlock, roundOrder_decrypt, roundOrder_encrypt, horder]

/-- The block of spec/95_test_vectors.md section 4 under its key. -/
theorem workedExample_encrypt :
    processBlock (keySchedule 0x133457799BBCDFF1#64) 0x0123456789ABCDEF#64 .encrypt =
      0x85E813540F0AB405#64 := by decide +kernel

theorem workedExample_decrypt :
    processBlock (keySchedule 0x133457799BBCDFF1#64) 0x85E813540F0AB405#64 .decrypt =
      0x0123456789ABCDEF#64 := by
  rw [← workedExample_encrypt]
  exact (decryptionInvertsEncryption _ _).1

/-- Settles O32: the equations of the two commands with and without a key, and the examples. -/
theorem desencAndDesdecTransformDin : Obligations.DesencAndDesdecTransformDin := by
  refine ⟨rfl, rfl, fun s hkey => ?keyed, fun s hkey => ?unkeyed, fun s hequal => ?equalKeys,
    workedExample_encrypt, workedExample_decrypt⟩
  case keyed =>
    rw [exec_desenc, exec_desdec, if_pos hkey, if_pos hkey]
    exact ⟨rfl, rfl⟩
  case unkeyed =>
    have hnot : ¬s.keyv = true := Bool.eq_false_iff.1 hkey
    rw [exec_desenc, exec_desdec, if_neg hnot, if_neg hnot]
    exact ⟨rfl, rfl⟩
  case equalKeys =>
    rw [exec_desenc, exec_desdec, processBlock_decrypt_eq_encrypt hequal]

end Sys2Proof.Proofs

/-! # The DES-X commands on one block (family `43_desx_cbc`)

Rules R166 to R168. The chain and the block enter CBCENC alike, both before the DES core, so undoing
CBCENC recovers either one from the other; that is why the ciphertext tells chains apart. -/

namespace Sys2Proof.Proofs

open Sys2Proof.Machine Sys2Proof.Claims

/-! ## Lists of commands -/

/-- A list of commands goes on from the state its first command answers. -/
theorem commands_cons_of_next {i : Instr} {s t : State} (h : exec i s = .next t)
    (rest : List Instr) : commands (i :: rest) s = commands rest t := by
  rw [commands, h]

/-- A list of one command is the command. -/
theorem commands_singleton (i : Instr) (s : State) : commands [i] s = exec i s := by
  rw [commands]
  cases exec i s <;> rfl

/-! ## One block of DES-X -/

/-- Taking off the whitenings and the chain in the opposite order undoes DES-X, for every list of
round keys (rules R157, R167 and R168). -/
theorem desx_roundTrip (rk : Vector RoundKey 16) (k1 k2 chain b : Block) :
    processBlock rk (processBlock rk (b ^^^ chain ^^^ k1) .encrypt ^^^ k2 ^^^ k2) .decrypt ^^^ k1
      ^^^ chain = b := by
  rw [xor_cancel_right, (decryptionInvertsEncryption rk _).1, xor_cancel_right, xor_cancel_right]

theorem desxDecrypt_desxEncrypt (s : State) (chain b : Block) :
    desxDecrypt s chain (desxEncrypt s chain b) = b :=
  desx_roundTrip s.rk s.k1 s.k2 chain b

/-- The chain and the block enter the core alike, so they may be exchanged. -/
theorem desxEncrypt_comm (s : State) (chain b : Block) :
    desxEncrypt s chain b = desxEncrypt s b chain := by
  rw [desxEncrypt, desxEncrypt, BitVec.xor_comm b chain]

/-- For one block the ciphertext tells the chains apart (rule R167). -/
theorem desxEncrypt_chain_inj (s : State) (b : Block) {chain chain' : Block} :
    desxEncrypt s chain b = desxEncrypt s chain' b ↔ chain = chain' := by
  refine ⟨fun h => ?_, fun h => by rw [h]⟩
  rw [desxEncrypt_comm s chain, desxEncrypt_comm s chain'] at h
  calc chain = desxDecrypt s b (desxEncrypt s b chain) := (desxDecrypt_desxEncrypt s b chain).symm
    _ = desxDecrypt s b (desxEncrypt s b chain') := by rw [h]
    _ = chain' := desxDecrypt_desxEncrypt s b chain'

/-- With no whitening and no chain DES-X is the DES core (rule R167). -/
theorem desxEncrypt_of_zero {s : State} (hk1 : s.k1 = 0#64) (hk2 : s.k2 = 0#64) (b : Block) :
    desxEncrypt s 0#64 b = processBlock s.rk b .encrypt := by
  rw [desxEncrypt, hk1, hk2, BitVec.xor_zero, BitVec.xor_zero, BitVec.xor_zero]

/-! ## CBCINIT -/

/-- CBCINIT copies IV to CHAIN (rule R166). -/
theorem exec_cbcinit (s : State) : exec .cbcinit s = .next { s with chain := s.iv } := rfl

/-- Settles O33: the second CBCINIT copies the same IV over the same CHAIN. -/
theorem cbcinitSeedsTheChain : Obligations.CbcinitSeedsTheChain := by
  refine ⟨rfl, exec_cbcinit, fun s => ?twice⟩
  case twice =>
    rw [commands_cons_of_next (exec_cbcinit s), commands_singleton, exec_cbcinit, exec_cbcinit]

/-! ## CBCENC -/

/-- CBCENC writes the ciphertext of DIN to DOUT and CHAIN (rule R167). -/
theorem exec_cbcenc_keyed {s : State} (h : s.keyv = true) :
    exec .cbcenc s = .next { s with
      dout := desxEncrypt s s.chain s.din, chain := desxEncrypt s s.chain s.din } := if_pos h

/-- Without a key CBCENC raises KeyNotSet (rule R167). -/
theorem exec_cbcenc_unkeyed {s : State} (h : s.keyv = false) :
    exec .cbcenc s = .next { s with err := .keyNotSet } := if_neg (Bool.eq_false_iff.1 h)

/-- With zero whitening and chain CBCENC writes the DOUT of DESENC (rule R167). -/
theorem cbcenc_dout_eq_desenc_dout {s t u : State} (hk1 : s.k1 = 0#64) (hk2 : s.k2 = 0#64)
    (hchain : s.chain = 0#64) (hkey : s.keyv = true) (ht : exec .cbcenc s = .next t)
    (hu : exec .desenc s = .next u) : t.dout = u.dout := by
  rw [exec_cbcenc_keyed hkey, hchain, desxEncrypt_of_zero hk1 hk2] at ht
  rw [exec_desenc, if_pos hkey] at hu
  cases ht
  cases hu
  rfl

/-- The second of two CBCENC in a row is chained from the first's ciphertext, so the two ciphertexts
are equal exactly if that is the CHAIN the first started from (rules R167 and R178). -/
theorem cbcenc_twice_dout_eq_iff {s t u : State} (hkey : s.keyv = true)
    (ht : exec .cbcenc s = .next t) (hu : exec .cbcenc t = .next u) :
    u.dout = t.dout ↔ t.dout = s.chain := by
  rw [exec_cbcenc_keyed (exec_keeps_keyv hkey ht)] at hu
  rw [exec_cbcenc_keyed hkey] at ht
  cases hu
  cases ht
  exact desxEncrypt_chain_inj s s.din

/-- The first block of spec/95_test_vectors.md section 5. -/
theorem workedExample_cbcenc :
    processBlock (keySchedule 0x133457799BBCDFF1#64)
        (0x4142434445464748#64 ^^^ 0x1122334455667788#64 ^^^ 0x0123456789ABCDEF#64) .encrypt ^^^
      0xFEDCBA9876543210#64 = 0x0112577118177FDC#64 := by decide +kernel

/-- Settles O34: the equations of CBCENC with and without a key, the two comparisons of DOUT, and
the example. -/
theorem cbcencEncryptsOneBlock : Obligations.CbcencEncryptsOneBlock :=
  ⟨rfl, fun _ hkey => exec_cbcenc_keyed hkey, fun _ hkey => exec_cbcenc_unkeyed hkey,
    fun _ _ _ hk1 hk2 hchain hkey ht hu => cbcenc_dout_eq_desenc_dout hk1 hk2 hchain hkey ht hu,
    fun _ _ _ hkey ht hu => cbcenc_twice_dout_eq_iff hkey ht hu, workedExample_cbcenc⟩

/-! ## CBCDEC -/

/-- CBCDEC writes the plaintext of DIN to DOUT, and DIN to CHAIN (rule R168). -/
theorem exec_cbcdec_keyed {s : State} (h : s.keyv = true) :
    exec .cbcdec s = .next { s with dout := desxDecrypt s s.chain s.din, chain := s.din } :=
  if_pos h

/-- Without a key CBCDEC raises KeyNotSet (rule R168). -/
theorem exec_cbcdec_unkeyed {s : State} (h : s.keyv = false) :
    exec .cbcdec s = .next { s with err := .keyNotSet } := if_neg (Bool.eq_false_iff.1 h)

/-- CBCDEC of the ciphertext from the CHAIN that CBCENC started from gives the block back and leaves
the CHAIN that CBCENC left (rules R167 and R168). -/
theorem cbcdec_undoes_cbcenc {s : State} (hkey : s.keyv = true) :
    ∃ t u, exec .cbcenc s = .next t ∧
      exec .cbcdec { t with din := t.dout, chain := s.chain } = .next u ∧
      u.dout = s.din ∧ u.chain = t.chain :=
  ⟨_, _, exec_cbcenc_keyed hkey, exec_cbcdec_keyed hkey, desxDecrypt_desxEncrypt s s.chain s.din,
    rfl⟩

/-- The same block of spec/95_test_vectors.md section 5, taken back. -/
theorem workedExample_cbcdec :
    processBlock (keySchedule 0x133457799BBCDFF1#64)
        (0x0112577118177FDC#64 ^^^ 0xFEDCBA9876543210#64) .decrypt ^^^ 0x0123456789ABCDEF#64 ^^^
      0x1122334455667788#64 = 0x4142434445464748#64 := by
  rw [← workedExample_cbcenc]
  exact desx_roundTrip _ _ _ _ _

/-- Settles O35: the equations of CBCDEC with and without a key, the round trip, and the example. -/
theorem cbcdecDecryptsOneBlock : Obligations.CbcdecDecryptsOneBlock :=
  ⟨rfl, fun _ hkey => exec_cbcdec_keyed hkey, fun _ hkey => exec_cbcdec_unkeyed hkey,
    fun _ hkey => cbcdec_undoes_cbcenc hkey, workedExample_cbcdec⟩

end Sys2Proof.Proofs

/-! # The Rabin commands (family `45_rabin`)

Rules R197 to R203. RABENC is one comparison. For RABDEC, first its outcome in terms of the model's
`candidates`, one equation per number of marked positions; then that `candidates` are what the rules'
formulas give. -/

namespace Sys2Proof.Proofs

open Sys2Proof.Machine

/-! ## RABENC -/

/-- A label that is not below the modulus raises MessageTooLarge (rule R198). -/
theorem exec_rabenc_tooLarge {s : State} (h : s.rn ≤ labeled s.x s.marker) :
    exec .rabenc s = .next { s with err := .messageTooLarge } := if_pos h

/-- A label below the modulus is squared (rule R198). -/
theorem exec_rabenc_fits {s : State} (h : labeled s.x s.marker < s.rn) :
    exec .rabenc s = .next { s with y := labeled s.x s.marker ^ 2 % s.rn } := by
  rw [sq]
  exact if_neg (Nat.not_le.2 h)

/-- Settles O47: RABENC's equations on the two sides of the comparison, and the example. -/
theorem rabencSquaresTheLabel : Obligations.RabencSquaresTheLabel := by
  refine ⟨rfl, fun s hlarge => exec_rabenc_tooLarge hlarge,
    fun s hfits => ⟨exec_rabenc_fits hfits, ?below⟩, by norm_num⟩
  case below => exact Nat.mod_lt _ (Nat.zero_lt_of_lt hfits)

/-! ## RABDEC over its candidates -/

/-- A zero modulus raises BadOperand before ROOTS is written (rule R203). -/
theorem exec_rabdec_zeroModulus {s : State} (h : s.rp = 0 ∨ s.rq = 0 ∨ s.rn = 0) :
    exec .rabdec s = .next { s with err := .badOperand } := if_pos h

/-- With no marked candidate RABDEC raises NoValidRoot, ROOTS written (rule R203). -/
theorem exec_rabdec_noRoot {s : State} (hmod : ¬(s.rp = 0 ∨ s.rq = 0 ∨ s.rn = 0))
    (hcount : validRoots s (candidates s) = 0) :
    exec .rabdec s =
      .next { s with roots := rootsOf s (candidates s), err := .noValidRoot } :=
  (if_neg hmod).trans (if_pos hcount)

/-- With two or more marked positions RABDEC raises Ambiguous, ROOTS written (rule R203). -/
theorem exec_rabdec_ambiguous {s : State} (hmod : ¬(s.rp = 0 ∨ s.rq = 0 ∨ s.rn = 0))
    (hcount : 2 ≤ validRoots s (candidates s)) :
    exec .rabdec s =
      .next { s with roots := rootsOf s (candidates s), err := .ambiguous } :=
  (if_neg hmod).trans ((if_neg (by omega)).trans (if_pos hcount))

/-- With one marked position RABDEC delivers its candidate, stripped (rule R203). -/
theorem exec_rabdec_oneRoot {s : State} (hmod : ¬(s.rp = 0 ∨ s.rq = 0 ∨ s.rn = 0))
    (hcount : validRoots s (candidates s) = 1) :
    exec .rabdec s = .next { s with
      roots := rootsOf s (candidates s), y := strippedRoot s.marker (candidates s) } :=
  (if_neg hmod).trans ((if_neg (by omega)).trans (if_neg (by omega)))

/-! ## The marker mask -/

/-- The mask is the sum of the marks at their powers of two (rule R203). -/
theorem rootsMask_eq_ofNat : ∀ v1 v2 v3 v4 : Bool,
    rootsMask v1 v2 v3 v4 =
      BitVec.ofNat 4 (v1.toNat + 2 * v2.toNat + 4 * v3.toNat + 8 * v4.toNat) := by decide

/-- With nothing counted the mask is empty (rules R202 and R203). -/
theorem rootsMask_eq_zero : ∀ v1 v2 v3 v4 : Bool,
    validCount v1 v2 v3 v4 = 0 → rootsMask v1 v2 v3 v4 = 0#4 := by decide

/-- Stripping is one shift of the first marked candidate (rule R202). -/
theorem strippedRoot_eq_div (marker : BitVec 16) (c : Roots) :
    strippedRoot marker c =
      (if carries marker c.x1 then c.x1 else if carries marker c.x2 then c.x2
        else if carries marker c.x3 then c.x3 else c.x4) / 2 ^ 16 := by
  simp only [strippedRoot, apply_ite (· / 2 ^ 16)]

/-! ## The rule's formulas -/

/-- Rules R199 and R200 as they stand determine the model's candidates. -/
theorem candidates_eq {s : State} {r q1 x1 x2 x3 x4 : Nat} (hn : s.rn ≠ 0)
    (hr : r = s.x ^ ((s.rp + 1) / 4) % s.rp) (hq1 : q1 = s.x ^ ((s.rq + 1) / 4) % s.rq)
    (hx1 : (x1 : Int) = (s.ra * s.rp * q1 + s.rb * s.rq * r) % s.rn) (hx2 : x2 = s.rn - x1)
    (hx3 : (x3 : Int) = (s.ra * s.rp * q1 - s.rb * s.rq * r) % s.rn) (hx4 : x4 = s.rn - x3) :
    candidates s = ⟨x1, x2, x3, x4⟩ := by
  have hpos : 0 < s.rn := Nat.pos_of_ne_zero hn
  have hrootP : squareRoot s.x s.rp = r := by rw [hr, squareRoot, modexp_eq]
  have hrootQ : squareRoot s.x s.rq = q1 := by rw [hq1, squareRoot, modexp_eq]
  have hres1 : residue (s.ra * s.rp * q1 + s.rb * s.rq * r) s.rn = x1 :=
    Int.ofNat_inj.1 ((residue_cast _ _ hpos).trans hx1.symm)
  have hres3 : residue (s.ra * s.rp * q1 - s.rb * s.rq * r) s.rn = x3 :=
    Int.ofNat_inj.1 ((residue_cast _ _ hpos).trans hx3.symm)
  rw [candidates, hrootP, hrootQ, recombine, hres1, hres3, hx2, hx4]

/-- Settles O48: the formulas determine the candidates, and the outcome follows their number of
marked positions. -/
theorem rabdecRecombinesTheRoots : Obligations.RabdecRecombinesTheRoots := by
  refine ⟨rfl, fun s hzero => exec_rabdec_zeroModulus hzero, ?formulas, ?worked⟩
  case formulas =>
    intro s r q1 x1 x2 x3 x4 m1 m2 m3 m4 hp hq hn hr hq1 hx1 hx2 hx3 hx4 hm1 hm2 hm3 hm4
    have hmod : ¬(s.rp = 0 ∨ s.rq = 0 ∨ s.rn = 0) := by simp [hp, hq, hn]
    have hcand : candidates s = ⟨x1, x2, x3, x4⟩ := candidates_eq hn hr hq1 hx1 hx2 hx3 hx4
    have hcount : validRoots s (candidates s) = m1.toNat + m2.toNat + m3.toNat + m4.toNat := by
      rw [hcand, hm1, hm2, hm3, hm4]
      rfl
    have hmask : rootsOf s (candidates s) =
        BitVec.ofNat 4 (m1.toNat + 2 * m2.toNat + 4 * m3.toNat + 8 * m4.toNat) := by
      rw [hcand, hm1, hm2, hm3, hm4]
      exact rootsMask_eq_ofNat _ _ _ _
    have hroot : strippedRoot s.marker (candidates s) =
        (if m1 then x1 else if m2 then x2 else if m3 then x3 else x4) / 65536 := by
      rw [strippedRoot_eq_div, hcand, hm1, hm2, hm3]
      rfl
    rw [← hcount, ← hmask, ← hroot]
    refine ⟨fun hnone => ?none, exec_rabdec_ambiguous hmod, exec_rabdec_oneRoot hmod⟩
    case none =>
      have hempty : rootsOf s (candidates s) = 0#4 := rootsMask_eq_zero _ _ _ _ hnone
      rw [exec_rabdec_noRoot hmod hnone, hempty]
  case worked =>
    exact ⟨_, exec_rabdec_oneRoot (by decide) (by decide), rfl, by decide, by decide⟩

end Sys2Proof.Proofs

/-! # The RSA commands (family `46_rsa`)

Rules R210 to R215. The digest commands add in `BitVec 32`, so a list of DGADD adds the list's sum, in
which the order of the characters is lost; RSASIGN and RSAVFY are their formulas with `modexp` read as
a plain power. -/

namespace Sys2Proof.Proofs

open Sys2Proof.Machine Sys2Proof.Claims

/-! ## The word of DGADD -/

/-- A command's word as a number: the opcode above 24 operand bits (rule R90). -/
theorem toNat_encode (i : Instr) :
    (encode i).toNat = opcodeFor i * 2 ^ 24 + (operandBits i).toNat := by
  rw [encode, BitVec.toNat_append, ← Nat.shiftLeft_add_eq_or_of_lt (operandBits i).isLt,
    BitVec.toNat_ofNat, Nat.mod_eq_of_lt (opcodeFor_lt i), Nat.shiftLeft_eq]

/-- A code point that fits its 21-bit field is the operand bits (rule R93). -/
theorem toNat_operandBits_dgadd {cp : Nat} (h : cp < 2 ^ 21) :
    (operandBits (.dgadd cp)).toNat = cp := by
  rw [operandBits, BitVec.toNat_setWidth, BitVec.toNat_ofNat, Nat.mod_eq_of_lt h]
  exact Nat.mod_eq_of_lt (h.trans (by norm_num))

theorem toNat_encode_dgadd {cp : Nat} (h : cp < 2 ^ 21) :
    (encode (.dgadd cp)).toNat = 0x51000000 + cp := by
  rw [toNat_encode, toNat_operandBits_dgadd h, opcodeFor]
  norm_num

/-! ## The digest commands -/

/-- DGCLR clears H (rule R211). -/
theorem exec_dgclr (s : State) : exec .dgclr s = .next { s with h := 0#32 } := rfl

/-- DGADD adds its operand to H, and the wrap is silent (rule R212). -/
theorem exec_dgadd (cp : Nat) (s : State) :
    exec (.dgadd cp) s = .next { s with h := s.h + BitVec.ofNat 32 cp } := by
  have hsum : BitVec.ofNat 32 (s.h.toNat + cp) = s.h + BitVec.ofNat 32 cp := by
    rw [BitVec.ofNat_add, BitVec.ofNat_toNat, BitVec.setWidth_eq]
  rw [← hsum]
  rfl

theorem exec_dgadd_zero (s : State) : exec (.dgadd 0) s = .next s := by
  rw [exec_dgadd, BitVec.add_zero]

/-- Settles O52: the second DGCLR clears what is clear already. -/
theorem dgclrAndDgaddWriteTheDigest : Obligations.DgclrAndDgaddWriteTheDigest := by
  refine ⟨rfl, fun cp => toNat_encode_dgadd, exec_dgclr,
    fun s cp => ⟨_, exec_dgadd cp s, rfl, ?sum⟩, fun s => ?twice, exec_dgadd_zero⟩
  case sum => rw [BitVec.toNat_add, BitVec.toNat_ofNat, Nat.add_mod_mod]
  case twice => rw [commands_cons_of_next (exec_dgclr s), commands_singleton, exec_dgclr, exec_dgclr]

/-! ## The digest of a text -/

/-- One DGADD for each number of a list adds the list's sum to H. -/
theorem commands_dgadd (text : List Nat) (s : State) :
    commands (text.map .dgadd) s = .next { s with h := s.h + BitVec.ofNat 32 text.sum } := by
  induction text generalizing s with
  | nil => rw [List.map_nil, commands, List.sum_nil, BitVec.add_zero]
  | cons cp text ih =>
    rw [List.map_cons, commands_cons_of_next (exec_dgadd cp s), ih, List.sum_cons, BitVec.ofNat_add,
      BitVec.add_assoc]

/-- From a cleared accumulator the sum itself is left in H (rule R210). -/
theorem commands_dgclr_dgadd (text : List Nat) (s : State) :
    commands (.dgclr :: text.map .dgadd) s = .next { s with h := BitVec.ofNat 32 text.sum } := by
  rw [commands_cons_of_next (exec_dgclr s), commands_dgadd, BitVec.zero_add]

/-- Settles O53: only the sum of the list enters the answered state, and a permutation keeps it. -/
theorem digestIsTheOrderBlindSum : Obligations.DigestIsTheOrderBlindSum := by
  refine ⟨fun s text => ⟨_, commands_dgclr_dgadd text s, rfl, BitVec.toNat_ofNat _ _⟩,
    fun s text text' hperm => ?order⟩
  case order => rw [commands_dgclr_dgadd, commands_dgclr_dgadd, hperm.sum_eq]

/-! ## RSASIGN -/

/-- A zero modulus raises BadOperand (rules R214 and R262). -/
theorem exec_rsasign_zeroModulus {s : State} (h : s.sn = 0) :
    exec .rsasign s = .next { s with err := .badOperand } := if_pos h

/-- RSASIGN raises the reduced digest to the private exponent (rule R214). -/
theorem exec_rsasign {s : State} (h : s.sn ≠ 0) :
    exec .rsasign s = .next { s with y := (s.h.toNat % s.sn) ^ s.sd % s.sn } := by
  rw [← modexp_eq]
  exact if_neg h

/-- Settles O54: RSASIGN's equations on the two sides of its check, and the example by `modexp`. -/
theorem rsasignRaisesTheDigest : Obligations.RsasignRaisesTheDigest := by
  refine ⟨rfl, fun s hzero => exec_rsasign_zeroModulus hzero,
    fun s hmod => ⟨exec_rsasign hmod, Nat.mod_lt _ (Nat.pos_of_ne_zero hmod)⟩, ?worked⟩
  case worked =>
    rw [← modexp_eq]
    decide

/-! ## RSAVFY -/

/-- A zero modulus raises BadOperand (rules R215 and R262). -/
theorem exec_rsavfy_zeroModulus {s : State} (h : s.sn = 0) :
    exec .rsavfy s = .next { s with err := .badOperand } := if_pos h

/-- RSAVFY compares the recovered value with the reduced digest (rule R215). -/
theorem exec_rsavfy {s : State} (h : s.sn ≠ 0) :
    exec .rsavfy s =
      .next { s with flagV := decide (s.x ^ s.se % s.sn = s.h.toNat % s.sn) } := by
  rw [← modexp_eq]
  exact if_neg h

/-- The verdict reads X modulo SN only: the signature is not range-checked (rule R215). -/
theorem rsavfy_flagV_add_modulus {s t t' : State} (hmod : s.sn ≠ 0) (h : exec .rsavfy s = .next t)
    (h' : exec .rsavfy { s with x := s.x + s.sn } = .next t') : t'.flagV = t.flagV := by
  have hpow : (s.x + s.sn) ^ s.se % s.sn = s.x ^ s.se % s.sn :=
    Nat.ModEq.pow s.se (Nat.add_mod_right s.x s.sn)
  rw [exec_rsavfy hmod] at h
  rw [exec_rsavfy (s := { s with x := s.x + s.sn }) hmod, hpow] at h'
  cases h
  cases h'
  rfl

/-- Settles O55: RSAVFY's equations on the two sides of its check, the verdict on `X + SN`, and the
example. -/
theorem rsavfyComparesTheRecoveredDigest : Obligations.RsavfyComparesTheRecoveredDigest := by
  refine ⟨rfl, fun s hzero => exec_rsavfy_zeroModulus hzero, fun s hmod => exec_rsavfy hmod,
    fun s t t' => rsavfy_flagV_add_modulus, ?worked⟩
  case worked => norm_num

end Sys2Proof.Proofs

/-! # The system commands and the latch (family `47_system`)

Rules R225 and R226. First the words of the two opcodes, then what a step can do to the latch beside
the bound key: KeyNotSet is raised by commands that find no key bound, and DESKEY, which binds one, is
refused while an error is latched. -/

namespace Sys2Proof.Proofs

open Sys2Proof.Machine Sys2Proof.Claims

/-! ## NOP and CLRERR -/

theorem exec_nop (s : State) : exec .nop s = .next s := rfl

theorem exec_clrerr (s : State) : exec .clrerr s = .next { s with err := .none } := rfl

/-- With nothing latched CLRERR does nothing (rule R226). -/
theorem exec_clrerr_of_unlatched {s : State} (h : s.err = .none) : exec .clrerr s = .next s := by
  rw [exec_clrerr, ← h]

/-! ## The other words of their opcodes -/

/-- The opcode in front of the operand field is the word (rule R90). -/
theorem opcode_append_operand (w : CmdWord) :
    BitVec.ofNat 8 (opcodeOf w) ++ w.extractLsb' 0 24 = w := by
  have hopc : opcodeOf w < 2 ^ 8 := (w.extractLsb' 24 8).isLt
  rw [← BitVec.toNat_inj, toNat_opcode_append, BitVec.toNat_ofNat, Nat.mod_eq_of_lt hopc,
    opcodeOf_eq_div, BitVec.extractLsb'_toNat, Nat.shiftRight_zero, Nat.div_add_mod']

/-- A format-N command has the one word whose operand field is 0 (rule R91). -/
theorem eq_encode_of_formatN {w : CmdWord} {i : Instr} (hopc : formatN (opcodeOf w) = some i)
    (hres : w.extractLsb' 0 24 = 0#24) : w = encode i := by
  obtain ⟨hopcode, hoperand, -⟩ := formatN_eq_some _ _ hopc
  rw [encode, hopcode, hoperand, ← hres, opcode_append_operand]

/-- Every other word of a format-N opcode is no command (rule R95). -/
theorem decode_reservedBits_of_formatN {w : CmdWord} {i : Instr}
    (hopc : formatN (opcodeOf w) = some i) (hw : w ≠ encode i) :
    decode w = .error .reservedBits := by
  have hres : w.extractLsb' 0 24 ≠ 0#24 := fun h => hw (eq_encode_of_formatN hopc h)
  have hR : opcodeOf w ≠ 0x30 := fun h => by rw [h] at hopc; cases hopc
  have hC : opcodeOf w ≠ 0x51 := fun h => by rw [h] at hopc; cases hopc
  simp only [decode, if_neg hR, if_neg hC, hopc, if_neg hres]

/-- The words of NOP and CLRERR are the only commands of their opcodes (rules R225 and R226). -/
theorem decode_system_reservedBits {w : CmdWord} (hopc : opcodeOf w = 0x00 ∨ opcodeOf w = 0x01)
    (hnop : w ≠ encode .nop) (hclrerr : w ≠ encode .clrerr) :
    decode w = .error .reservedBits := by
  rcases hopc with h | h
  · exact decode_reservedBits_of_formatN (by rw [h]; rfl) hnop
  · exact decode_reservedBits_of_formatN (by rw [h]; rfl) hclrerr

/-- While an error is latched a word of neither NOP nor CLRERR has no effect (rule R257). -/
theorem issue_refused {w : CmdWord} {s : State} (herr : s.err ≠ .none) (hnop : w ≠ encode .nop)
    (hclrerr : w ≠ encode .clrerr) : issue w s = .next s := by
  rcases issue_cases w s with ⟨-, hw, -⟩ | ⟨-, hw, -⟩ | ⟨-, -, -, e⟩ | ⟨hnone, -⟩ | ⟨hnone, -⟩
  · exact absurd hw hnop
  · exact absurd hw hclrerr
  · exact e
  · exact absurd hnone herr
  · exact absurd hnone herr

/-! ## KeyNotSet beside a bound key -/

/-- KeyNotSet comes to be latched only by a command that uses the round keys and finds no key bound
(rule R252). -/
theorem exec_raises_keyNotSet {i : Instr} {s t : State} (hs : s.err ≠ .keyNotSet)
    (h : exec i s = .next t) (ht : t.err = .keyNotSet) : usesRoundKeys i ∧ s.keyv = false := by
  cases i with
  | nop | deskey | cbcinit | mrtest | dgclr | dgadd => cases h; exact absurd ht hs
  | clrerr => cases h; cases ht
  | desenc | desdec | cbcenc | cbcdec =>
    simp only [exec, execDesenc, execDesdec, execCbcenc, execCbcdec] at h
    split at h
    next => cases h; exact absurd ht hs
    next hkey => exact ⟨trivial, Bool.eq_false_iff.2 hkey⟩
  | xencm | xdecm =>
    simp only [exec, execXencm, execXdecm] at h
    split at h
    next =>
      split at h <;> cases h
      · cases ht
      · exact absurd ht hs
    next hkey => exact ⟨trivial, Bool.eq_false_iff.2 hkey⟩
  | rabenc | rsasign | rsavfy =>
    simp only [exec, execRabenc, execRsasign, execRsavfy] at h
    split at h <;> cases h
    · cases ht
    · exact absurd ht hs
  | rabdec =>
    simp only [exec, execRabdec] at h
    split at h
    next => cases h; cases ht
    next =>
      split at h
      next => cases h; cases ht
      next =>
        split at h <;> cases h
        · cases ht
        · exact absurd ht hs

/-- With another latch value than KeyNotSet nothing is claimed of the key. -/
theorem latchMatch_of_err_ne {s : State} (h : s.err ≠ .keyNotSet) : s.latchMatch :=
  fun herr => absurd herr h

/-- Keeping the latch and the key material keeps rule R226's claim. -/
theorem SameKeys.latchMatch {s t : State} (h : SameKeys s t) (herr : t.err = s.err)
    (hs : s.latchMatch) : t.latchMatch := by
  intro ht
  rw [h.keyv]
  exact hs (herr ▸ ht)

theorem writeReg_err {s t : State} {v : Int} {r : Reg} (h : writeReg s v r = .next t) :
    t.err = s.err := by
  rcases writeReg_cases s v r with ⟨-, e⟩ | ⟨_, _, -, -, -, e⟩ | ⟨_, _, -, -, e⟩ <;>
    rw [e] at h <;> cases h
  · rfl
  · cases r <;> rfl

theorem writeByte_err (s : State) (a : Nat) (b : Byte) : (writeByte s a b).err = s.err := by
  rcases writeByte_cases s a b with ⟨-, e⟩ | ⟨-, e⟩ <;> rw [e]

/-- A command executed with nothing latched does not put KeyNotSet beside a bound key: the one that
raises it is not DESKEY, so the key it found unbound stays unbound. -/
theorem latchMatch_exec {i : Instr} {s t : State} (herr : s.err = .none)
    (h : exec i s = .next t) : t.latchMatch := by
  intro ht
  obtain ⟨huses, hkey⟩ := exec_raises_keyNotSet (by simp [herr]) h ht
  have hi : i ≠ .deskey := by
    rintro rfl
    exact huses
  rw [(sameKeys_exec hi h).keyv, hkey]

/-- A word written to CMD: a command is decoded and executed only with nothing latched (rule R257). -/
theorem latchMatch_issue {w : CmdWord} {s t : State} (hs : s.latchMatch)
    (h : issue w s = .next t) : t.latchMatch := by
  rcases issue_cases w s with ⟨-, -, e⟩ | ⟨-, -, e⟩ | ⟨-, -, -, e⟩ | ⟨herr, i, -, e⟩ | ⟨-, -, e⟩ <;>
    rw [e] at h
  · cases h; exact hs
  · cases h; exact latchMatch_of_err_ne nofun
  · cases h; exact hs
  · exact latchMatch_exec herr h
  · cases h; exact latchMatch_of_err_ne nofun

theorem latchMatch_act {a : Action} {s t : State} (hs : s.latchMatch) (h : act a s = .next t) :
    t.latchMatch := by
  rcases act_cases a s t h with ⟨_, -, -, -, hissue⟩ | ⟨_, _, -, -, rfl⟩ |
    ⟨_, _, _, -, -, -, hwrite⟩ | ⟨_, -, rfl⟩ | ⟨_, _, -, rfl⟩ | ⟨_, -, rfl⟩ | ⟨-, rfl⟩
  · exact latchMatch_issue hs hissue
  · exact hs
  · exact (sameKeys_writeReg hwrite).latchMatch (writeReg_err hwrite) hs
  · exact (sameKeys_returned s _).latchMatch rfl hs
  · exact (sameKeys_writeByte s _ _).latchMatch (writeByte_err s _ _) hs
  · exact (sameKeys_returned s _).latchMatch rfl hs
  · exact latchMatch_of_err_ne nofun

/-- No step puts KeyNotSet beside a bound key (rule R226). -/
theorem latchMatch_step {s t : State} (hs : s.latchMatch) (h : step s = .next t) :
    t.latchMatch := by
  cases htodo : s.host.todo with
  | nil =>
    rw [step_idle s htodo] at h
    cases h
    exact hs
  | cons a rest =>
    rw [step_cons s a rest htodo] at h
    exact latchMatch_act ((sameKeys_withTodo s rest).latchMatch rfl hs) h

/-- Settles O57: the equations of the two commands, the refusal of the other words of their opcodes,
and the step lemma of the latch. -/
theorem nopAndClrerr : Obligations.NopAndClrerr := by
  refine ⟨rfl, rfl, exec_nop, exec_clrerr, fun _ => exec_clrerr_of_unlatched, ?otherWords,
    fun _ _ => latchMatch_step⟩
  case otherWords =>
    intro w s hopc hnop hclrerr
    have hd : decode w = .error .reservedBits := decode_system_reservedBits hopc hnop hclrerr
    exact ⟨hd, fun herr => issue_refused herr hnop hclrerr, fun herr => issue_of_decode_error herr hd⟩

end Sys2Proof.Proofs

/-! # The extended Euclid of the key generation (family `48_host_procedures`)

Rules R232, R234 and R235. Every iteration of the Euclid loop keeps the greatest common divisor of the
two remainders, and keeps each of them written as a combination of `u` and `v`. The inverse is the
residue of the coefficient of `e`, and the search for an exponent ends because the odd number
`2 * phi + 1` is coprime to `phi`. -/

namespace Sys2Proof.Proofs

open Sys2Proof.Machine

/-! ## The Euclid loop -/

/-- The loop reaches the greatest common divisor when the iterations outnumber the second remainder,
which decreases. -/
theorem egcdLoop_g (fuel r0 r1 : Nat) (s0 s1 t0 t1 : Int) (h : r1 < fuel) :
    (egcdLoop fuel r0 r1 s0 s1 t0 t1).g = Nat.gcd r0 r1 := by
  induction fuel generalizing r0 r1 s0 s1 t0 t1 with
  | zero => omega
  | succ fuel ih =>
    rw [egcdLoop]
    split
    case isTrue hr => rw [hr, Nat.gcd_zero_right]
    case isFalse hr =>
      have hmod : r0 - r0 / r1 * r1 = r0 % r1 := Nat.mod_eq_sub_div_mul.symm
      have hdec : r0 % r1 < r1 := Nat.mod_lt _ (by omega)
      rw [hmod, ih _ _ _ _ _ _ (by omega), Nat.gcd_comm r1, ← Nat.gcd_rec, Nat.gcd_comm]

/-- The loop keeps each remainder a combination of `u` and `v` with its own two coefficients. -/
theorem egcdLoop_combination {u v : Int} (fuel r0 r1 : Nat) (s0 s1 t0 t1 : Int)
    (h0 : u * s0 + v * t0 = r0) (h1 : u * s1 + v * t1 = r1) :
    u * (egcdLoop fuel r0 r1 s0 s1 t0 t1).x + v * (egcdLoop fuel r0 r1 s0 s1 t0 t1).y =
      (egcdLoop fuel r0 r1 s0 s1 t0 t1).g := by
  induction fuel generalizing r0 r1 s0 s1 t0 t1 with
  | zero => exact h0
  | succ fuel ih =>
    rw [egcdLoop]
    split
    case isTrue => exact h0
    case isFalse =>
      refine ih _ _ _ _ _ _ h1 ?_
      rw [Nat.cast_sub (Nat.div_mul_le_self r0 r1), Nat.cast_mul]
      linear_combination h0 - ((r0 / r1 : Nat) : Int) * h1

/-- The first component of `egcd` is the greatest common divisor (rule R232). -/
theorem egcd_g (u v : Nat) : (egcd u v).g = Nat.gcd u v :=
  egcdLoop_g _ _ _ _ _ _ _ (Nat.lt_succ_self v)

/-- The coefficients of `egcd` give the greatest common divisor (rule R232). -/
theorem egcd_combination (u v : Nat) :
    (u : Int) * (egcd u v).x + v * (egcd u v).y = Nat.gcd u v := by
  rw [← egcd_g]
  exact egcdLoop_combination _ _ _ _ _ _ _ (by ring) (by ring)

/-! ## The inverse -/

theorem modinv_of_gcd_ne_one {e phi : Nat} (h : Nat.gcd e phi ≠ 1) : modinv e phi = none :=
  if_pos (by rwa [egcd_g])

theorem modinv_of_coprime {e phi : Nat} (h : Nat.Coprime e phi) :
    modinv e phi = some (residue (egcd e phi).x phi) :=
  if_neg (not_not.2 ((egcd_g e phi).trans h))

/-- The residue of the coefficient of `e` is the inverse: `e * x + phi * y = 1` (rule R235). -/
theorem mul_residue_egcd_modEq {e phi : Nat} (hphi : 0 < phi) (h : Nat.Coprime e phi) :
    e * residue (egcd e phi).x phi ≡ 1 [MOD phi] := by
  have hone : (e : Int) * (egcd e phi).x + phi * (egcd e phi).y = 1 := by
    rw [egcd_combination, h, Nat.cast_one]
  rw [← Int.natCast_modEq_iff]
  push_cast [residue_cast _ _ hphi]
  calc (e : Int) * ((egcd e phi).x % phi)
      ≡ e * (egcd e phi).x [ZMOD phi] := (Int.mod_modEq _ _).mul_left _
    _ ≡ e * (egcd e phi).x + phi * (egcd e phi).y [ZMOD phi] := Int.modEq_add_fac_self.symm
    _ = 1 := hone

/-! ## The public exponent -/

/-- The search stops at a coprime number when one stands within its iterations. -/
theorem searchExponent_coprime {phi : Nat} (fuel e k : Nat) (hk : k < fuel)
    (hcoprime : Nat.Coprime (e + 2 * k) phi) : Nat.Coprime (searchExponent phi fuel e) phi := by
  induction fuel generalizing e k with
  | zero => omega
  | succ fuel ih =>
    rw [searchExponent, egcd_g]
    split
    case isTrue hfound => exact hfound
    case isFalse hnot =>
      cases k with
      | zero => exact absurd hcoprime hnot
      | succ k =>
        rw [show e + 2 * (k + 1) = e + 2 + 2 * k by ring] at hcoprime
        exact ih (e + 2) k (by omega) hcoprime

/-- The odd number `2 * phi + 1` that ends the search is coprime to `phi` (rule R234). -/
theorem two_mul_add_one_coprime (phi : Nat) : Nat.Coprime (2 * phi + 1) phi := by
  rw [Nat.coprime_mul_right_add_left]
  exact Nat.coprime_one_left phi

/-- The exponent of rule R234 is coprime to `phi`, whichever of the three choices it is. -/
theorem chooseExponent_coprime {phi : Nat} (hphi : 0 < phi) :
    Nat.Coprime (chooseExponent phi) phi := by
  unfold chooseExponent
  split
  case isTrue hfirst => exact (egcd_g _ _).symm.trans hfirst
  case isFalse =>
    split
    case h_1 f hlisted =>
      have hf := List.find?_some hlisted
      exact (egcd_g _ _).symm.trans (of_decide_eq_true hf)
    case h_2 =>
      refine searchExponent_coprime phi 3 (phi - 1) (by omega) ?_
      rw [show 3 + 2 * (phi - 1) = 2 * phi + 1 by omega]
      exact two_mul_add_one_coprime phi

/-- Settles O59: the loop's two invariants, the inverse read off them, and the coprime exponent. -/
theorem extendedEuclidAndInverse : Obligations.ExtendedEuclidAndInverse := by
  refine ⟨fun u v _ => ⟨egcd_g u v, egcd_combination u v⟩, ?inverse,
    fun _ _ _ => modinv_of_gcd_ne_one,
    fun _ hphi => ⟨_, modinv_of_coprime (chooseExponent_coprime hphi)⟩, ?worked⟩
  case inverse =>
    intro e phi hphi hgcd
    exact ⟨_, (residue_spec _ _ hphi).1, modinv_of_coprime hgcd, mul_residue_egcd_modEq hphi hgcd⟩
  case worked => decide

end Sys2Proof.Proofs

/-! # Exceptions (family `60_exceptions`)

Rules R252, R255 to R257 and R262. A command first checks the key, then its operands: two equations
say what it raises there, and one inversion lemma, in the same order, says everything it can do to the
latch. Raising, KeyNotSet and BadOperand are read off it. The command port comes last: while an error
is latched it executes nothing but CLRERR. -/

namespace Sys2Proof.Proofs

open Sys2Proof.Machine Sys2Proof.Claims

/-! ## The two checks before a command -/

/-- The key check: a command that uses the round keys raises KeyNotSet while none is bound, before it
looks at its operands (rule R252). -/
theorem exec_unkeyed {i : Instr} {s : State} (huses : usesRoundKeys i) (hkey : s.keyv = false) :
    exec i s = .next { s with err := .keyNotSet } := by
  have hnot : ¬s.keyv = true := Bool.eq_false_iff.1 hkey
  cases i with
  | desenc | desdec | cbcenc | cbcdec | xencm | xdecm => exact if_neg hnot
  | _ => exact huses.elim

/-- The operand check: past the key check, a command whose operands are outside its domain raises
BadOperand (rule R262). -/
theorem exec_operandBad {i : Instr} {s : State} (hbad : operandBad s i)
    (hkey : usesRoundKeys i → s.keyv = true) : exec i s = .next { s with err := .badOperand } := by
  cases i with
  | rabdec => exact exec_rabdec_zeroModulus hbad
  | rsasign => exact exec_rsasign_zeroModulus hbad
  | rsavfy => exact exec_rsavfy_zeroModulus hbad
  | xencm | xdecm => exact (if_pos (hkey trivial)).trans (if_pos hbad)
  | _ => exact hbad.elim

/-! ## What a command can do to the latch -/

/-- XENCM past its two checks (rule R171). -/
theorem exec_xencm_inDomain {s : State} (hkey : s.keyv = true) (hgood : ¬operandBad s .xencm) :
    exec .xencm s = .next { s with
      msg := (encryptBlocks s (blockCount s.mlen.toNat) 0 (padMessage s.msg s.mlen.toNat) s.iv).1
      chain := (encryptBlocks s (blockCount s.mlen.toNat) 0 (padMessage s.msg s.mlen.toNat) s.iv).2
      mlen := BitVec.ofNat 32 (8 * blockCount s.mlen.toNat) } :=
  (if_pos hkey).trans (if_neg hgood)

/-- XDECM past its two checks (rule R172). -/
theorem exec_xdecm_inDomain {s : State} (hkey : s.keyv = true) (hgood : ¬operandBad s .xdecm) :
    exec .xdecm s = .next { s with
      msg := (decryptBlocks s (s.mlen.toNat / 8) 0 s.msg s.iv).1
      chain := (decryptBlocks s (s.mlen.toNat / 8) 0 s.msg s.iv).2
      mlen := BitVec.ofNat 32
        (stripLen (decryptBlocks s (s.mlen.toNat / 8) 0 s.msg s.iv).1 s.mlen.toNat) } :=
  (if_pos hkey).trans (if_neg hgood)

/-- What command `i`, started in `s`, can have done to the latch when it answers `t`. -/
inductive LatchEffect (i : Instr) (s t : State) : Prop
  /-- no key is bound for a command that uses the round keys (rule R252) -/
  | keyNotSet (huses : usesRoundKeys i) (hkey : s.keyv = false)
      (ht : t = { s with err := .keyNotSet })
  /-- a key is bound if the command needs one, and the operands are bad (rule R262) -/
  | badOperand (hbad : operandBad s i) (hkey : usesRoundKeys i → s.keyv = true)
      (ht : t = { s with err := .badOperand })
  /-- RABENC's label is too large (rule R253) -/
  | messageTooLarge (hi : i = .rabenc) (ht : t = { s with err := .messageTooLarge })
  /-- RABDEC wrote ROOTS and found no candidate or several (rule R254) -/
  | notOneRoot (hi : i = .rabdec) (herr : t.err = .noValidRoot ∨ t.err = .ambiguous)
      (ht : t = { s with err := t.err, roots := t.roots })
  /-- CLRERR cleared it (rule R258) -/
  | cleared (hi : i = .clrerr) (ht : t.err = .none)
  /-- the command completed and left it alone -/
  | kept (ht : t.err = s.err)

/-- RABDEC on nonzero moduli, by the number of marked candidates (rules R202 and R203). -/
theorem latchEffect_rabdec {s t : State} (hgood : ¬operandBad s .rabdec)
    (h : exec .rabdec s = .next t) : LatchEffect .rabdec s t := by
  obtain hzero | hone | hmany : validRoots s (candidates s) = 0 ∨ validRoots s (candidates s) = 1 ∨
      2 ≤ validRoots s (candidates s) := by omega
  · rw [exec_rabdec_noRoot hgood hzero] at h
    cases h
    exact .notOneRoot rfl (.inl rfl) rfl
  · rw [exec_rabdec_oneRoot hgood hone] at h
    cases h
    exact .kept rfl
  · rw [exec_rabdec_ambiguous hgood hmany] at h
    cases h
    exact .notOneRoot rfl (.inr rfl) rfl

/-- Past both checks a command leaves the latch alone, but for CLRERR and the Rabin errors. -/
theorem latchEffect_inDomain {i : Instr} {s t : State} (hkey : usesRoundKeys i → s.keyv = true)
    (hgood : ¬operandBad s i) (h : exec i s = .next t) : LatchEffect i s t := by
  cases i with
  | nop | deskey | cbcinit | mrtest | dgclr | dgadd => cases h; exact .kept rfl
  | clrerr => cases h; exact .cleared rfl rfl
  | desenc => rw [exec_desenc, if_pos (hkey trivial)] at h; cases h; exact .kept rfl
  | desdec => rw [exec_desdec, if_pos (hkey trivial)] at h; cases h; exact .kept rfl
  | cbcenc => rw [exec_cbcenc_keyed (hkey trivial)] at h; cases h; exact .kept rfl
  | cbcdec => rw [exec_cbcdec_keyed (hkey trivial)] at h; cases h; exact .kept rfl
  | xencm => rw [exec_xencm_inDomain (hkey trivial) hgood] at h; cases h; exact .kept rfl
  | xdecm => rw [exec_xdecm_inDomain (hkey trivial) hgood] at h; cases h; exact .kept rfl
  | rsasign => rw [exec_rsasign hgood] at h; cases h; exact .kept rfl
  | rsavfy => rw [exec_rsavfy hgood] at h; cases h; exact .kept rfl
  | rabdec => exact latchEffect_rabdec hgood h
  | rabenc =>
    by_cases hlabel : s.rn ≤ labeled s.x s.marker
    · rw [exec_rabenc_tooLarge hlabel] at h
      cases h
      exact .messageTooLarge rfl rfl
    · rw [exec_rabenc_fits (Nat.not_le.1 hlabel)] at h
      cases h
      exact .kept rfl

/-- Every command, in the order of its checks. -/
theorem latchEffect_exec {i : Instr} {s t : State} (h : exec i s = .next t) :
    LatchEffect i s t := by
  by_cases hunkeyed : usesRoundKeys i ∧ s.keyv = false
  · obtain ⟨huses, hkey⟩ := hunkeyed
    rw [exec_unkeyed huses hkey] at h
    cases h
    exact .keyNotSet huses hkey rfl
  · have hkey : usesRoundKeys i → s.keyv = true := fun huses =>
      Bool.eq_true_of_not_eq_false fun hkey => hunkeyed ⟨huses, hkey⟩
    by_cases hbad : operandBad s i
    · rw [exec_operandBad hbad hkey] at h
      cases h
      exact .badOperand hbad hkey rfl
    · exact latchEffect_inDomain hkey hbad h

/-! ## Raising -/

/-- Settles O15: of the effects a command can have on the latch, those that set it write nothing else
but RABDEC's ROOTS. -/
theorem raisingChangesOnlyTheLatch : Obligations.RaisingChangesOnlyTheLatch := by
  intro i s t hs h ht
  cases latchEffect_exec h with
  | keyNotSet _ _ e => exact .inl (by rw [e])
  | badOperand _ _ e => exact .inl (by rw [e])
  | messageTooLarge _ e => exact .inl (by rw [e])
  | notOneRoot hi herr e => exact .inr ⟨hi, herr, e⟩
  | cleared _ herr => exact absurd herr ht
  | kept herr => exact absurd (herr.trans hs) ht

/-- A key is bound after a command exactly if it was before or the command is DESKEY (rule R37). -/
theorem exec_keyv_iff {i : Instr} {s t : State} (h : exec i s = .next t) :
    t.keyv = true ↔ s.keyv = true ∨ i = .deskey := by
  by_cases hi : i = .deskey
  · subst hi
    rw [exec_deskey] at h
    cases h
    simp
  · rw [(sameKeys_exec hi h).keyv, or_iff_left hi]

/-- Settles O16: the key check in both directions, and what binds a key. -/
theorem keyNotSetExactlyWhenUnkeyed : Obligations.KeyNotSetExactlyWhenUnkeyed :=
  ⟨fun _ _ => exec_unkeyed, fun _ _ _ => exec_raises_keyNotSet, rfl, fun _ _ _ => exec_keyv_iff⟩

/-- BadOperand comes to be latched only past the key check and on bad operands (rule R262). -/
theorem exec_raises_badOperand {i : Instr} {s t : State} (hs : s.err ≠ .badOperand)
    (h : exec i s = .next t) (ht : t.err = .badOperand) :
    operandBad s i ∧ (usesRoundKeys i → s.keyv = true) := by
  cases latchEffect_exec h with
  | keyNotSet _ _ e => rw [e] at ht; cases ht
  | badOperand hbad hkey _ => exact ⟨hbad, hkey⟩
  | messageTooLarge _ e => rw [e] at ht; cases ht
  | notOneRoot _ herr _ => rw [ht] at herr; rcases herr with e | e <;> cases e
  | cleared _ herr => rw [ht] at herr; cases herr
  | kept herr => exact absurd (herr.symm.trans ht) hs

/-- Settles O17: the operand check in both directions. -/
theorem badOperandExactlyOnBadOperands : Obligations.BadOperandExactlyOnBadOperands :=
  ⟨fun _ _ => exec_operandBad, fun _ _ _ => exec_raises_badOperand⟩

/-! ## The port while an error is latched -/

/-- CLRERR's word clears the latch (rules R226 and R257). -/
theorem issue_clrerr {s : State} (herr : s.err ≠ .none) :
    issue 0x01000000#32 s = .next { s with err := .none } := by
  rw [issue, if_pos herr, if_neg (by decide), if_pos rfl, exec_clrerr]

/-- While an error is latched every other word leaves the state alone: NOP does nothing, and the rest
are refused (rules R225 and R257). -/
theorem issue_of_latched {w : CmdWord} {s : State} (herr : s.err ≠ .none)
    (hw : w ≠ 0x01000000#32) : issue w s = .next s := by
  by_cases hnop : w = 0x00000000#32
  · rw [issue, if_pos herr, if_pos hnop, exec_nop]
  · exact issue_refused herr hnop hw

/-- Settles O7: the two equations of the command port, and host accesses that do not look at the
latch. -/
theorem latchedPortRefusesCommands : Obligations.LatchedPortRefusesCommands := by
  intro s herr
  refine ⟨fun w hw => ?refused, ?clrerr, fun num => act_rd num s, fun addr => act_rdm addr s,
    fun addr b => act_wrm addr b s, fun r v hr => act_wr_reg r hr v s⟩
  case refused => rw [act_wr_cmd_word, issue_of_latched herr hw]
  case clrerr => exact (act_wr_cmd_word 0x01000000#32 s).trans (issue_clrerr herr)

/-- A value the port carries to CMD is CLRERR's if its word is (rules R32 and R33). -/
theorem eq_of_word_clrerr {v : Int} (h0 : 0 ≤ v) (h1 : v < 2 ^ 32)
    (hw : BitVec.ofNat 32 v.toNat = 0x01000000#32) : v = 0x01000000 := by
  have hnat : v.toNat % 2 ^ 32 = 0x01000000 := congrArg BitVec.toNat hw
  omega

/-- An action keeps a latched error, unless it is the write of CLRERR's word or the reset event
(rule R255). -/
theorem act_err_of_latched {a : Action} {s t : State} (herr : s.err ≠ .none)
    (h : act a s = .next t) :
    t.err = s.err ∨ (t.err = .none ∧ a = .wr 0 0x01000000) ∨ (t.err = .none ∧ a = .reset) := by
  rcases act_cases a s t h with ⟨v, rfl, h0, h1, hissue⟩ | ⟨_, _, -, -, rfl⟩ |
    ⟨_, _, _, -, -, -, hwrite⟩ | ⟨_, -, rfl⟩ | ⟨_, _, -, rfl⟩ | ⟨_, -, rfl⟩ | ⟨hreset, rfl⟩
  · by_cases hw : BitVec.ofNat 32 v.toNat = 0x01000000#32
    · rw [hw, issue_clrerr herr] at hissue
      cases hissue
      exact .inr (.inl ⟨rfl, by rw [eq_of_word_clrerr h0 h1 hw]⟩)
    · rw [issue_of_latched herr hw] at hissue
      cases hissue
      exact .inl rfl
  · exact .inl rfl
  · exact .inl (writeReg_err hwrite)
  · exact .inl (returned_err s _)
  · exact .inl (writeByte_err s _ _)
  · exact .inl (returned_err s _)
  · exact .inr (.inr ⟨applyReset_err s, hreset⟩)

/-- Settles O14: a step is idle or one action, and the action says what becomes of the latch. -/
theorem latchIsSticky : Obligations.LatchIsSticky := by
  refine ⟨rfl, fun s t herr h => ?_⟩
  cases htodo : s.host.todo with
  | nil =>
    rw [step_idle s htodo] at h
    cases h
    exact .inl rfl
  | cons a rest =>
    rw [step_cons s a rest htodo] at h
    rcases act_err_of_latched (s := withTodo s rest) herr h with hkept | ⟨hnone, rfl⟩ | ⟨hnone, rfl⟩
    · exact .inl hkept
    · exact .inr (.inl ⟨hnone, rest, rfl⟩)
    · exact .inr (.inr ⟨hnone, rest, rfl⟩)

end Sys2Proof.Proofs

/-! # Words and commands (family `other`: the encoding)

Rules R90 to R97. A word is its opcode in front of its operand field, so a command and its word
determine each other as soon as the operand bits and the operand do. -/

namespace Sys2Proof.Proofs

open Sys2Proof.Machine Sys2Proof.Claims

/-! ## The fields of a command's word -/

theorem opcodeOf_encode (i : Instr) : opcodeOf (encode i) = opcodeFor i := by
  rw [encode, opcodeOf_append, BitVec.toNat_ofNat, Nat.mod_eq_of_lt (opcodeFor_lt i)]

/-- The bits below the opcode are the operand field (rule R90). -/
theorem operandField_encode (i : Instr) : (encode i).extractLsb' 0 24 = operandBits i :=
  operand_append _ _

/-- A field inside bits 23:0 is a field of the operand bits. -/
theorem toNat_extractLsb'_of_operandField (w : CmdWord) {start len : Nat} (h : start + len ≤ 24) :
    (w.extractLsb' start len).toNat =
      (w.extractLsb' 0 24).toNat / 2 ^ start % 2 ^ len := by
  have hpow : 2 ^ 24 = 2 ^ start * 2 ^ (24 - start) := by
    rw [← Nat.pow_add, Nat.add_sub_cancel' (by omega)]
  rw [BitVec.extractLsb'_toNat, BitVec.extractLsb'_toNat, Nat.shiftRight_zero,
    Nat.shiftRight_eq_div_pow, hpow, Nat.mod_mul_right_div_self,
    Nat.mod_mod_of_dvd _ (Nat.pow_dvd_pow 2 (by omega))]

/-- A round count that fits its 16-bit field is the operand bits (rule R92). -/
theorem toNat_operandBits_mrtest {rounds : Nat} (h : rounds < 2 ^ 16) :
    (operandBits (.mrtest rounds)).toNat = rounds := by
  rw [operandBits, BitVec.toNat_setWidth, BitVec.toNat_ofNat, Nat.mod_eq_of_lt h]
  exact Nat.mod_eq_of_lt (h.trans (by norm_num))

/-! ## Decoding a command's word -/

/-- An operand of at most `k` bits stands in the low `k` bits of its word, under zeros (rule R90).
-/
theorem encode_operandField {i : Instr} {k v : Nat} (hk : k ≤ 24)
    (hv : (operandBits i).toNat = v) (hlt : v < 2 ^ k) :
    (encode i).extractLsb' k (24 - k) = 0#(24 - k) ∧
      ((encode i).extractLsb' 0 k).toNat = v := by
  refine ⟨BitVec.eq_of_toNat_eq ?_, ?_⟩
  · rw [toNat_extractLsb'_of_operandField _ (by omega), operandField_encode, hv,
      Nat.div_eq_of_lt hlt, Nat.zero_mod, BitVec.toNat_zero]
  · rw [toNat_extractLsb'_of_operandField _ (by omega), operandField_encode, hv, Nat.pow_zero,
      Nat.div_one, Nat.mod_eq_of_lt hlt]

theorem decode_encode_mrtest {rounds : Nat} (h : rounds < 2 ^ 16) :
    decode (encode (.mrtest rounds)) = .ok (.mrtest rounds) := by
  obtain ⟨hreserved, hfield⟩ :=
    encode_operandField (k := 16) (by decide) (toNat_operandBits_mrtest h) h
  rw [decode_mrtest (opcodeOf_encode _) hreserved, hfield]

theorem decode_encode_dgadd {cp : Nat} (h : cp < 2 ^ 21) :
    decode (encode (.dgadd cp)) = .ok (.dgadd cp) := by
  obtain ⟨hreserved, hfield⟩ :=
    encode_operandField (k := 21) (by decide) (toNat_operandBits_dgadd h) h
  rw [decode_dgadd (opcodeOf_encode _) hreserved, hfield]

/-- A command without an operand has an operand field of zeros (rule R91). -/
theorem decode_encode_formatN {i : Instr} (h : formatN (opcodeFor i) = some i) :
    decode (encode i) = .ok i := by
  obtain ⟨-, hoperand, -⟩ := formatN_eq_some _ _ h
  refine decode_formatN (by rw [opcodeOf_encode, h]) ?_
  rw [operandField_encode, hoperand]

theorem decode_encode {i : Instr} (h : i.wf = true) : decode (encode i) = .ok i := by
  cases i with
  | mrtest rounds => exact decode_encode_mrtest (of_decide_eq_true h)
  | dgadd cp => exact decode_encode_dgadd (of_decide_eq_true h)
  | _ => exact decode_encode_formatN rfl

/-- Settles O1: the decoder finds the opcode and the operand field where the encoder put them. -/
theorem decodeOfEncode : Obligations.DecodeOfEncode := fun _ h => decode_encode h

/-! ## Encoding what a word decodes to -/

/-- A word is the word of a command if its opcode and its operand field are the command's. -/
theorem encode_eq_of_fields {w : CmdWord} {i : Instr} (hopc : opcodeOf w = opcodeFor i)
    (hoperand : (operandBits i).toNat = (w.extractLsb' 0 24).toNat) : encode i = w := by
  rw [encode, BitVec.eq_of_toNat_eq hoperand, ← hopc, opcode_append_operand]

/-- When the field from bit `k` up to the opcode is 0, the operand field is its low `k` bits. -/
theorem operandField_eq_lowBits {w : CmdWord} {k : Nat} (hk : k ≤ 24)
    (h : w.extractLsb' k (24 - k) = 0#(24 - k)) :
    (w.extractLsb' 0 24).toNat = (w.extractLsb' 0 k).toNat := by
  have hhigh := toNat_extractLsb'_of_operandField w (start := k) (len := 24 - k) (by omega)
  have hlow := toNat_extractLsb'_of_operandField w (start := 0) (len := k) (by omega)
  have hlt := (w.extractLsb' 0 24).isLt
  have hdiv : (w.extractLsb' 0 24).toNat / 2 ^ k < 2 ^ (24 - k) := by
    rw [Nat.div_lt_iff_lt_mul (Nat.two_pow_pos k), ← Nat.pow_add, Nat.sub_add_cancel hk]
    exact hlt
  rw [h, BitVec.toNat_zero, Nat.mod_eq_of_lt hdiv, eq_comm,
    Nat.div_eq_zero_iff_lt (Nat.two_pow_pos k)] at hhigh
  rw [hlow, Nat.pow_zero, Nat.div_one, Nat.mod_eq_of_lt hhigh]

theorem wf_and_encode_of_decode {w : CmdWord} {i : Instr} (h : decode w = .ok i) :
    i.wf = true ∧ encode i = w := by
  rcases decode_cases w with ⟨hopc, hres, e⟩ | ⟨hopc, hres, e⟩ | ⟨j, hopc, hres, e⟩ | ⟨_, e⟩ <;>
    rw [e] at h <;> cases h
  · have hlt := (w.extractLsb' 0 16).isLt
    refine ⟨decide_eq_true hlt, encode_eq_of_fields hopc ?_⟩
    rw [toNat_operandBits_mrtest hlt, operandField_eq_lowBits (k := 16) (by decide) hres]
  · have hlt := (w.extractLsb' 0 21).isLt
    refine ⟨decide_eq_true hlt, encode_eq_of_fields hopc ?_⟩
    rw [toNat_operandBits_dgadd hlt, operandField_eq_lowBits (k := 21) (by decide) hres]
  · obtain ⟨-, -, hwf⟩ := formatN_eq_some _ _ hopc
    exact ⟨hwf, (eq_encode_of_formatN hopc hres).symm⟩

/-- Settles O2: opcode and operand field of the word are those of the command it decodes to. -/
theorem encodeOfDecode : Obligations.EncodeOfDecode := fun _ _ h => wf_and_encode_of_decode h

/-- Settles O4: each word is decoded. -/
theorem listedWordsDecode : Obligations.ListedWordsDecode := by
  unfold Obligations.ListedWordsDecode
  decide

/-! ## One step -/

/-- With no error latched a word that decodes is executed (rule R101). -/
theorem issue_of_decode_ok {w : CmdWord} {s : State} {i : Instr} (herr : s.err = .none)
    (hd : decode w = .ok i) : issue w s = exec i s := by
  rw [issue, if_neg (not_not.2 herr), hd]

/-- Settles O5: the action issues the word, and the port executes what it decodes to. -/
theorem stepRunsDecodedCommand : Obligations.StepRunsDecodedCommand := by
  intro s rest v i htodo h0 h1 herr hd
  refine ⟨(wf_and_encode_of_decode hd).1, ?_⟩
  rw [step_cons s _ rest htodo, act_wr_cmd v _ ⟨h0, h1⟩,
    issue_of_decode_ok (s := withTodo s rest) herr hd]

/-- Settles O6: the two equations of a step. -/
theorem stepPerformsNextAction : Obligations.StepPerformsNextAction :=
  ⟨fun s a rest => step_cons s a rest, step_idle⟩

end Sys2Proof.Proofs

/-! # The access port (family `other`: registers and bytes by number)

Rules R30, R34, R40 and R50. What a write of a register or a byte leaves behind, by name first and
then by number, and the layout of the STATUS word. -/

namespace Sys2Proof.Proofs

open Sys2Proof.Machine Sys2Proof.Claims

/-! ## Writes of a register -/

/-- A host write changes one register of the CORE, and neither the buffer nor anything beside it. -/
theorem storeReg_frame (s : State) (v : Int) (r : Reg) :
    (storeReg s v r).msg = s.msg ∧ (storeReg s v r).params = s.params ∧
      (storeReg s v r).oracle = s.oracle ∧ (storeReg s v r).resets = s.resets ∧
      (storeReg s v r).host = s.host := by
  cases r <;> exact ⟨rfl, rfl, rfl, rfl, rfl⟩

/-- Settles O10: a register reads back what is stored in it, and different numbers are different
registers. -/
theorem writtenRegisterReadsBack : Obligations.WrittenRegisterReadsBack := by
  refine ⟨fun s r v lo hi hr hp hlo hhi => ?byName, fun s v row hrow hlo hhi => ?byNumber⟩
  case byName =>
    refine ⟨_, act_wr_inRange r v lo hi s hr hp hlo hhi, ?back,
      fun r' hne => readReg_storeReg_ne s v r r' hne.symm, storeReg_frame s v r⟩
    case back => rw [act_rd_reg, readReg_storeReg s v lo hi r hr hp ⟨hlo, hhi⟩]
  case byNumber =>
    refine ⟨_, act_wr_of_mem_portWrites s v row hrow hlo hhi, rfl, ?back, ?others⟩ <;>
      obtain ⟨r, hr, hnum, hrange, hwritten⟩ := exists_reg_of_mem_portWrites hrow <;>
      rw [hwritten]
    case back =>
      rw [hnum, act_rd_reg, readReg_storeReg s v row.lo row.hi r hr hrange ⟨hlo, hhi⟩]
    case others =>
      intro other hother hne
      obtain ⟨r', rfl⟩ := exists_reg_of_mem_portReads hother
      have hregs : r ≠ r' := fun h => hne (by rw [hnum, h])
      rw [act_rd_reg, readReg_storeReg_ne s v r r' hregs]

/-- A value the port cannot carry to a register other than CMD stops the model (rule R32, log 6). -/
theorem act_wr_outOfRange {r : Reg} {v lo hi : Int} {s : State} (hr : r ≠ .cmd)
    (hp : portRange s.params r = some (lo, hi)) (hv : ¬(lo ≤ v ∧ v < hi)) :
    act (.wr (numOfReg r) v) s = .fault .portValue := by
  rw [act_wr_reg r hr, writeReg, hp]
  exact if_neg hv

/-- A number of more than 32 bits is no command word (rules R33 and R90, log 6). -/
theorem act_wr_cmd_outOfRange {v : Int} (s : State) (hv : ¬(0 ≤ v ∧ v < 2 ^ 32)) :
    act (.wr 0x00 v) s = .fault .portValue := if_neg hv

/-- Settles O12: CMD and the other registers check the value before anything else. -/
theorem impossiblePortValueFaults : Obligations.ImpossiblePortValueFaults := by
  refine ⟨fun s r v lo hi hp hv => ?byName, fun s v row hrow hv => ?byNumber,
    fun s v hv => act_wr_cmd_outOfRange s hv⟩
  case byName =>
    by_cases hr : r = .cmd
    · subst hr
      cases hp
      exact act_wr_cmd_outOfRange s hv
    · exact act_wr_outOfRange hr hp hv
  case byNumber =>
    obtain ⟨r, hr, hnum, hrange, -⟩ := exists_reg_of_mem_portWrites hrow
    rw [hnum]
    exact act_wr_outOfRange hr hrange hv

/-! ## Writes of a byte -/

/-- Settles O11: read after write in the canonical buffer. -/
theorem writtenByteReadsBack : Obligations.WrittenByteReadsBack := by
  intro s addr b hwf haddr
  have hread (a : Nat) : (s.msg.write addr b).read a = if a = addr then b else s.msg.read a :=
    Memory.read_write s.msg hwf addr b a
  refine ⟨{ s with msg := s.msg.write addr b }, ?write, rfl, Memory.wf_write _ _ _ hwf, ?back,
    fun a ha => ⟨?port, ?other⟩⟩
  case write => rw [act_wrm, writeByte_of_lt s addr b haddr]
  case back =>
    rw [act_rdm, readByte_of_lt { s with msg := s.msg.write addr b } addr haddr, hread, if_pos rfl]
  case port => rw [readByte, readByte, hread, if_neg ha]
  case other => exact (hread a).trans (if_neg ha)

/-! ## The STATUS word -/

/-- A word put in front of another, as a number. -/
theorem toNat_append_eq_add {m n : Nat} (hi : BitVec m) (lo : BitVec n) :
    (hi ++ lo).toNat = hi.toNat * 2 ^ n + lo.toNat := by
  rw [BitVec.toNat_append, ← Nat.shiftLeft_add_eq_or_of_lt lo.isLt, Nat.shiftLeft_eq]

/-- The STATUS word as a number: each field at its place (rule R34). -/
theorem toNat_statusWord (s : State) : (statusWord s).toNat =
    ((((s.roots.toNat * 2) * 2 + s.flagV.toNat) * 2 + s.flagP.toNat) * 2 + s.keyv.toNat) * 2 ^ 4
      + (errCode s.err).toNat := by
  show (0#20 ++ s.roots ++ 0#1 ++ BitVec.ofBool s.flagV ++ BitVec.ofBool s.flagP ++
    BitVec.ofBool s.keyv ++ errCode s.err : BitVec (20 + 4 + 1 + 1 + 1 + 1 + 4)).toNat = _
  simp only [toNat_append_eq_add, BitVec.toNat_ofBool, BitVec.toNat_zero]
  omega

theorem getLsbD_eq_of_toNat {w : Nat} {v : BitVec w} {i : Nat} {b : Bool}
    (h : v.toNat / 2 ^ i % 2 = b.toNat) : v.getLsbD i = b := by
  rw [BitVec.getLsbD, Nat.testBit_eq_decide_div_mod_eq, h]
  cases b <;> rfl

theorem extractLsb'_eq_of_toNat {w start len : Nat} {v : BitVec w} {f : BitVec len}
    (h : v.toNat / 2 ^ start % 2 ^ len = f.toNat) : v.extractLsb' start len = f := by
  apply BitVec.eq_of_toNat_eq
  rw [BitVec.extractLsb'_toNat, Nat.shiftRight_eq_div_pow, h]

/-- The fields of the STATUS word (rule R34). -/
theorem statusWord_fields (s : State) :
    (statusWord s).extractLsb' 0 4 = errCode s.err ∧ (statusWord s).getLsbD 4 = s.keyv ∧
      (statusWord s).getLsbD 5 = s.flagP ∧ (statusWord s).getLsbD 6 = s.flagV ∧
      (statusWord s).getLsbD 7 = false ∧ (statusWord s).extractLsb' 8 4 = s.roots ∧
      (statusWord s).extractLsb' 12 20 = 0#20 := by
  have hsum := toNat_statusWord s
  have herr := (errCode s.err).isLt
  have hroots := s.roots.isLt
  have hkeyv := s.keyv.toNat_lt
  have hP := s.flagP.toNat_lt
  have hV := s.flagV.toNat_lt
  have hfalse : false.toNat = 0 := rfl
  have hzero : (0#20).toNat = 0 := rfl
  refine ⟨extractLsb'_eq_of_toNat ?_, getLsbD_eq_of_toNat ?_, getLsbD_eq_of_toNat ?_,
    getLsbD_eq_of_toNat ?_, getLsbD_eq_of_toNat ?_, extractLsb'_eq_of_toNat ?_,
    extractLsb'_eq_of_toNat ?_⟩ <;> omega

/-- Settles O13: the codes are the definition's, and each field of the word is where it is put. -/
theorem statusWordLayout : Obligations.StatusWordLayout := by
  refine ⟨⟨rfl, rfl, rfl, rfl, rfl, rfl, rfl⟩, fun s => ?_⟩
  obtain ⟨herr, hkeyv, hp, hv, hzero, hroots, hhigh⟩ := statusWord_fields s
  exact ⟨herr, hkeyv, hp, hv, hzero, hroots, hhigh, rfl⟩

end Sys2Proof.Proofs

/-! # What a command and a step can do (family `other`: frames and the invariant)

Rules R30, R40, R41, R48, R70, R226 and R281. One inversion lemma says everything a command can
answer, by the register group it writes; the frames of all commands and the ranges of the registers
are read off it. A step keeps a state sound because each host action does, and a reset event because
whatever contents it leaves fit their registers. -/

namespace Sys2Proof.Proofs

open Sys2Proof.Machine Sys2Proof.Claims

/-! ## Every command completes -/

/-- No command stops the machine. -/
theorem exec_completes (i : Instr) (s : State) : ∃ t, exec i s = .next t := by
  cases i with
  | nop | clrerr | deskey | cbcinit | mrtest | dgclr | dgadd => exact ⟨_, rfl⟩
  | desenc | desdec | cbcenc | cbcdec =>
    simp only [exec, execDesenc, execDesdec, execCbcenc, execCbcdec]
    split <;> exact ⟨_, rfl⟩
  | rabenc | rsasign | rsavfy =>
    simp only [exec, execRabenc, execRsasign, execRsavfy]
    split <;> exact ⟨_, rfl⟩
  | xencm | xdecm =>
    simp only [exec, execXencm, execXdecm]
    split
    · split <;> exact ⟨_, rfl⟩
    · exact ⟨_, rfl⟩
  | rabdec =>
    simp only [exec, execRabdec]
    split
    · exact ⟨_, rfl⟩
    · split
      · exact ⟨_, rfl⟩
      · split <;> exact ⟨_, rfl⟩

/-! ## What a command can answer -/

/-- A buffer that the command found canonical and inside a legal `MSGMAX` is left so (rule R70). -/
def KeepsBuffer (s : State) (m : Memory) : Prop :=
  s.params.wf = true → s.bufferWf → m.wf = true ∧ m.below s.params.msgmax = true

/-- What command `i`, started in `s`, can answer: the registers it writes, with what is known of the
values whose range matters. -/
inductive CommandEffect (i : Instr) (s t : State) : Prop
  /-- ERR alone: NOP, CLRERR and every raise but RABDEC's two -/
  | latch (e : Err) (ht : t = { s with err := e })
  | bindKey (hi : i = .deskey)
      (ht : t = { s with key := s.din, rk := keySchedule s.din, keyv := true })
  | block (hi : i = .desenc ∨ i = .desdec) (b : Block) (ht : t = { s with dout := b })
  | seedChain (hi : i = .cbcinit) (ht : t = { s with chain := s.iv })
  | chainedBlock (hi : i = .cbcenc ∨ i = .cbcdec) (b c : Block)
      (ht : t = { s with dout := b, chain := c })
  | message (hi : i = .xencm ∨ i = .xdecm) (m : Memory) (c : Block) (len : BitVec 32)
      (hm : KeepsBuffer s m) (ht : t = { s with msg := m, chain := c, mlen := len })
  | primality (hi : ∃ rounds, i = .mrtest rounds) (p : Bool) (o : Oracle)
      (ht : t = { s with flagP := p, oracle := o })
  | digest (hi : i = .dgclr ∨ ∃ cp, i = .dgadd cp) (sum : BitVec 32) (ht : t = { s with h := sum })
  | power (hi : i = .rabenc ∨ i = .rsasign) (y : Nat) (hy : y < s.rn ∨ y < s.sn)
      (ht : t = { s with y := y })
  /-- RABDEC past its operand check: ROOTS, and Y or ERR -/
  | roots (hi : i = .rabdec) (mask : BitVec 4) (e : Err) (y : Nat) (hy : y = s.y ∨ y ≤ s.rn)
      (ht : t = { s with roots := mask, err := e, y := y })
  | verdict (hi : i = .rsavfy) (v : Bool) (ht : t = { s with flagV := v })

/-- The constraints of rules R8 and R9. -/
theorem params_wf_iff (c : Params) :
    c.wf = true ↔ 64 ≤ c.nbits ∧ 8 ≤ c.msgmax ∧ c.msgmax % 8 = 0 := by
  simp only [Params.wf, Bool.and_eq_true, decide_eq_true_eq, and_assoc]

/-- XENCM writes the padded message's blocks, which a legal buffer holds (rules R84 and R171). -/
theorem keepsBuffer_xencm {s : State} (hlen : s.mlen.toNat ≤ s.params.msgmax) :
    KeepsBuffer s
      (encryptBlocks s (blockCount s.mlen.toNat) 0 (padMessage s.msg s.mlen.toNat) s.iv).1 := by
  intro hparams ⟨hwf, hbelow⟩
  obtain ⟨-, -, h8⟩ := (params_wf_iff _).1 hparams
  have hfit := blockCount_le s.mlen.toNat s.params.msgmax hlen h8
  refine ⟨(encryptBlocks_spec s _ 0 _ s.iv (padMessage_spec s.msg _ hwf).1).1,
    encryptBlocks_below _ s _ 0 _ s.iv (by omega) (padMessage_below _ _ _ hlen h8 hbelow)⟩

/-- XDECM writes the message's own blocks (rule R172). -/
theorem keepsBuffer_xdecm {s : State} (hlen : s.mlen.toNat ≤ s.params.msgmax) :
    KeepsBuffer s (decryptBlocks s (s.mlen.toNat / 8) 0 s.msg s.iv).1 := by
  intro _ ⟨hwf, hbelow⟩
  exact ⟨(decryptBlocks_spec s _ 0 _ s.iv hwf).1,
    decryptBlocks_below _ s _ 0 _ s.iv (by omega) hbelow⟩

/-- A candidate stripped of its label is no larger than the modulus (rules R200 and R203). -/
theorem strippedRoot_candidates_le {s : State} (hn : s.rn ≠ 0) :
    strippedRoot s.marker (candidates s) ≤ s.rn := by
  obtain ⟨h1, h2, h3, h4⟩ := recombine_le s.ra s.rb s.rp s.rq s.rn (squareRoot s.x s.rp)
    (squareRoot s.x s.rq) (Nat.pos_of_ne_zero hn)
  rcases strippedRoot_cases s.marker (candidates s) with e | e | e | e <;> rw [e]
  · exact (Nat.div_le_self _ _).trans h1.le
  · exact (Nat.div_le_self _ _).trans h2
  · exact (Nat.div_le_self _ _).trans h3.le
  · exact (Nat.div_le_self _ _).trans h4

theorem commandEffect_rabdec {s t : State} (hgood : ¬operandBad s .rabdec)
    (h : exec .rabdec s = .next t) : CommandEffect .rabdec s t := by
  obtain hzero | hone | hmany : validRoots s (candidates s) = 0 ∨ validRoots s (candidates s) = 1 ∨
      2 ≤ validRoots s (candidates s) := by omega
  · rw [exec_rabdec_noRoot hgood hzero] at h
    cases h
    exact .roots rfl _ _ _ (.inl rfl) rfl
  · rw [exec_rabdec_oneRoot hgood hone] at h
    cases h
    exact .roots rfl _ _ _ (.inr (strippedRoot_candidates_le fun hn => hgood (.inr (.inr hn)))) rfl
  · rw [exec_rabdec_ambiguous hgood hmany] at h
    cases h
    exact .roots rfl _ _ _ (.inl rfl) rfl

/-- Past the two checks a command writes the registers of its group. -/
theorem commandEffect_inDomain {i : Instr} {s t : State} (hkey : usesRoundKeys i → s.keyv = true)
    (hgood : ¬operandBad s i) (h : exec i s = .next t) : CommandEffect i s t := by
  cases i with
  | nop => cases h; exact .latch _ rfl
  | clrerr => cases h; exact .latch _ rfl
  | deskey => cases h; exact .bindKey rfl rfl
  | cbcinit => cases h; exact .seedChain rfl rfl
  | mrtest rounds => cases h; exact .primality ⟨rounds, rfl⟩ _ _ rfl
  | dgclr => cases h; exact .digest (.inl rfl) _ rfl
  | dgadd cp => cases h; exact .digest (.inr ⟨cp, rfl⟩) _ rfl
  | desenc => rw [exec_desenc, if_pos (hkey trivial)] at h; cases h; exact .block (.inl rfl) _ rfl
  | desdec => rw [exec_desdec, if_pos (hkey trivial)] at h; cases h; exact .block (.inr rfl) _ rfl
  | cbcenc =>
    rw [exec_cbcenc_keyed (hkey trivial)] at h; cases h; exact .chainedBlock (.inl rfl) _ _ rfl
  | cbcdec =>
    rw [exec_cbcdec_keyed (hkey trivial)] at h; cases h; exact .chainedBlock (.inr rfl) _ _ rfl
  | xencm =>
    rw [exec_xencm_inDomain (hkey trivial) hgood] at h
    cases h
    exact .message (.inl rfl) _ _ _ (keepsBuffer_xencm (Nat.not_lt.1 hgood)) rfl
  | xdecm =>
    rw [exec_xdecm_inDomain (hkey trivial) hgood] at h
    cases h
    exact .message (.inr rfl) _ _ _ (keepsBuffer_xdecm (Nat.not_lt.1 fun hl => hgood (.inl hl))) rfl
  | rsasign =>
    rw [exec_rsasign hgood] at h
    cases h
    exact .power (.inr rfl) _ (.inr (Nat.mod_lt _ (Nat.pos_of_ne_zero hgood))) rfl
  | rsavfy => rw [exec_rsavfy hgood] at h; cases h; exact .verdict rfl _ rfl
  | rabdec => exact commandEffect_rabdec hgood h
  | rabenc =>
    by_cases hlabel : s.rn ≤ labeled s.x s.marker
    · rw [exec_rabenc_tooLarge hlabel] at h
      cases h
      exact .latch _ rfl
    · have hfits := Nat.not_le.1 hlabel
      rw [exec_rabenc_fits hfits] at h
      cases h
      exact .power (.inl rfl) _ (.inl (Nat.mod_lt _ (Nat.zero_lt_of_lt hfits))) rfl

/-- Every command, in the order of its checks. -/
theorem commandEffect_exec {i : Instr} {s t : State} (h : exec i s = .next t) :
    CommandEffect i s t := by
  by_cases hunkeyed : usesRoundKeys i ∧ s.keyv = false
  · obtain ⟨huses, hkey⟩ := hunkeyed
    rw [exec_unkeyed huses hkey] at h
    cases h
    exact .latch _ rfl
  · have hkey : usesRoundKeys i → s.keyv = true := fun huses =>
      Bool.eq_true_of_not_eq_false fun hkey => hunkeyed ⟨huses, hkey⟩
    by_cases hbad : operandBad s i
    · rw [exec_operandBad hbad hkey] at h
      cases h
      exact .latch _ rfl
    · exact commandEffect_inDomain hkey hbad h

/-- Settles O58: each effect writes its own group, under the commands listed for it. -/
theorem commandsWriteOnlyTheirRegisters : Obligations.CommandsWriteOnlyTheirRegisters := by
  intro i s
  obtain ⟨t, ht⟩ := exec_completes i s
  refine ⟨t, ht, ?_⟩
  cases commandEffect_exec ht with
  | latch e ht => subst ht; simp
  | bindKey hi ht => subst ht; simp [hi]
  | block hi b ht => subst ht; rcases hi with rfl | rfl <;> simp
  | seedChain hi ht => subst ht; simp [hi]
  | chainedBlock hi b c ht => subst ht; rcases hi with rfl | rfl <;> simp
  | message hi m c len hm ht => subst ht; rcases hi with rfl | rfl <;> simp
  | primality hi p o ht => subst ht; simp [hi]
  | digest hi sum ht => subst ht; simp [hi]
  | power hi y hy ht => subst ht; rcases hi with rfl | rfl <;> simp
  | roots hi mask e y hy ht => subst ht; simp [hi]
  | verdict hi v ht => subst ht; simp [hi]

end Sys2Proof.Proofs

/-! # The invariant and reset (family `other`: soundness)

Rules R8, R9, R16, R40, R41, R48, R49, R70, R226 and R281. The bound key and the latch have step
lemmas of their own; the parameters, the ranges and the buffer are kept together. -/

namespace Sys2Proof.Proofs

open Sys2Proof.Machine Sys2Proof.Claims

/-! ## What fits its registers and its buffer -/

/-- The half of soundness that no step lemma covers yet: parameters, ranges and buffer. -/
structure Fits (s : State) : Prop where
  paramsWf : s.params.wf = true
  inRange : s.inRange
  bufferWf : s.bufferWf

theorem inRange_with_y {s : State} (h : s.inRange) {y : Nat} (hy : y < 2 ^ s.params.nbits) :
    { s with y := y }.inRange := by
  obtain ⟨hx, -, hrest⟩ := h
  exact ⟨hx, hy, hrest⟩

/-- Every command keeps the ranges, the parameters and the buffer (rules R40, R41 and R70). -/
theorem fits_exec {i : Instr} {s t : State} (hs : Fits s) (h : exec i s = .next t) : Fits t := by
  obtain ⟨hparams, hrange, hbuffer⟩ := hs
  have ⟨_, hy, _, _, hrn, hsn, _⟩ := hrange
  cases commandEffect_exec h with
  | latch _ ht | bindKey _ ht | block _ _ ht | seedChain _ ht | chainedBlock _ _ _ ht
  | primality _ _ _ ht | digest _ _ ht | verdict _ _ ht =>
    subst ht; exact ⟨hparams, hrange, hbuffer⟩
  | message _ m c len hm ht => subst ht; exact ⟨hparams, hrange, hm hparams hbuffer⟩
  | power _ y hlt ht =>
    have hfits : y < 2 ^ s.params.nbits := hlt.elim (·.trans hrn) (·.trans hsn)
    subst ht
    exact ⟨hparams, inRange_with_y hrange hfits, hbuffer⟩
  | roots _ mask e y hle ht =>
    have hfits : y < 2 ^ s.params.nbits := hle.elim (· ▸ hy) (·.trans_lt hrn)
    subst ht
    exact ⟨hparams, inRange_with_y hrange hfits, hbuffer⟩

/-- A word written to CMD: executed, refused, or raising IllegalCommand. -/
theorem fits_issue {w : CmdWord} {s t : State} (hs : Fits s) (h : issue w s = .next t) :
    Fits t := by
  rcases issue_cases w s with ⟨-, -, e⟩ | ⟨-, -, e⟩ | ⟨-, -, -, e⟩ | ⟨-, i, -, e⟩ | ⟨-, -, e⟩ <;>
    rw [e] at h
  · cases h; exact hs
  · cases h; exact ⟨hs.paramsWf, hs.inRange, hs.bufferWf⟩
  · cases h; exact hs
  · exact fits_exec hs h
  · cases h; exact ⟨hs.paramsWf, hs.inRange, hs.bufferWf⟩

/-- A value the port carries to a register lies in the register's range (rules R32, R40 and R41). -/
theorem inRange_storeReg {s : State} {v lo hi : Int} {r : Reg} (h : s.inRange)
    (hp : portRange s.params r = some (lo, hi)) (hlo : lo ≤ v) (hhi : v < hi) :
    (storeReg s v r).inRange := by
  have hnat (h0 : 0 ≤ v) (hlt : v < 2 ^ s.params.nbits) : v.toNat < 2 ^ s.params.nbits :=
    (Int.toNat_lt h0).2 (by exact_mod_cast hlt)
  obtain ⟨hx, hy, hrp, hrq, hrn, hsn, hse, hsd, hra, hrb⟩ := h
  cases r <;> cases hp
  case x => exact ⟨hnat hlo hhi, hy, hrp, hrq, hrn, hsn, hse, hsd, hra, hrb⟩
  case rp => exact ⟨hx, hy, hnat hlo hhi, hrq, hrn, hsn, hse, hsd, hra, hrb⟩
  case rq => exact ⟨hx, hy, hrp, hnat hlo hhi, hrn, hsn, hse, hsd, hra, hrb⟩
  case rn => exact ⟨hx, hy, hrp, hrq, hnat hlo hhi, hsn, hse, hsd, hra, hrb⟩
  case sn => exact ⟨hx, hy, hrp, hrq, hrn, hnat hlo hhi, hse, hsd, hra, hrb⟩
  case se => exact ⟨hx, hy, hrp, hrq, hrn, hsn, hnat hlo hhi, hsd, hra, hrb⟩
  case sd => exact ⟨hx, hy, hrp, hrq, hrn, hsn, hse, hnat hlo hhi, hra, hrb⟩
  case ra => exact ⟨hx, hy, hrp, hrq, hrn, hsn, hse, hsd, ⟨hlo, hhi⟩, hrb⟩
  case rb => exact ⟨hx, hy, hrp, hrq, hrn, hsn, hse, hsd, hra, ⟨hlo, hhi⟩⟩
  all_goals exact ⟨hx, hy, hrp, hrq, hrn, hsn, hse, hsd, hra, hrb⟩

theorem fits_writeReg {s t : State} {v : Int} {r : Reg} (hs : Fits s)
    (h : writeReg s v r = .next t) : Fits t := by
  rcases writeReg_cases s v r with ⟨-, e⟩ | ⟨lo, hi, hp, hlo, hhi, e⟩ | ⟨_, _, -, -, e⟩ <;>
    rw [e] at h <;> cases h
  · exact hs
  · obtain ⟨hmsg, hparams, -⟩ := storeReg_frame s v r
    refine ⟨hparams ▸ hs.paramsWf, inRange_storeReg hs.inRange hp hlo hhi, ?_⟩
    rw [State.bufferWf, hmsg, hparams]
    exact hs.bufferWf

/-- The host writes no byte at or beyond `MSGMAX` (rule R84). -/
theorem fits_writeByte {s : State} (hs : Fits s) (a : Nat) (b : Byte) : Fits (writeByte s a b) := by
  obtain ⟨hwf, hbelow⟩ := hs.bufferWf
  rcases writeByte_cases s a b with ⟨ha, e⟩ | ⟨-, e⟩ <;> rw [e]
  · exact ⟨hs.paramsWf, hs.inRange, Memory.wf_write _ _ _ hwf, Memory.below_write _ _ _ _ ha hbelow⟩
  · exact hs

/-! ## The contents a reset leaves -/

/-- Whatever the free values are, each register takes what fits it (rule R281). -/
theorem inRange_resetTo (u : Nat → Nat) {s : State} (h : 1 ≤ s.params.nbits) :
    (resetTo u s).inRange := by
  have hnat (n : Nat) : n % 2 ^ s.params.nbits < 2 ^ s.params.nbits :=
    Nat.mod_lt _ (Nat.two_pow_pos _)
  exact ⟨hnat _, hnat _, hnat _, hnat _, hnat _, hnat _, hnat _, hnat _, signedOf_mem _ _ h,
    signedOf_mem _ _ h⟩

theorem bufferWf_resetTo (u : Nat → Nat) (s : State) : (resetTo u s).bufferWf := by
  obtain ⟨hwf, hbelow, -⟩ :=
    Memory.fill_spec (fun a => BitVec.ofNat 8 (u (36 + a))) s.params.msgmax
  exact ⟨hwf, hbelow⟩

theorem fits_resetTo (u : Nat → Nat) {s : State} (h : s.params.wf = true) : Fits (resetTo u s) := by
  obtain ⟨hn, -, -⟩ := (params_wf_iff _).1 h
  exact ⟨h, inRange_resetTo u (by omega), bufferWf_resetTo u s⟩

/-- A reset leaves no key bound and nothing latched, so it leaves a sound state (rule R281). -/
theorem sound_resetTo (u : Nat → Nat) {s : State} (h : s.params.wf = true) :
    (resetTo u s).Sound := by
  obtain ⟨hparams, hrange, hbuffer⟩ := fits_resetTo u h
  exact ⟨hparams, hrange, hbuffer, keysMatch_of_unbound rfl, latchMatch_of_err_ne nofun⟩

/-! ## Every step -/

theorem fits_act {a : Action} {s t : State} (hs : Fits s) (h : act a s = .next t) : Fits t := by
  rcases act_cases a s t h with ⟨_, -, -, -, hissue⟩ | ⟨_, _, -, -, rfl⟩ |
    ⟨_, _, _, -, -, -, hwrite⟩ | ⟨_, -, rfl⟩ | ⟨_, _, -, rfl⟩ | ⟨_, -, rfl⟩ | ⟨-, rfl⟩
  · exact fits_issue hs hissue
  · exact hs
  · exact fits_writeReg hs hwrite
  · exact ⟨hs.paramsWf, hs.inRange, hs.bufferWf⟩
  · exact fits_writeByte hs _ _
  · exact ⟨hs.paramsWf, hs.inRange, hs.bufferWf⟩
  · obtain ⟨hparams, hrange, hbuffer⟩ := fits_resetTo (Config.unspecified s.resets) hs.paramsWf
    exact ⟨hparams, hrange, hbuffer⟩

theorem fits_step {s t : State} (hs : Fits s) (h : step s = .next t) : Fits t := by
  cases htodo : s.host.todo with
  | nil =>
    rw [step_idle s htodo] at h
    cases h
    exact hs
  | cons a rest =>
    rw [step_cons s a rest htodo] at h
    have hs' : Fits (withTodo s rest) := ⟨hs.paramsWf, hs.inRange, hs.bufferWf⟩
    exact fits_act hs' h

/-- Settles O18: the three parts of soundness, each with its step lemma. -/
theorem everyStepKeepsSoundness : Obligations.EveryStepKeepsSoundness := by
  intro s t hs h
  have hfits : Fits s := ⟨hs.paramsWf, hs.inRange, hs.bufferWf⟩
  obtain ⟨hparams, hrange, hbuffer⟩ := fits_step hfits h
  exact ⟨hparams, hrange, hbuffer, keysMatch_step hs.keysMatch h, latchMatch_step hs.latchMatch h⟩

/-! ## The reset state -/

/-- The value every register holds fits the narrowest range, that of a signed one (logs 1 and 4). -/
theorem resetFill_lt : Config.resetFill < 2 ^ (State.reset.params.nbits - 1) := by decide +kernel

theorem inRange_reset : State.reset.inRange := by
  have hnat : Config.resetFill < 2 ^ State.reset.params.nbits :=
    resetFill_lt.trans (Nat.pow_lt_pow_right (by decide) (by decide))
  have hhi : (Config.resetFill : Int) < 2 ^ (State.reset.params.nbits - 1) := by
    exact_mod_cast resetFill_lt
  have hlo : (-2 ^ (State.reset.params.nbits - 1) : Int) ≤ Config.resetFill :=
    (neg_nonpos.2 (by positivity)).trans (Int.natCast_nonneg _)
  exact ⟨hnat, hnat, hnat, hnat, hnat, hnat, hnat, hnat, ⟨hlo, hhi⟩, ⟨hlo, hhi⟩⟩

/-- Settles O20: the reset state's values are in range, its buffer lists nothing and no key is
bound. -/
theorem resetStateIsSound : Obligations.ResetStateIsSound :=
  ⟨⟨by decide, inRange_reset, ⟨rfl, rfl⟩, keysMatch_of_unbound rfl, latchMatch_of_err_ne nofun⟩,
    by decide⟩

/-! ## Any contents are possible -/

/-- The free values that leave the contents of `t`, item by item. -/
def contentsOf (t : State) : Nat → Nat
  | 0 => t.din.toNat
  | 1 => t.dout.toNat
  | 2 => t.k1.toNat
  | 3 => t.k2.toNat
  | 4 => t.iv.toNat
  | 5 => t.chain.toNat
  | 6 => t.mlen.toNat
  | 7 => t.marker.toNat
  | 8 => t.h.toNat
  | 9 => t.key.toNat
  | 10 => t.x
  | 11 => t.y
  | 12 => t.rp
  | 13 => t.rq
  | 14 => (t.ra + 2 ^ (t.params.nbits - 1)).toNat
  | 15 => (t.rb + 2 ^ (t.params.nbits - 1)).toNat
  | 16 => t.rn
  | 17 => t.sn
  | 18 => t.se
  | 19 => t.sd
  | n + 20 => if h : n < 16 then t.rk[n].toNat else (t.msg.read (n - 16)).toNat

/-- A value of the signed range is what its offset from the range's foot is brought to (rule R41).
-/
theorem signedOf_offset {n : Nat} {v : Int} (hn : 1 ≤ n) (hlo : -2 ^ (n - 1) ≤ v)
    (hhi : v < 2 ^ (n - 1)) : signedOf n (v + 2 ^ (n - 1)).toNat = v := by
  obtain ⟨k, rfl⟩ := Nat.exists_eq_add_of_le' hn
  rw [Nat.add_sub_cancel] at *
  have hpow : (2 : Int) ^ (k + 1) = 2 * 2 ^ k := pow_succ' 2 k
  rw [signedOf, Nat.add_sub_cancel, Int.natCast_mod, Int.toNat_of_nonneg (by omega)]
  push_cast
  rw [Int.emod_eq_of_lt (by omega) (by omega)]
  omega

/-- A buffer inside the limit reads as unlisted from the limit on. -/
theorem read_of_below {limit : Nat} {m : Memory} (h : m.below limit = true) {a : Nat}
    (ha : limit ≤ a) : m.read a = Config.unlistedByte := by
  rw [Memory.below_iff] at h
  induction m with
  | nil => rfl
  | cons cell rest ih =>
    have hcell := h cell (by simp)
    rw [Memory.read_cons, if_neg (by omega)]
    exact ih fun o ho => h o (by simp [ho])

/-- A canonical buffer inside the limit is filled with its own bytes. -/
theorem fill_read {limit : Nat} {m : Memory} (hwf : m.wf = true) (hbelow : m.below limit = true) :
    Memory.fill m.read limit = m := by
  obtain ⟨hfwf, hfbelow, hfread⟩ := Memory.fill_spec m.read limit
  refine Memory.ext_of_read _ _ hfwf hwf fun a => ?_
  rcases Nat.lt_or_ge a limit with ha | ha
  · exact hfread a ha
  · rw [read_of_below hfbelow ha, read_of_below hbelow ha]

theorem contentsOf_msg (t : State) (a : Nat) :
    BitVec.ofNat 8 (contentsOf t (36 + a)) = t.msg.read a := by
  rw [show 36 + a = a + 16 + 20 by omega, contentsOf, dif_neg (by omega), Nat.add_sub_cancel,
    BitVec.ofNat_toNat, BitVec.setWidth_eq]

theorem contentsOf_rk (t : State) :
    (Vector.ofFn fun i : Fin 16 => BitVec.ofNat 48 (contentsOf t (20 + i.val))) = t.rk := by
  ext i hi
  rw [Vector.getElem_ofFn, Nat.add_comm, contentsOf, dif_pos hi, BitVec.ofNat_toNat,
    BitVec.setWidth_eq]

/-- A STATUS word of 0 is five fields of 0 (rules R34 and R251). -/
theorem fields_of_statusWord_zero {s : State} (h : statusWord s = 0#32) :
    s.err = .none ∧ s.keyv = false ∧ s.flagP = false ∧ s.flagV = false ∧ s.roots = 0#4 := by
  obtain ⟨herr, hkeyv, hP, hV, -, hroots, -⟩ := statusWord_fields s
  rw [h] at herr hkeyv hP hV hroots
  refine ⟨?_, hkeyv.symm, hP.symm, hV.symm, hroots.symm⟩
  have hcode : errCode s.err = 0#4 := herr.symm
  cases he : s.err <;> rw [he] at hcode <;> first | rfl | cases hcode

/-- Writing the STATUS fields a state has changes nothing. -/
theorem with_statusFields {s : State} {e : Err} {k p v : Bool} {r : BitVec 4} (he : s.err = e)
    (hk : s.keyv = k) (hp : s.flagP = p) (hv : s.flagV = v) (hr : s.roots = r) :
    { s with err := e, keyv := k, flagP := p, flagV := v, roots := r } = s := by
  subst he hk hp hv hr
  rfl

/-- Any contents that fit are what a reset leaves for some choice of the free values (rule R281). -/
theorem resetTo_contentsOf {t : State} (hstatus : statusWord t = 0#32) (hn : 1 ≤ t.params.nbits)
    (hrange : t.inRange) (hbuffer : t.bufferWf) : resetTo (contentsOf t) t = t := by
  obtain ⟨herr, hkeyv, hP, hV, hroots⟩ := fields_of_statusWord_zero hstatus
  obtain ⟨hx, hy, hrp, hrq, hrn, hsn, hse, hsd, ⟨hra0, hra1⟩, ⟨hrb0, hrb1⟩⟩ := hrange
  have hmsg : Memory.fill (fun a => BitVec.ofNat 8 (contentsOf t (36 + a))) t.params.msgmax =
      t.msg := by
    simp only [contentsOf_msg]
    exact fill_read hbuffer.1 hbuffer.2
  simp only [resetTo, contentsOf_rk, hmsg]
  simp only [contentsOf, BitVec.ofNat_toNat, BitVec.setWidth_eq, Nat.mod_eq_of_lt hx,
    Nat.mod_eq_of_lt hy, Nat.mod_eq_of_lt hrp, Nat.mod_eq_of_lt hrq, Nat.mod_eq_of_lt hrn,
    Nat.mod_eq_of_lt hsn, Nat.mod_eq_of_lt hse, Nat.mod_eq_of_lt hsd,
    signedOf_offset hn hra0 hra1, signedOf_offset hn hrb0 hrb1]
  exact with_statusFields herr hkeyv hP hV hroots

/-- What a reset leaves depends on the parameters and on what lies outside the CORE alone. -/
theorem resetTo_congr (u : Nat → Nat) {s t : State} (hparams : t.params = s.params)
    (horacle : t.oracle = s.oracle) (hresets : t.resets = s.resets) (hhost : t.host = s.host) :
    resetTo u s = resetTo u t := by
  simp only [resetTo, hparams, horacle, hresets, hhost]

theorem statusWord_resetTo (u : Nat → Nat) (s : State) : statusWord (resetTo u s) = 0#32 := by
  apply BitVec.eq_of_toNat_eq
  rw [toNat_statusWord]
  rfl

/-- Settles O21: the free values of the reset event, what any of them leave, and the ones that leave
given contents. -/
theorem resetLeavesArbitraryContents : Obligations.ResetLeavesArbitraryContents := by
  refine ⟨fun s rest htodo => ?event, fun u s => ⟨statusWord_resetTo u s, rfl, sound_resetTo u⟩,
    ?any⟩
  case event =>
    exact ⟨Config.unspecified s.resets, step_cons s .reset rest htodo⟩
  case any =>
    intro s t hstatus hparams hn hrange hbuffer horacle hresets hhost
    refine ⟨contentsOf t, ?_⟩
    rw [resetTo_congr (contentsOf t) hparams horacle hresets hhost]
    exact resetTo_contentsOf hstatus (hparams ▸ hn) hrange hbuffer

end Sys2Proof.Proofs

/-! # Uniform keys and chained blocks (family `other`: DES and DES-X)

Rules R147 and R178, and the known answers. A uniform half is a fixed point of every shift of the
schedule, so all rounds of a key with uniform halves see the same halves. -/

namespace Sys2Proof.Proofs

open Sys2Proof.Machine Sys2Proof.Claims

/-! ## Uniform halves -/

/-- A half of all zeros or all ones. -/
def UniformHalf (half : KeyHalf) : Prop := half = 0#28 ∨ half = 0xFFFFFFF#28

/-- The schedule's shifts do not move a uniform half. -/
theorem rotl28_uniform {half : KeyHalf} (h : UniformHalf half) :
    ∀ shift ∈ shiftSchedule, rotl28 half shift = half := by
  rcases h with rfl | rfl <;> decide

theorem foldl_rotl28_fixed {shifts : List Nat} {half : KeyHalf}
    (h : ∀ shift ∈ shifts, rotl28 half shift = half) : shifts.foldl rotl28 half = half := by
  induction shifts with
  | nil => rfl
  | cons shift rest ih =>
    obtain ⟨hshift, hrest⟩ := List.forall_mem_cons.1 h
    rw [List.foldl_cons, hshift, ih hrest]

/-- A uniform half is the same after every round (rule R147). -/
theorem halfAfter_uniform {half : KeyHalf} (h : UniformHalf half) (i : Nat) :
    halfAfter shiftSchedule half i = half :=
  foldl_rotl28_fixed fun shift hshift => rotl28_uniform h shift (List.mem_of_mem_take hshift)

/-- With uniform halves every round key is PC-2 of the two halves of PC-1 (rule R147). -/
theorem roundKey_of_uniform {k : Block} (hc : UniformHalf (c0 k)) (hd : UniformHalf (d0 k)) :
    ∀ rk ∈ (keySchedule k).toList, rk = pc2 (c0 k ++ d0 k) := by
  intro rk hmem
  obtain ⟨i, hi, hget⟩ := List.mem_iff_getElem.1 hmem
  rw [Vector.length_toList] at hi
  have hround := keySchedule_getElem? k i hi
  rw [halfAfter_uniform hc, halfAfter_uniform hd,
    List.getElem?_eq_getElem (by rwa [Vector.length_toList]), hget] at hround
  exact Option.some.inj hround

/-- Settles O27: the shifts add up to the width; and uniform halves stay what they are, so all round
keys are PC-2 of one value. -/
theorem uniformHalvesGiveEqualRoundKeys : Obligations.UniformHalvesGiveEqualRoundKeys := by
  refine ⟨foldl_rotl28_shiftSchedule, fun k hc hd => ?uniform, ?zeros, ?ones⟩
  case uniform =>
    have hequal : ∀ rk ∈ (keySchedule k).toList, ∀ rk' ∈ (keySchedule k).toList, rk = rk' :=
      fun rk hrk rk' hrk' =>
        (roundKey_of_uniform hc hd rk hrk).trans (roundKey_of_uniform hc hd rk' hrk').symm
    exact ⟨hequal, fun b => (processBlock_decrypt_eq_encrypt hequal b).symm⟩
  case zeros =>
    intro rk hrk
    have hc : c0 0#64 = 0#28 := by decide
    have hd : d0 0#64 = 0#28 := by decide
    rw [roundKey_of_uniform (.inl hc) (.inl hd) rk hrk, hc, hd]
    decide
  case ones =>
    intro rk hrk
    have hc : c0 0xFFFFFFFFFFFFFFFF#64 = 0xFFFFFFF#28 := by decide
    have hd : d0 0xFFFFFFFFFFFFFFFF#64 = 0xFFFFFFF#28 := by decide
    rw [roundKey_of_uniform (.inr hc) (.inr hd) rk hrk, hc, hd]
    decide

/-- Settles O30: the four transforms are evaluated; the first is the worked example of DESENC. -/
theorem publishedKnownAnswers : Obligations.PublishedKnownAnswers :=
  ⟨workedExample_encrypt, by decide +kernel, by decide +kernel, by decide +kernel⟩

/-! ## One block twice in a chain -/

/-- CBCINIT and CBCENC with a key bound: the first block of a chain (rules R166 and R167). -/
theorem commands_cbcinit_cbcenc {s : State} (hkey : s.keyv = true) :
    commands [.cbcinit, .cbcenc] s = .next { s with
      chain := desxEncrypt s s.iv s.din, dout := desxEncrypt s s.iv s.din } := by
  rw [commands_cons_of_next (exec_cbcinit s), commands_singleton,
    exec_cbcenc_keyed (s := { s with chain := s.iv }) hkey]
  rfl

/-- Settles O36: the second CBCENC is chained from the first ciphertext, and the first from IV. -/
theorem equalBlocksEncryptDifferently : Obligations.EqualBlocksEncryptDifferently := by
  refine ⟨fun s hkey => ?twice, fun s s' t t' hkey hkey' hrk hk1 hk2 hiv hdin ht ht' => ?determined⟩
  case twice =>
    have hseeded : exec .cbcenc { s with chain := s.iv } = .next { s with
        chain := desxEncrypt s s.iv s.din, dout := desxEncrypt s s.iv s.din } :=
      exec_cbcenc_keyed (s := { s with chain := s.iv }) hkey
    obtain ⟨t2, ht2⟩ := exec_completes .cbcenc
      { s with chain := desxEncrypt s s.iv s.din, dout := desxEncrypt s s.iv s.din }
    refine ⟨_, t2, commands_cbcinit_cbcenc hkey, ht2, ?_⟩
    exact eq_comm.trans (cbcenc_twice_dout_eq_iff (s := { s with chain := s.iv }) hkey hseeded ht2)
  case determined =>
    have hblock : desxEncrypt s s.iv s.din = desxEncrypt s' s'.iv s'.din := by
      simp only [desxEncrypt, hrk, hk1, hk2, hiv, hdin]
    rw [commands_cbcinit_cbcenc hkey] at ht
    rw [commands_cbcinit_cbcenc hkey'] at ht'
    cases ht
    cases ht'
    exact ⟨hblock, hblock⟩

end Sys2Proof.Proofs

/-! # The message commands (family `other`: XENCM and XDECM)

Rules R72 and R170 to R175. What the two block loops leave is said once for XENCM and once for
XDECM: the canonical form, the blocks, the chain and the bytes outside. The statements about the
commands are read off these. -/

namespace Sys2Proof.Proofs

open Sys2Proof.Machine Sys2Proof.Claims

/-! ## Packing -/

/-- Rule R72: a block is the big-endian sum of its bytes. -/
theorem toNat_readBlock (m : Memory) (a : Nat) : (readBlock m a).toNat =
    (m.read a).toNat * 2 ^ 56 + (m.read (a + 1)).toNat * 2 ^ 48 + (m.read (a + 2)).toNat * 2 ^ 40 +
      (m.read (a + 3)).toNat * 2 ^ 32 + (m.read (a + 4)).toNat * 2 ^ 24 +
      (m.read (a + 5)).toNat * 2 ^ 16 + (m.read (a + 6)).toNat * 2 ^ 8 +
      (m.read (a + 7)).toNat := by
  have hlt (k : Nat) := (m.read (a + k)).isLt
  have h0 := hlt 0
  have h1 := hlt 1
  have h2 := hlt 2
  have h3 := hlt 3
  have h4 := hlt 4
  have h5 := hlt 5
  have h6 := hlt 6
  have h7 := hlt 7
  simp only [readBlock, readBytes, BitVec.toNat_ofNat, Nat.add_assoc, Nat.reduceAdd,
    Nat.add_zero] at *
  omega

theorem bigEndianPacking : BigEndianPacking := ⟨toNat_readBlock, fun _ _ _ => rfl⟩

/-- The byte at an address is a byte of the block it lies in. -/
theorem read_eq_blockByte (m : Memory) (a : Nat) :
    m.read a = blockByte (readBlock m (8 * (a / 8))) (a % 8) := by
  rw [blockByte_readBlock m _ _ (by omega), Nat.div_add_mod]

/-! ## What XENCM leaves -/

/-- Buffer and chain after the block loop of XENCM (rule R171). -/
def encrypted (s : State) : Memory × Block :=
  encryptBlocks s (blockCount s.mlen.toNat) 0 (padMessage s.msg s.mlen.toNat) s.iv

theorem exec_xencm {s : State} (hkey : s.keyv = true) (hlen : s.mlen.toNat ≤ s.params.msgmax) :
    exec .xencm s = .next { s with
      msg := (encrypted s).1, chain := (encrypted s).2
      mlen := BitVec.ofNat 32 (8 * blockCount s.mlen.toNat) } :=
  exec_xencm_inDomain hkey (Nat.not_lt.2 hlen)

/-- The padded message byte by byte (rule R170). -/
theorem padMessage_read {m : Memory} {len : Nat} (h : m.wf = true) (a : Nat)
    (ha : a < 8 * blockCount len) :
    (padMessage m len).read a = if a < len then m.read a else 0#8 := by
  rw [(padMessage_spec m len h).2]
  by_cases hin : a < len
  · rw [if_pos hin, if_neg (by omega)]
  · rw [if_neg hin, if_pos (by omega)]

theorem encrypted_wf {s : State} (h : s.msg.wf = true) : (encrypted s).1.wf = true :=
  (encryptBlocks_spec s _ 0 _ s.iv (padMessage_spec s.msg _ h).1).1

/-- Each block is the padded message's block, encrypted and chained from the block before it or IV.
-/
theorem encrypted_block {s : State} (h : s.msg.wf = true) {j : Nat}
    (hj : j < blockCount s.mlen.toNat) :
    readBlock (encrypted s).1 (8 * j) =
      desxEncrypt s (if j = 0 then s.iv else readBlock (encrypted s).1 (8 * (j - 1)))
        (readBlock (padMessage s.msg s.mlen.toNat) (8 * j)) := by
  obtain ⟨-, -, hblocks, -⟩ :=
    encryptBlocks_spec s (blockCount s.mlen.toNat) 0 _ s.iv (padMessage_spec s.msg _ h).1
  exact hblocks j (Nat.zero_le j) (by omega)

theorem encrypted_chain {s : State} (h : s.msg.wf = true) :
    (encrypted s).2 = if blockCount s.mlen.toNat = 0 then s.iv
      else readBlock (encrypted s).1 (8 * (blockCount s.mlen.toNat - 1)) := by
  obtain ⟨-, -, -, hchain⟩ :=
    encryptBlocks_spec s (blockCount s.mlen.toNat) 0 _ s.iv (padMessage_spec s.msg _ h).1
  rwa [Nat.zero_add] at hchain

/-- Nothing is written at or past the padded length. -/
theorem encrypted_read_outside {s : State} (h : s.msg.wf = true) {a : Nat}
    (ha : 8 * blockCount s.mlen.toNat ≤ a) : (encrypted s).1.read a = s.msg.read a := by
  obtain ⟨hpwf, hpread⟩ := padMessage_spec s.msg s.mlen.toNat h
  obtain ⟨-, houtside, -, -⟩ := encryptBlocks_spec s (blockCount s.mlen.toNat) 0 _ s.iv hpwf
  rw [encrypted, houtside a (by omega), hpread, if_neg (by omega)]

theorem blockCount_eq_zero_iff (len : Nat) : blockCount len = 0 ↔ len = 0 := by
  rw [blockCount]
  omega

/-- Settles O37: what XENCM leaves, with the padded message's blocks as plaintext. -/
theorem xencmEncryptsTheMessage : Obligations.XencmEncryptsTheMessage := by
  refine ⟨bigEndianPacking, fun s hkey hlen hwf => ⟨_, fun j =>
    readBlock (padMessage s.msg s.mlen.toNat) (8 * j), exec_xencm hkey hlen, rfl, rfl, ?plain,
    fun j hj => encrypted_block hwf hj, ?chain, fun a ha => encrypted_read_outside hwf ha,
    encrypted_wf hwf⟩⟩
  case plain =>
    intro j hj k hk
    have ha : 8 * j + k < 8 * blockCount s.mlen.toNat := by rw [blockCount]; omega
    rw [blockByte_readBlock _ _ k hk, padMessage_read hwf _ ha]
  case chain =>
    refine (encrypted_chain hwf).trans ?_
    simp only [blockCount_eq_zero_iff]
    rfl

/-! ## What XDECM leaves -/

/-- Buffer and chain after the block loop of XDECM (rule R172). -/
def decrypted (s : State) : Memory × Block :=
  decryptBlocks s (s.mlen.toNat / 8) 0 s.msg s.iv

theorem exec_xdecm {s : State} (hkey : s.keyv = true) (hlen : s.mlen.toNat ≤ s.params.msgmax)
    (h8 : s.mlen.toNat % 8 = 0) :
    exec .xdecm s = .next { s with
      msg := (decrypted s).1, chain := (decrypted s).2
      mlen := BitVec.ofNat 32 (stripLen (decrypted s).1 s.mlen.toNat) } :=
  exec_xdecm_inDomain hkey fun hbad => hbad.elim (Nat.not_lt.2 hlen) (· h8)

theorem decrypted_wf {s : State} (h : s.msg.wf = true) : (decrypted s).1.wf = true :=
  (decryptBlocks_spec s _ 0 _ s.iv h).1

/-- Each block is the message's block, decrypted and unchained by the ciphertext before it or IV. -/
theorem decrypted_block {s : State} (h : s.msg.wf = true) {j : Nat} (hj : j < s.mlen.toNat / 8) :
    readBlock (decrypted s).1 (8 * j) =
      desxDecrypt s (if j = 0 then s.iv else readBlock s.msg (8 * (j - 1)))
        (readBlock s.msg (8 * j)) := by
  obtain ⟨-, -, hblocks, -⟩ := decryptBlocks_spec s (s.mlen.toNat / 8) 0 s.msg s.iv h
  exact hblocks j (Nat.zero_le j) (by omega)

theorem decrypted_chain {s : State} (h : s.msg.wf = true) :
    (decrypted s).2 = if s.mlen.toNat / 8 = 0 then s.iv
      else readBlock s.msg (8 * (s.mlen.toNat / 8 - 1)) := by
  obtain ⟨-, -, -, hchain⟩ := decryptBlocks_spec s (s.mlen.toNat / 8) 0 s.msg s.iv h
  rwa [Nat.zero_add] at hchain

theorem decrypted_read_outside {s : State} (h : s.msg.wf = true) {a : Nat}
    (ha : 8 * (s.mlen.toNat / 8) ≤ a) : (decrypted s).1.read a = s.msg.read a := by
  obtain ⟨-, houtside, -, -⟩ := decryptBlocks_spec s (s.mlen.toNat / 8) 0 s.msg s.iv h
  exact houtside a (by omega)

/-- The stripped length is no longer than MLEN, so it fits it. -/
theorem toNat_stripLen (m : Memory) (len : BitVec 32) :
    (BitVec.ofNat 32 (stripLen m len.toNat)).toNat = stripLen m len.toNat := by
  have hle := (stripLen_spec m len.toNat).1
  rw [BitVec.toNat_ofNat, Nat.mod_eq_of_lt (hle.trans_lt len.isLt)]

/-- Settles O38: what XDECM leaves, and what the stripped length is. -/
theorem xdecmDecryptsTheMessage : Obligations.XdecmDecryptsTheMessage := by
  refine ⟨bigEndianPacking, fun s hkey hlen h8 hwf => ?_⟩
  obtain ⟨hle, hlast, hzeros⟩ := stripLen_spec (decrypted s).1 s.mlen.toNat
  refine ⟨_, exec_xdecm hkey hlen h8, rfl, fun j hj => decrypted_block hwf hj, ?chain,
    fun a ha => decrypted_read_outside hwf (by omega), ?_⟩
  case chain =>
    refine (decrypted_chain hwf).trans ?_
    by_cases hzero : s.mlen.toNat = 0
    · rw [if_pos hzero, if_pos (by omega)]
    · rw [if_neg hzero, if_neg (by omega),
        show 8 * (s.mlen.toNat / 8 - 1) = s.mlen.toNat - 8 by omega]
  rw [toNat_stripLen]
  exact ⟨hle, hlast, hzeros, decrypted_wf hwf⟩

/-! ## Lengths -/

/-- Settles O40: XENCM rounds the length up to whole blocks, XDECM strips it. -/
theorem messageLengthsAfterCommands : Obligations.MessageLengthsAfterCommands := by
  refine ⟨fun s t hkey hlen hfit h => ?xencm, fun s t hkey hlen h8 h => ?xdecm⟩
  case xencm =>
    rw [exec_xencm hkey hlen] at h
    cases h
    rw [BitVec.toNat_ofNat, blockCount, Nat.mod_eq_of_lt hfit]
    omega
  case xdecm =>
    rw [exec_xdecm hkey hlen h8] at h
    cases h
    obtain ⟨hle, hlast, -⟩ := stripLen_spec (decrypted s).1 s.mlen.toNat
    rw [toNat_stripLen]
    exact ⟨hle, hlast⟩

/-! ## The round trip -/

/-- Stripping ends at a non-zero byte that only zeros follow (rule R173). -/
theorem stripLen_eq {m : Memory} {len k : Nat} (hk : 1 ≤ k) (hle : k ≤ len)
    (hlast : m.read (k - 1) ≠ 0#8) (hzeros : ∀ a, k ≤ a → a < len → m.read a = 0#8) :
    stripLen m len = k := by
  obtain ⟨hslen, hslast, hszeros⟩ := stripLen_spec m len
  rcases Nat.lt_trichotomy (stripLen m len) k with hlt | heq | hgt
  · exact absurd (hszeros (k - 1) (by omega) (by omega)) hlast
  · exact heq
  · have hzero := hzeros (stripLen m len - 1) (by omega) (by omega)
    exact absurd hzero (hslast.resolve_left (by omega))

/-- The state between the two commands of the round trip: XENCM's answer. -/
def afterXencm (s : State) : State :=
  { s with
    msg := (encrypted s).1, chain := (encrypted s).2
    mlen := BitVec.ofNat 32 (8 * blockCount s.mlen.toNat) }

/-- XDECM of what XENCM left gives the padded message back (rules R171 and R172). -/
theorem decrypted_afterXencm_read {s : State} (hwf : s.msg.wf = true)
    (hmlen : (afterXencm s).mlen.toNat = 8 * blockCount s.mlen.toNat) {a : Nat}
    (ha : a < 8 * blockCount s.mlen.toNat) :
    (decrypted (afterXencm s)).1.read a = (padMessage s.msg s.mlen.toNat).read a := by
  have hj : a / 8 < blockCount s.mlen.toNat := by omega
  have hblock : readBlock (decrypted (afterXencm s)).1 (8 * (a / 8)) =
      readBlock (padMessage s.msg s.mlen.toNat) (8 * (a / 8)) := by
    rw [decrypted_block (s := afterXencm s) (encrypted_wf hwf) (by omega)]
    show desxDecrypt s (if a / 8 = 0 then s.iv else readBlock (encrypted s).1 (8 * (a / 8 - 1)))
      (readBlock (encrypted s).1 (8 * (a / 8))) = _
    conv_lhs => rw [encrypted_block hwf hj]
    exact desxDecrypt_desxEncrypt s _ _
  rw [read_eq_blockByte, hblock, ← read_eq_blockByte]

/-- Settles O41: the padded message comes back, and stripping it ends where the message did. -/
theorem messageRoundTrip : Obligations.MessageRoundTrip := by
  intro s hparams hkey hpos hlen hfit hwf hlast
  obtain ⟨-, -, h8⟩ := (params_wf_iff _).1 hparams
  have hmlen : (afterXencm s).mlen.toNat = 8 * blockCount s.mlen.toNat :=
    (BitVec.toNat_ofNat _ _).trans (Nat.mod_eq_of_lt hfit)
  have hpadded : s.mlen.toNat ≤ 8 * blockCount s.mlen.toNat := by rw [blockCount]; omega
  have hread (a : Nat) (ha : a < 8 * blockCount s.mlen.toNat) :
      (decrypted (afterXencm s)).1.read a = if a < s.mlen.toNat then s.msg.read a else 0#8 :=
    (decrypted_afterXencm_read hwf hmlen ha).trans (padMessage_read hwf a ha)
  have hstrip : stripLen (decrypted (afterXencm s)).1 (afterXencm s).mlen.toNat =
      s.mlen.toNat := by
    rw [hmlen]
    refine stripLen_eq hpos hpadded ?_ fun a hle hlt => ?_
    · rwa [hread _ (by omega), if_pos (by omega)]
    · rw [hread a hlt, if_neg (by omega)]
  have hxdecm := exec_xdecm (s := afterXencm s) hkey
    (hmlen.trans_le (blockCount_le _ _ hlen h8)) (by omega)
  rw [hstrip, BitVec.ofNat_toNat, BitVec.setWidth_eq] at hxdecm
  refine ⟨afterXencm s, _, exec_xencm hkey hlen, hxdecm, rfl, fun a ha => ?_⟩
  exact (hread a (by omega)).trans (if_pos ha)

/-! ## Block commands one after another -/

/-- `c` has a key bound and the round keys and whitenings of `s`: it encrypts as `s` does. -/
structure SameCipher (s c : State) : Prop where
  keyv : c.keyv = true
  rk : c.rk = s.rk
  k1 : c.k1 = s.k1
  k2 : c.k2 = s.k2

theorem SameCipher.desxEncrypt {s c : State} (h : SameCipher s c) (chain b : Block) :
    desxEncrypt c chain b = desxEncrypt s chain b := by
  rw [Machine.desxEncrypt, Machine.desxEncrypt, h.rk, h.k1, h.k2]

theorem SameCipher.desxDecrypt {s c : State} (h : SameCipher s c) (chain b : Block) :
    desxDecrypt c chain b = desxDecrypt s chain b := by
  rw [Machine.desxDecrypt, Machine.desxDecrypt, h.rk, h.k1, h.k2]

/-- The block command takes block `j` of `inp` to block `j` of `out`, and CHAIN from `ch j` to
`ch (j + 1)`, in every state that encrypts as `s` does. -/
def StreamsBlock (i : Instr) (s : State) (inp out ch : Nat → Block) (j : Nat) : Prop :=
  ∀ c, SameCipher s c → c.chain = ch j → ∃ t, exec i { c with din := inp j } = .next t ∧
    SameCipher s t ∧ t.chain = ch (j + 1) ∧ t.dout = out j

/-- A block command that takes each block to its output takes the list to the list of outputs. -/
theorem streamed_range' {i : Instr} {s : State} {inp out ch : Nat → Block} (n k : Nat)
    (hblock : ∀ j, k ≤ j → j < k + n → StreamsBlock i s inp out ch j) {c : State}
    (hc : SameCipher s c) (hchain : c.chain = ch k) :
    ∃ u, streamed i ((List.range' k n).map inp) c = some ((List.range' k n).map out, u) ∧
      u.chain = ch (k + n) := by
  induction n generalizing k c with
  | zero => exact ⟨c, rfl, hchain⟩
  | succ n ih =>
    obtain ⟨t, ht, hsame, htchain, hdout⟩ := hblock k le_rfl (by omega) c hc hchain
    obtain ⟨u, hu, huchain⟩ :=
      ih (k + 1) (fun j hlo hhi => hblock j (by omega) (by omega)) hsame htchain
    refine ⟨u, ?_, by rw [huchain, Nat.add_right_comm, Nat.add_assoc]⟩
    rw [List.range'_succ, List.map_cons, List.map_cons, streamed, ht]
    simp only [hu, hdout, Option.map_some]

/-- CBCENC, with each block's output the CHAIN of the next one (rule R167). -/
theorem streamsBlock_cbcenc {s : State} {inp ch : Nat → Block} {j : Nat}
    (h : ch (j + 1) = desxEncrypt s (ch j) (inp j)) :
    StreamsBlock .cbcenc s inp (fun j => ch (j + 1)) ch j := by
  intro c hc hchain
  have hout : desxEncrypt { c with din := inp j } c.chain (inp j) = ch (j + 1) := by
    rw [h, ← hchain]
    exact hc.desxEncrypt _ _
  exact ⟨_, exec_cbcenc_keyed (s := { c with din := inp j }) hc.keyv,
    ⟨hc.keyv, hc.rk, hc.k1, hc.k2⟩, hout, hout⟩

/-- CBCDEC, with each block the CHAIN of the next one (rule R168). -/
theorem streamsBlock_cbcdec {s : State} {inp out ch : Nat → Block} {j : Nat}
    (hout : out j = desxDecrypt s (ch j) (inp j)) (hch : ch (j + 1) = inp j) :
    StreamsBlock .cbcdec s inp out ch j := by
  intro c hc hchain
  refine ⟨_, exec_cbcdec_keyed (s := { c with din := inp j }) hc.keyv,
    ⟨hc.keyv, hc.rk, hc.k1, hc.k2⟩, hch.symm, ?_⟩
  rw [hout, ← hchain]
  exact hc.desxDecrypt _ _

/-- The chain before block `j` of a buffer: the block before it, or IV. -/
def chainBefore (iv : Block) (m : Memory) (j : Nat) : Block :=
  if j = 0 then iv else readBlock m (8 * (j - 1))

theorem chainBefore_succ (iv : Block) (m : Memory) (j : Nat) :
    chainBefore iv m (j + 1) = readBlock m (8 * j) := if_neg (Nat.succ_ne_zero j)

theorem blocksOf_eq (m : Memory) (n : Nat) :
    blocksOf m n = (List.range' 0 n).map fun j => readBlock m (8 * j) := by
  rw [blocksOf, List.range_eq_range']

/-- Settles O39: the recurrences of the two block loops are the block commands' own. -/
theorem messageCommandsAreChainedBlockCommands :
    Obligations.MessageCommandsAreChainedBlockCommands := by
  refine ⟨fun s t c hkey hlen hwf ht hc => ?xencm, fun s t c hkey hlen h8 hwf ht hc => ?xdecm⟩ <;>
    rw [exec_cbcinit] at hc <;> cases hc
  case xencm.refl =>
    rw [exec_xencm hkey hlen] at ht
    cases ht
    have hblock : ∀ j, 0 ≤ j → j < 0 + blockCount s.mlen.toNat → StreamsBlock .cbcenc s
        (fun j => readBlock (padMessage s.msg s.mlen.toNat) (8 * j))
        (fun j => chainBefore s.iv (encrypted s).1 (j + 1)) (chainBefore s.iv (encrypted s).1) j :=
      fun j _ hj => streamsBlock_cbcenc
        ((chainBefore_succ _ _ j).trans (encrypted_block hwf (by omega)))
    obtain ⟨u, hu, huchain⟩ := streamed_range' (c := { s with chain := s.iv }) _ 0 hblock
      ⟨hkey, rfl, rfl, rfl⟩ rfl
    simp only [chainBefore_succ, ← blocksOf_eq, Nat.zero_add] at hu huchain
    exact ⟨u, hu, huchain.trans (encrypted_chain hwf).symm⟩
  case xdecm.refl =>
    rw [exec_xdecm hkey hlen h8] at ht
    cases ht
    have hblock : ∀ j, 0 ≤ j → j < 0 + s.mlen.toNat / 8 → StreamsBlock .cbcdec s
        (fun j => readBlock s.msg (8 * j)) (fun j => readBlock (decrypted s).1 (8 * j))
        (chainBefore s.iv s.msg) j :=
      fun j _ hj => streamsBlock_cbcdec (decrypted_block hwf (by omega)) (chainBefore_succ _ _ j)
    obtain ⟨u, hu, huchain⟩ := streamed_range' (c := { s with chain := s.iv }) _ 0 hblock
      ⟨hkey, rfl, rfl, rfl⟩ rfl
    simp only [← blocksOf_eq, Nat.zero_add] at hu huchain
    exact ⟨u, hu, huchain.trans (decrypted_chain hwf).symm⟩

end Sys2Proof.Proofs

/-! # MRTEST (family `other`: the Miller–Rabin test)

Rules R185 to R190. The bases a run draws are listed by the rounds themselves; every clause about
them is an induction on the number of rounds. That a prime is accepted is Fermat's little theorem
and the fact that 1 has no square roots modulo a prime but 1 and -1. -/

namespace Sys2Proof.Proofs

open Sys2Proof.Machine Sys2Proof.Claims

theorem exec_mrtest (rounds : Nat) (s : State) :
    exec (.mrtest rounds) s = .next { s with
      flagP := (isProbablePrime s.x rounds s.oracle).1
      oracle := (isProbablePrime s.x rounds s.oracle).2 } := rfl

/-! ## The draw -/

/-- Settles O46: an answer outside the interval is folded into it, one inside is taken as it is. -/
theorem drawIsAnyValueOfItsInterval : Obligations.DrawIsAnyValueOfItsInterval := by
  refine fun lo hi h => ⟨fun o => draw_mem lo hi o h, fun a k hlo hhi rest => ?_⟩
  rw [draw_cons, clip_of_mem lo hi a ⟨hlo, hhi⟩]

/-- The next supplied answer is drawn when it lies in the interval. -/
theorem draw_supplied {lo hi a : Nat} {o : Oracle} (h : o.answers[0]? = some a) (hlo : lo ≤ a)
    (hhi : a ≤ hi) : (draw lo hi o).1 = a := by
  obtain ⟨answers, drawn⟩ := o
  cases answers with
  | nil => cases h
  | cons u rest =>
    cases h
    rw [draw_cons, clip_of_mem lo hi _ ⟨hlo, hhi⟩]

/-! ## The checks before the rounds -/

theorem isProbablePrime_lt_two {n : Nat} (rounds : Nat) (o : Oracle) (h : n < 2) :
    isProbablePrime n rounds o = (false, o) := if_pos h

theorem isProbablePrime_two_three {n : Nat} (rounds : Nat) (o : Oracle) (h : n = 2 ∨ n = 3) :
    isProbablePrime n rounds o = (true, o) := by
  rw [isProbablePrime, if_neg (by omega), if_pos h]

theorem isProbablePrime_even {n : Nat} (rounds : Nat) (o : Oracle) (h4 : 4 ≤ n)
    (heven : n % 2 = 0) : isProbablePrime n rounds o = (false, o) := by
  rw [isProbablePrime, if_neg (by omega), if_neg (by omega), if_pos heven]

/-- An odd number from 5 up is decided by the rounds (rule R185). -/
theorem isProbablePrime_odd {n : Nat} (rounds : Nat) (o : Oracle) (h5 : 5 ≤ n)
    (hodd : n % 2 = 1) :
    isProbablePrime n rounds o = mrRounds n (decompose n).1 (decompose n).2 rounds o := by
  rw [isProbablePrime, if_neg (by omega), if_neg (by omega), if_neg (by omega)]

/-- Settles O43: the four verdicts without a draw, in the order of the checks. -/
theorem mrtestVerdictWithoutDraws : Obligations.MrtestVerdictWithoutDraws := by
  intro s rounds
  refine ⟨fun h => ?lt, fun h => ?small, fun h4 heven => ?even, fun h5 hodd => ?noRounds⟩
  case lt => rw [exec_mrtest, isProbablePrime_lt_two rounds _ h]
  case small => rw [exec_mrtest, isProbablePrime_two_three rounds _ h]
  case even => rw [exec_mrtest, isProbablePrime_even rounds _ h4 heven]
  case noRounds =>
    rw [exec_mrtest, isProbablePrime_odd 0 _ h5 hodd]
    rfl

/-! ## The bases drawn -/

/-- The bases the rounds draw, in order, up to the first that is rejected (rules R185 and R188). -/
def drawnBases (n s d : Nat) : Nat → Oracle → List Nat
  | 0, _ => []
  | k + 1, o => (draw 2 (n - 2) o).1 ::
      if witnessRound n s d (draw 2 (n - 2) o).1 then drawnBases n s d k (draw 2 (n - 2) o).2
      else []

section Rounds

variable (n s d : Nat)

/-- A base that is rejected is the last one. -/
theorem drawnBases_rejected {k : Nat} {o : Oracle}
    (h : ¬witnessRound n s d (draw 2 (n - 2) o).1 = true) :
    drawnBases n s d (k + 1) o = [(draw 2 (n - 2) o).1] := by
  rw [drawnBases, if_neg h]

/-- A base that is accepted is followed by those of the rounds after it. -/
theorem drawnBases_accepted {k : Nat} {o : Oracle}
    (h : witnessRound n s d (draw 2 (n - 2) o).1 = true) :
    drawnBases n s d (k + 1) o =
      (draw 2 (n - 2) o).1 :: drawnBases n s d k (draw 2 (n - 2) o).2 := by
  rw [drawnBases, if_pos h]

theorem mrRounds_rejected {k : Nat} {o : Oracle}
    (h : ¬witnessRound n s d (draw 2 (n - 2) o).1 = true) :
    mrRounds n s d (k + 1) o = (false, (draw 2 (n - 2) o).2) := by
  rw [mrRounds, if_neg h]

theorem mrRounds_accepted {k : Nat} {o : Oracle}
    (h : witnessRound n s d (draw 2 (n - 2) o).1 = true) :
    mrRounds n s d (k + 1) o = mrRounds n s d k (draw 2 (n - 2) o).2 := by
  rw [mrRounds, if_pos h]

theorem length_drawnBases_le (k : Nat) (o : Oracle) : (drawnBases n s d k o).length ≤ k := by
  induction k generalizing o with
  | zero => exact le_rfl
  | succ k ih =>
    by_cases h : witnessRound n s d (draw 2 (n - 2) o).1 = true
    · rw [drawnBases_accepted n s d h, List.length_cons]
      exact Nat.succ_le_succ (ih _)
    · rw [drawnBases_rejected n s d h, List.length_singleton]
      omega

/-- Every base lies in `[2, n - 2]` (rule R188). -/
theorem mem_drawnBases (hn : 4 ≤ n) {a : Nat} (k : Nat) (o : Oracle)
    (ha : a ∈ drawnBases n s d k o) : 2 ≤ a ∧ a ≤ n - 2 := by
  have hdraw (o : Oracle) := draw_mem 2 (n - 2) o (by omega)
  induction k generalizing o with
  | zero => cases ha
  | succ k ih =>
    by_cases h : witnessRound n s d (draw 2 (n - 2) o).1 = true
    · rw [drawnBases_accepted n s d h] at ha
      rcases List.mem_cons.1 ha with rfl | ha
      · exact hdraw o
      · exact ih _ ha
    · rw [drawnBases_rejected n s d h, List.mem_singleton] at ha
      exact ha ▸ hdraw o

/-- The rounds make one draw a base, and take one supplied answer a draw (rule R188). -/
theorem mrRounds_oracle (k : Nat) (o : Oracle) :
    (mrRounds n s d k o).2.drawn = o.drawn + (drawnBases n s d k o).length ∧
      (mrRounds n s d k o).2.answers = o.answers.drop (drawnBases n s d k o).length := by
  induction k generalizing o with
  | zero => exact ⟨rfl, rfl⟩
  | succ k ih =>
    by_cases h : witnessRound n s d (draw 2 (n - 2) o).1 = true
    · obtain ⟨hdrawn, hanswers⟩ := ih (draw 2 (n - 2) o).2
      rw [mrRounds_accepted n s d h, drawnBases_accepted n s d h, hdrawn, hanswers, draw_drawn,
        draw_answers, List.length_cons, List.drop_tail]
      exact ⟨by omega, rfl⟩
    · rw [mrRounds_rejected n s d h, drawnBases_rejected n s d h, draw_drawn, draw_answers,
        List.length_singleton, List.drop_one]
      exact ⟨rfl, rfl⟩

/-- A supplied answer in range is the base of its round. -/
theorem drawnBases_supplied (k : Nat) (o : Oracle) (j : Nat)
    (hj : j < (drawnBases n s d k o).length) {a : Nat} (ha : o.answers[j]? = some a) (hlo : 2 ≤ a)
    (hhi : a ≤ n - 2) :
    (drawnBases n s d k o)[j]? = some a := by
  induction k generalizing o j with
  | zero => cases hj
  | succ k ih =>
    cases j with
    | zero =>
      rw [drawnBases, List.getElem?_cons_zero, draw_supplied ha hlo hhi]
    | succ j =>
      by_cases h : witnessRound n s d (draw 2 (n - 2) o).1 = true
      · rw [drawnBases_accepted n s d h, List.length_cons] at hj
        rw [drawnBases_accepted n s d h, List.getElem?_cons_succ]
        exact ih _ j (Nat.lt_of_succ_lt_succ hj) (by rwa [draw_answers, List.getElem?_tail])
      · rw [drawnBases_rejected n s d h, List.length_singleton] at hj
        omega

/-- The verdict over the bases: all rounds executed and accepting, or the last base the first that
is rejected (rule R185). -/
theorem mrRounds_verdict (k : Nat) (o : Oracle) :
    ((mrRounds n s d k o).1 = true ∧ (drawnBases n s d k o).length = k ∧
        ∀ a ∈ drawnBases n s d k o, witnessRound n s d a = true) ∨
      ((mrRounds n s d k o).1 = false ∧ ∃ init a, drawnBases n s d k o = init ++ [a] ∧
        (∀ b ∈ init, witnessRound n s d b = true) ∧ ¬witnessRound n s d a = true) := by
  induction k generalizing o with
  | zero => exact .inl ⟨rfl, rfl, nofun⟩
  | succ k ih =>
    by_cases h : witnessRound n s d (draw 2 (n - 2) o).1 = true
    · rw [mrRounds_accepted n s d h, drawnBases_accepted n s d h]
      rcases ih (draw 2 (n - 2) o).2 with ⟨hp, hlen, hall⟩ | ⟨hp, init, a, hbases, hinit, ha⟩
      · exact .inl ⟨hp, by rw [List.length_cons, hlen], List.forall_mem_cons.2 ⟨h, hall⟩⟩
      · exact .inr ⟨hp, _ :: init, a, by rw [hbases, List.cons_append],
          List.forall_mem_cons.2 ⟨h, hinit⟩, ha⟩
    · rw [mrRounds_rejected n s d h, drawnBases_rejected n s d h]
      exact .inr ⟨rfl, [], _, rfl, nofun, h⟩

end Rounds

/-! ## What a round accepts -/

/-- The odd part of a number and the power of two beside it are determined (rule R186). -/
theorem two_pow_mul_odd_inj {s d s' d' : Nat} (hd : d % 2 = 1) (hd' : d' % 2 = 1)
    (h : 2 ^ s * d = 2 ^ s' * d') : s = s' ∧ d = d' := by
  have hle {s d s' d' : Nat} (hd' : d' % 2 = 1) (h : 2 ^ s * d = 2 ^ s' * d') : s ≤ s' := by
    have hcoprime : Nat.Coprime (2 ^ s) d' :=
      Nat.Coprime.pow_left s (Nat.coprime_two_left.2 (Nat.odd_iff.2 hd'))
    have hdvd : 2 ^ s ∣ 2 ^ s' := hcoprime.dvd_of_dvd_mul_right (h ▸ Nat.dvd_mul_right _ _)
    exact (Nat.pow_dvd_pow_iff_le_right (by decide)).1 hdvd
  have hs : s = s' := Nat.le_antisymm (hle hd' h) (hle hd h.symm)
  subst hs
  exact ⟨rfl, Nat.eq_of_mul_eq_mul_left (Nat.two_pow_pos s) h⟩

/-- The model's round accepts what rules R186 and R187 say. -/
theorem accepts_iff_witnessRound {n : Nat} (h : 1 < n) (hodd : n % 2 = 1) (a : Nat) :
    Accepts n a ↔ witnessRound n (decompose n).1 (decompose n).2 a = true := by
  obtain ⟨hdec, hdecOdd⟩ := decompose_spec n h
  rw [witnessRound_iff n _ _ a (decompose_pos n h hodd)]
  constructor
  · rintro ⟨s, d, hsd, hd, haccept⟩
    obtain ⟨rfl, rfl⟩ := two_pow_mul_odd_inj hd hdecOdd (hsd.symm.trans hdec)
    exact haccept
  · exact fun haccept => ⟨_, _, hdec, hdecOdd, haccept⟩

/-- Settles O42: the bases are `drawnBases`, and a round accepts in the words of the rules. -/
theorem mrtestVerdictOverItsDraws : Obligations.MrtestVerdictOverItsDraws := by
  intro s rounds h5 hodd
  have hexec := exec_mrtest rounds s
  rw [isProbablePrime_odd rounds _ h5 hodd] at hexec
  obtain ⟨hdrawn, hanswers⟩ :=
    mrRounds_oracle s.x (decompose s.x).1 (decompose s.x).2 rounds s.oracle
  refine ⟨_, drawnBases s.x (decompose s.x).1 (decompose s.x).2 rounds s.oracle, hexec, rfl,
    length_drawnBases_le _ _ _ _ _, fun a ha => mem_drawnBases _ _ _ (by omega) _ _ ha, hdrawn,
    hanswers, fun k hk a ha hlo hhi => drawnBases_supplied _ _ _ _ _ k hk ha hlo hhi, ?_⟩
  simp only [accepts_iff_witnessRound (by omega : 1 < s.x) hodd]
  exact mrRounds_verdict _ _ _ _ _

/-! ## Primes -/

/-- Where 1 has no square roots but 1 and -1, a root of 1 of order a power of two is 1 or has -1
among its squarings. -/
theorem eq_one_or_exists_neg_one {R : Type} [CommRing R] [NoZeroDivisors R] {y : R} (s : Nat)
    (h : y ^ 2 ^ s = 1) : y = 1 ∨ ∃ i < s, y ^ 2 ^ i = -1 := by
  induction s with
  | zero => exact .inl (by rwa [pow_zero, pow_one] at h)
  | succ s ih =>
    rw [pow_succ, pow_mul] at h
    rcases sq_eq_one_iff.1 h with hone | hneg
    · exact (ih hone).imp_right fun ⟨i, hi, hy⟩ => ⟨i, by omega, hy⟩
    · exact .inr ⟨s, by omega, hneg⟩

/-- A round accepts every base that a prime does not divide (rule R190). -/
theorem witnessRound_prime {p a : Nat} (hp : p.Prime) (h5 : 5 ≤ p) (hodd : p % 2 = 1)
    (ha : ¬p ∣ a) : witnessRound p (decompose p).1 (decompose p).2 a = true := by
  have : Fact p.Prime := ⟨hp⟩
  obtain ⟨hdec, -⟩ := decompose_spec p hp.one_lt
  have hmod (e r : Nat) (hr : r < p) : a ^ e % p = r ↔ (a : ZMod p) ^ e = (r : ZMod p) := by
    rw [← Nat.cast_pow, ZMod.natCast_eq_natCast_iff', Nat.mod_eq_of_lt hr]
  have hneg : ((p - 1 : Nat) : ZMod p) = -1 := by
    rw [Nat.cast_sub hp.one_le, ZMod.natCast_self, Nat.cast_one, zero_sub]
  have ha0 : (a : ZMod p) ≠ 0 := by rwa [Ne, ZMod.natCast_eq_zero_iff]
  have hfermat : ((a : ZMod p) ^ (decompose p).2) ^ 2 ^ (decompose p).1 = 1 := by
    rw [← pow_mul, mul_comm, ← hdec, ZMod.pow_card_sub_one_eq_one ha0]
  rw [witnessRound_iff p _ _ a (decompose_pos p hp.one_lt hodd), hmod _ 1 (by omega), Nat.cast_one]
  refine (eq_one_or_exists_neg_one _ hfermat).imp_right fun ⟨i, hi, hy⟩ => ⟨i, hi, ?_⟩
  rw [hmod _ _ (by omega), hneg, ← hy, ← pow_mul, mul_comm]

/-- Settles O44: every base drawn is below the prime, so no round rejects it. -/
theorem mrtestAcceptsEveryPrime : Obligations.MrtestAcceptsEveryPrime := by
  intro s rounds hprime
  refine ⟨_, exec_mrtest rounds s, ?_⟩
  have h2 := hprime.two_le
  by_cases hsmall : s.x = 2 ∨ s.x = 3
  · rw [isProbablePrime_two_three rounds _ hsmall]
  · have hodd : s.x % 2 = 1 := hprime.eq_two_or_odd.resolve_left fun h => hsmall (.inl h)
    have h5 : 5 ≤ s.x := by omega
    rw [isProbablePrime_odd rounds _ h5 hodd]
    rcases mrRounds_verdict s.x (decompose s.x).1 (decompose s.x).2 rounds s.oracle with
      ⟨hp, -⟩ | ⟨-, init, a, hbases, -, hreject⟩
    · exact hp
    · obtain ⟨hlo, hhi⟩ := mem_drawnBases s.x _ _ (by omega) rounds s.oracle
        (hbases ▸ List.mem_append_right init (List.mem_singleton_self a))
      have hndvd : ¬s.x ∣ a := Nat.not_dvd_of_pos_of_lt (by omega) (by omega)
      exact absurd (witnessRound_prime hprime h5 hodd hndvd) hreject

/-- Settles O45: the two composites and the one round that accepts each. -/
theorem mrtestAdmitsFalsePositives : Obligations.MrtestAdmitsFalsePositives := by
  refine ⟨by norm_num, by norm_num, ⟨_, exec_mrtest 1 _, ?_⟩, ⟨_, exec_mrtest 1 _, ?_⟩⟩
  · decide
  · decide

end Sys2Proof.Proofs

/-! # Rabin and RSA keys (family `other`: number theory)

Rules R195, R196, R203, R204, R213 and R216. The candidates of RABDEC are the residues modulo `p q`
with the square roots' residues modulo `p` and `q`; under the key's relations one of them is the
label that was squared. RSASIGN and RSAVFY raise to the product of the exponents, which is 1 modulo
`p - 1` and `q - 1`. -/

namespace Sys2Proof.Proofs

open Sys2Proof.Machine Sys2Proof.Claims

/-! ## The Bézout pair -/

theorem residue_congr {x y : Int} {n : Nat} (h : x ≡ y [ZMOD n]) : residue x n = residue y n := by
  rw [residue, residue, h.eq]

/-- Another Bézout pair changes each sum of rule R200 by a multiple of `p q` (rule R196). -/
theorem recombine_bezout (a b k : Int) (p q r s : Nat) :
    recombine (a + k * q) (b - k * p) p q (p * q) r s = recombine a b p q (p * q) r s := by
  have hsum : (a + k * q) * p * s + (b - k * p) * q * r ≡ a * p * s + b * q * r
      [ZMOD (p * q : Nat)] := by
    rw [Int.modEq_iff_dvd]
    exact ⟨k * (r - s), by push_cast; ring⟩
  have hdiff : (a + k * q) * p * s - (b - k * p) * q * r ≡ a * p * s - b * q * r
      [ZMOD (p * q : Nat)] := by
    rw [Int.modEq_iff_dvd]
    exact ⟨-(k * (r + s)), by push_cast; ring⟩
  simp only [recombine, residue_congr hsum, residue_congr hdiff]

/-- What RABDEC past its operand check answers, over its candidates (rule R203). -/
def rabdecAnswer (s : State) (c : Roots) : State :=
  { s with
    roots := rootsOf s c
    err := if validRoots s c = 0 then .noValidRoot
      else if 2 ≤ validRoots s c then .ambiguous else s.err
    y := if validRoots s c = 1 then strippedRoot s.marker c else s.y }

theorem exec_rabdec_inDomain {s : State} (hmod : ¬(s.rp = 0 ∨ s.rq = 0 ∨ s.rn = 0)) :
    exec .rabdec s = .next (rabdecAnswer s (candidates s)) := by
  rw [rabdecAnswer]
  obtain hzero | hone | hmany : validRoots s (candidates s) = 0 ∨ validRoots s (candidates s) = 1 ∨
      2 ≤ validRoots s (candidates s) := by omega
  · rw [exec_rabdec_noRoot hmod hzero, if_pos hzero, if_neg (by omega)]
  · rw [exec_rabdec_oneRoot hmod hone, if_neg (by omega), if_neg (by omega), if_pos hone]
  · rw [exec_rabdec_ambiguous hmod hmany, if_neg (by omega), if_pos hmany, if_neg (by omega)]

/-- ROOTS is written whatever RABDEC finds (rule R203). -/
theorem rabdecAnswer_roots (s : State) (c : Roots) : (rabdecAnswer s c).roots = rootsOf s c := rfl

/-- The pair enters the answer through the candidates alone. -/
theorem rabdecAnswer_with_pair (s : State) (c : Roots) (a b : Int) :
    rabdecAnswer { s with ra := a, rb := b } c = { rabdecAnswer s c with ra := a, rb := b } := rfl

/-- Settles O49: the candidates are the same, and RABDEC uses the pair for nothing else. -/
theorem rabdecIgnoresTheBezoutChoice : Obligations.RabdecIgnoresTheBezoutChoice := by
  intro s k hp hq hn
  have hmod : ¬(s.rp = 0 ∨ s.rq = 0 ∨ s.rn = 0) := by simp [hp, hq, hn]
  have hcand : candidates { s with ra := s.ra + k * s.rq, rb := s.rb - k * s.rp } =
      candidates s := by
    simp only [candidates, hn, recombine_bezout]
  refine ⟨_, exec_rabdec_inDomain hmod, ?_⟩
  rw [exec_rabdec_inDomain
    (s := { s with ra := s.ra + k * s.rq, rb := s.rb - k * s.rp }) hmod, hcand,
    rabdecAnswer_with_pair]

/-! ## Opposed candidates -/

theorem carries_iff (marker : BitVec 16) (x : Nat) :
    carries marker x = true ↔ x % 2 ^ 16 = marker.toNat := decide_eq_true_iff

/-- Two numbers of the same low 16 bits have an even sum, so they do not add up to an odd modulus.
-/
theorem not_carries_opposed {marker : BitVec 16} {n x : Nat} (hodd : n % 2 = 1) (hx : x ≤ n) :
    ¬(carries marker x = true ∧ carries marker (n - x) = true) := by
  rw [carries_iff, carries_iff]
  omega

/-- The bits of ROOTS are the marks of the four candidates (rule R203). -/
theorem rootsMask_bits : ∀ v1 v2 v3 v4 : Bool,
    (rootsMask v1 v2 v3 v4).getLsbD 0 = v1 ∧ (rootsMask v1 v2 v3 v4).getLsbD 1 = v2 ∧
      (rootsMask v1 v2 v3 v4).getLsbD 2 = v3 ∧ (rootsMask v1 v2 v3 v4).getLsbD 3 = v4 := by decide

/-- Settles O50: `x1 + x2` and `x3 + x4` are the odd modulus. -/
theorem oddModulusOpposedRootsNotBothValid : Obligations.OddModulusOpposedRootsNotBothValid := by
  intro s t hp hq hodd h
  have hn : 0 < s.rn := by omega
  have hmod : ¬(s.rp = 0 ∨ s.rq = 0 ∨ s.rn = 0) := by simp [hp, hq, hn.ne']
  obtain ⟨h1, -, h3, -⟩ := recombine_le s.ra s.rb s.rp s.rq s.rn (squareRoot s.x s.rp)
    (squareRoot s.x s.rq) hn
  obtain ⟨b0, b1, b2, b3⟩ := rootsMask_bits (carries s.marker (candidates s).x1)
    (carries s.marker (candidates s).x2) (carries s.marker (candidates s).x3)
    (carries s.marker (candidates s).x4)
  rw [exec_rabdec_inDomain hmod] at h
  cases h
  rw [rabdecAnswer_roots, rootsOf, b0, b1, b2, b3]
  exact ⟨not_carries_opposed hodd h1.le, not_carries_opposed hodd h3.le⟩

/-! ## The candidates of a square -/

/-- Modulo a prime congruent to 3 modulo 4 the square root of a square is the number or its opposite
(rule R199). -/
theorem squareRoot_sq {p : Nat} (hp : p.Prime) (h3 : p % 4 = 3) {c m : Nat}
    (hc : (c : ZMod p) = (m : ZMod p) ^ 2) :
    (squareRoot c p : ZMod p) = m ∨ (squareRoot c p : ZMod p) = -m := by
  have : Fact p.Prime := ⟨hp⟩
  have hexp : 2 * ((p + 1) / 4 * 2) = p + 1 := by omega
  refine sq_eq_sq_iff_eq_or_eq_neg.1 ?_
  rw [squareRoot, modexp_eq, ZMod.natCast_mod, Nat.cast_pow, hc, ← pow_mul, ← pow_mul, hexp,
    pow_succ, ZMod.pow_card, sq]

/-- The Bézout sum has the residues it is put together from (rules R195 and R200). -/
theorem crt_residues {a b : Int} {p q : Nat} (h : a * p + b * q = 1) (r s : Int) :
    ((a * p * s + b * q * r : Int) : ZMod p) = r ∧
      ((a * p * s + b * q * r : Int) : ZMod q) = s := by
  have hp : (b * q : ZMod p) = 1 := by
    have := congrArg (Int.cast : Int → ZMod p) h
    push_cast at this
    rwa [ZMod.natCast_self, mul_zero, zero_add] at this
  have hq : (a * p : ZMod q) = 1 := by
    have := congrArg (Int.cast : Int → ZMod q) h
    push_cast at this
    rwa [ZMod.natCast_self, mul_zero, add_zero] at this
  push_cast
  constructor
  · rw [hp, ZMod.natCast_self, mul_zero, zero_mul, zero_add, one_mul]
  · rw [hq, ZMod.natCast_self, mul_zero, zero_mul, add_zero, one_mul]

/-- Integers that agree modulo two coprime numbers agree modulo the product. -/
theorem intCast_eq_of_coprime {p q : Nat} (h : Nat.Coprime p q) {x y : Int}
    (hp : (x : ZMod p) = y) (hq : (x : ZMod q) = y) : x ≡ y [ZMOD (p * q : Nat)] := by
  rw [ZMod.intCast_eq_intCast_iff_dvd_sub] at hp hq
  rw [Int.modEq_iff_dvd, Nat.cast_mul]
  exact IsCoprime.mul_dvd (Nat.isCoprime_iff_coprime.2 h) hp hq

/-- A number below the modulus is its residue. -/
theorem residue_eq_of_modEq {x : Int} {n m : Nat} (hm : m < n) (h : x ≡ m [ZMOD n]) :
    residue x n = m := by
  rw [residue_congr h, residue, ← Int.natCast_mod, Int.toNat_natCast, Nat.mod_eq_of_lt hm]

/-- A number below the modulus that an integer or its opposite is congruent to is the integer's
residue or the residue's opposite: what rule R200's pairs `x1, x2` and `x3, x4` offer. -/
theorem residue_or_sub_eq {x : Int} {n m : Nat} (hm : m < n)
    (h : x ≡ m [ZMOD n] ∨ -x ≡ m [ZMOD n]) : residue x n = m ∨ n - residue x n = m := by
  rcases h with h | h
  · exact .inl (residue_eq_of_modEq hm h)
  · obtain ⟨hlt, hres⟩ := residue_spec x n (by omega)
    have hsum : n ∣ m + residue x n := by
      have hsub := dvd_sub h.dvd hres
      rw [show (m : Int) - -x - (x - residue x n) = ((m + residue x n : Nat) : Int) by
        push_cast; ring] at hsub
      exact Int.natCast_dvd_natCast.1 hsub
    obtain ⟨k, hk⟩ := hsum
    have hk2 : k < 2 := Nat.lt_of_mul_lt_mul_left (a := n) (by omega)
    interval_cases k <;> omega

/-- The label that was squared is among the candidates (rules R200 and R204). -/
theorem label_mem_candidates {a b : Int} {p q m c : Nat} (hp : p.Prime) (hq : q.Prime)
    (hne : p ≠ q) (hp3 : p % 4 = 3) (hq3 : q % 4 = 3) (hbezout : a * p + b * q = 1)
    (hm : m < p * q) (hc : c = m ^ 2 % (p * q)) {x : Roots}
    (hx : x = recombine a b p q (p * q) (squareRoot c p) (squareRoot c q)) :
    (x.x1 = m ∨ x.x2 = m) ∨ (x.x3 = m ∨ x.x4 = m) := by
  have hcoprime : Nat.Coprime p q := (Nat.coprime_primes hp hq).2 hne
  have hcmod : c ≡ m ^ 2 [MOD p * q] := hc ▸ Nat.mod_modEq _ _
  have hcp : (c : ZMod p) = (m : ZMod p) ^ 2 := by
    rw [← Nat.cast_pow]
    exact (ZMod.natCast_eq_natCast_iff _ _ _).2 (hcmod.of_mul_right q)
  have hcq : (c : ZMod q) = (m : ZMod q) ^ 2 := by
    rw [← Nat.cast_pow]
    exact (ZMod.natCast_eq_natCast_iff _ _ _).2 (hcmod.of_mul_left p)
  obtain ⟨h1p, h1q⟩ := crt_residues hbezout (squareRoot c p) (squareRoot c q)
  obtain ⟨h3p, h3q⟩ := crt_residues hbezout (-squareRoot c p) (squareRoot c q)
  rw [mul_neg, ← sub_eq_add_neg] at h3p h3q
  subst hx
  rcases squareRoot_sq hp hp3 hcp with hr | hr <;> rcases squareRoot_sq hq hq3 hcq with hs | hs
  · refine .inl (residue_or_sub_eq hm (.inl (intCast_eq_of_coprime hcoprime ?_ ?_)))
    · rw [h1p]; push_cast; exact hr
    · rw [h1q]; push_cast; exact hs
  · refine .inr (residue_or_sub_eq hm (.inr (intCast_eq_of_coprime hcoprime ?_ ?_)))
    · rw [Int.cast_neg, h3p]; push_cast; rw [hr, neg_neg]
    · rw [Int.cast_neg, h3q]; push_cast; rw [hs, neg_neg]
  · refine .inr (residue_or_sub_eq hm (.inl (intCast_eq_of_coprime hcoprime ?_ ?_)))
    · rw [h3p]; push_cast; rw [hr, neg_neg]
    · rw [h3q]; push_cast; exact hs
  · refine .inl (residue_or_sub_eq hm (.inr (intCast_eq_of_coprime hcoprime ?_ ?_)))
    · rw [Int.cast_neg, h1p]; push_cast; rw [hr, neg_neg]
    · rw [Int.cast_neg, h1q]; push_cast; rw [hs, neg_neg]

/-! ## The Rabin round trip -/

/-- When one position is marked, no position before a marked one is (rule R202). -/
theorem unmarked_before : ∀ v1 v2 v3 v4 : Bool, validCount v1 v2 v3 v4 = 1 →
    (v2 = true → v1 = false) ∧ (v3 = true → v1 = false ∧ v2 = false) ∧
      (v4 = true → v1 = false ∧ v2 = false ∧ v3 = false) := by decide

theorem validCount_ne_zero : ∀ v1 v2 v3 v4 : Bool,
    (v1 = true ∨ v2 = true) ∨ (v3 = true ∨ v4 = true) → validCount v1 v2 v3 v4 ≠ 0 := by decide

/-- A marked candidate is the one that is stripped when it is the only one (rule R202). -/
theorem strippedRoot_of_only {s : State} {c : Roots} {m : Nat}
    (hmem : (c.x1 = m ∨ c.x2 = m) ∨ (c.x3 = m ∨ c.x4 = m)) (hmark : carries s.marker m = true)
    (hcount : validRoots s c = 1) : strippedRoot s.marker c = m / 2 ^ 16 := by
  obtain ⟨h2, h3, h4⟩ := unmarked_before _ _ _ _ hcount
  rw [strippedRoot_eq_div]
  rcases hmem with (rfl | rfl) | (rfl | rfl)
  · rw [hmark, if_pos rfl]
  · simp [h2 hmark, hmark]
  · simp [h3 hmark, hmark]
  · simp [h4 hmark]

/-- The state RABDEC starts from in the round trip: RABENC's answer in `Y`, loaded into `X`. -/
def loadedSquare (s : State) : State :=
  { s with x := labeled s.x s.marker ^ 2 % s.rn, y := labeled s.x s.marker ^ 2 % s.rn }

/-- Settles O51: the label is a candidate and carries the marker, so it is delivered unless another
candidate is marked too. -/
theorem rabinRoundTripOrAmbiguous : Obligations.RabinRoundTripOrAmbiguous := by
  intro s hp hq hne hp3 hq3 hn hbezout herr hfits
  have hmod : ¬((loadedSquare s).rp = 0 ∨ (loadedSquare s).rq = 0 ∨ (loadedSquare s).rn = 0) :=
    not_or.2 ⟨hp.ne_zero, not_or.2 ⟨hq.ne_zero, Nat.ne_zero_of_lt hfits⟩⟩
  have hcand : candidates (loadedSquare s) = recombine s.ra s.rb s.rp s.rq (s.rp * s.rq)
      (squareRoot (labeled s.x s.marker ^ 2 % s.rn) s.rp)
      (squareRoot (labeled s.x s.marker ^ 2 % s.rn) s.rq) := by rw [← hn]; rfl
  have hmem := label_mem_candidates hp hq hne hp3 hq3 hbezout (m := labeled s.x s.marker)
    (hn ▸ hfits) (by rw [hn]) hcand
  have hmark : carries s.marker (labeled s.x s.marker) = true :=
    (carries_iff _ _).2 (low16_labeled s.x s.marker)
  have hsome : validRoots (loadedSquare s) (candidates (loadedSquare s)) ≠ 0 := by
    refine validCount_ne_zero _ _ _ _ (hmem.imp (Or.imp ?_ ?_) (Or.imp ?_ ?_)) <;>
      exact fun h => h ▸ hmark
  by_cases hone : validRoots (loadedSquare s) (candidates (loadedSquare s)) = 1
  · refine ⟨_, _, exec_rabenc_fits hfits, exec_rabdec_oneRoot (s := loadedSquare s) hmod hone,
      .inl ⟨herr, ?_⟩⟩
    exact (strippedRoot_of_only hmem hmark hone).trans (labeled_shift s.x s.marker)
  · exact ⟨_, _, exec_rabenc_fits hfits,
      exec_rabdec_ambiguous (s := loadedSquare s) hmod (by omega), .inr ⟨rfl, rfl⟩⟩

/-! ## RSA -/

/-- Exponents that are 1 modulo `p - 1` change nothing modulo the prime `p` (Fermat). -/
theorem pow_modEq_self {p k : Nat} (hp : p.Prime) (hk : k ≡ 1 [MOD p - 1]) (hpos : k ≠ 0)
    (x : Nat) : x ^ k ≡ x [MOD p] := by
  have : Fact p.Prime := ⟨hp⟩
  rw [← ZMod.natCast_eq_natCast_iff, Nat.cast_pow]
  by_cases hx : (x : ZMod p) = 0
  · rw [hx, zero_pow hpos]
  · rw [pow_eq_pow_of_modEq hk (ZMod.pow_card_sub_one_eq_one hx), pow_one]

/-- The key relations of rule R213 make raising to both exponents the identity modulo `p q`. -/
theorem rsa_pow_pow_modEq {p q e d : Nat} (hp : p.Prime) (hq : q.Prime) (hne : p ≠ q)
    (hed : e * d ≡ 1 [MOD (p - 1) * (q - 1)]) (x : Nat) : (x ^ d) ^ e ≡ x [MOD p * q] := by
  have hpos : e * d ≠ 0 := by
    intro hzero
    rw [hzero] at hed
    have hone := mul_eq_one.1 (Nat.dvd_one.1 (Nat.modEq_zero_iff_dvd.1 hed.symm))
    have := hp.two_le
    have := hq.two_le
    omega
  rw [← pow_mul, mul_comm d e,
    ← Nat.modEq_and_modEq_iff_modEq_mul ((Nat.coprime_primes hp hq).2 hne)]
  exact ⟨pow_modEq_self hp (hed.of_mul_right _) hpos x,
    pow_modEq_self hq (hed.of_mul_left _) hpos x⟩

/-- Settles O56: the signature raised to the public exponent is the reduced digest. -/
theorem signedDigestVerifies : Obligations.SignedDigestVerifies := by
  intro s p q hp hq hne hn hed
  have hsn : s.sn ≠ 0 := hn ▸ Nat.mul_ne_zero hp.ne_zero hq.ne_zero
  refine ⟨_, _, exec_rsasign hsn, exec_rsavfy (s := { s with
    y := (s.h.toNat % s.sn) ^ s.sd % s.sn, x := (s.h.toNat % s.sn) ^ s.sd % s.sn }) hsn, ?_, rfl⟩
  refine decide_eq_true ?_
  show ((s.h.toNat % s.sn) ^ s.sd % s.sn) ^ s.se % s.sn = s.h.toNat % s.sn
  have hpow : ((s.h.toNat % s.sn) ^ s.sd) ^ s.se ≡ s.h.toNat % s.sn [MOD s.sn] :=
    hn ▸ rsa_pow_pow_modEq hp hq hne hed _
  rw [← Nat.pow_mod, hpow, Nat.mod_mod]

end Sys2Proof.Proofs

/-! # The verification of an envelope (family `other`: the hybrid decryption)

Rules R238, R239 and R261. The verification half performs digest commands, writes of SN, SE and X,
and RSAVFY, none of which touches what a decryption writes; so nothing is decrypted wherever it
stops. With nothing latched and values that fit, all of it is performed and the verdict is RSAVFY's.
-/

namespace Sys2Proof.Proofs

open Sys2Proof.Machine Sys2Proof.Claims

/-! ## States that agree on what a decryption writes -/

theorem nothingDecrypted_refl (s : State) : NothingDecrypted s s :=
  ⟨rfl, rfl, rfl, rfl, rfl, rfl, rfl, rfl, rfl⟩

theorem nothingDecrypted_trans {s t u : State} (h : NothingDecrypted s t)
    (h' : NothingDecrypted t u) : NothingDecrypted s u := by
  obtain ⟨h1, h2, h3, h4, h5, h6, h7, h8, h9⟩ := h
  obtain ⟨h1', h2', h3', h4', h5', h6', h7', h8', h9'⟩ := h'
  exact ⟨h1'.trans h1, h2'.trans h2, h3'.trans h3, h4'.trans h4, h5'.trans h5, h6'.trans h6,
    h7'.trans h7, h8'.trans h8, h9'.trans h9⟩

/-- The commands of the verification half. -/
inductive VerifyCommand : Instr → Prop
  | dgclr : VerifyCommand .dgclr
  | dgadd (ch : Char) : VerifyCommand (.dgadd ch.toNat)
  | rsavfy : VerifyCommand .rsavfy

/-- The host actions of the verification half. -/
inductive VerifyAction : Action → Prop
  | command {i : Instr} (h : VerifyCommand i) : VerifyAction (issueAction i)
  | load (r : Reg) (hr : r = .sn ∨ r = .se ∨ r = .x) (v : Int) : VerifyAction (wrAction r v)

/-- A code point fits the 21-bit field of DGADD (rule R93). -/
theorem toNat_char_lt (ch : Char) : ch.toNat < 2 ^ 21 := by
  have hvalid : ch.toNat < 0xD800 ∨ 0xDFFF < ch.toNat ∧ ch.toNat < 0x110000 := ch.valid
  omega

theorem VerifyCommand.wf {i : Instr} (h : VerifyCommand i) : i.wf = true := by
  cases h with
  | dgclr | rsavfy => rfl
  | dgadd ch => exact decide_eq_true (toNat_char_lt ch)

/-- The digest commands write H, RSAVFY the verdict or the latch (rules R211, R212 and R215). -/
theorem nothingDecrypted_exec {i : Instr} {s t : State} (hi : VerifyCommand i)
    (h : exec i s = .next t) : NothingDecrypted s t := by
  cases hi with
  | dgclr => cases h; exact nothingDecrypted_refl s
  | dgadd ch => cases h; exact nothingDecrypted_refl s
  | rsavfy =>
    by_cases hsn : s.sn = 0
    · rw [exec_rsavfy_zeroModulus hsn] at h
      cases h
      exact nothingDecrypted_refl s
    · rw [exec_rsavfy hsn] at h
      cases h
      exact nothingDecrypted_refl s

/-- Issuing a command's word: refused, or the command is executed (rule R101). -/
theorem act_issueAction (i : Instr) (s : State) :
    act (issueAction i) s = issue (encode i) s := act_wr_cmd_word (encode i) s

/-- With nothing latched a well-formed command that is issued is executed. -/
theorem act_issueAction_unlatched {i : Instr} {s : State} (hwf : i.wf = true)
    (herr : s.err = .none) : act (issueAction i) s = exec i s := by
  rw [act_issueAction, issue_of_decode_ok herr (decode_encode hwf)]

/-- The verification half does not issue CLRERR. -/
theorem VerifyCommand.encode_ne_clrerr {i : Instr} (h : VerifyCommand i) :
    encode i ≠ 0x01000000#32 := by
  intro hw
  have hd := decode_encode h.wf
  rw [hw] at hd
  cases h <;> cases hd

/-- Whether the latch refuses the command or the port the value, nothing is decrypted. -/
theorem nothingDecrypted_act {a : Action} {s t : State} (ha : VerifyAction a)
    (h : act a s = .next t) : NothingDecrypted s t := by
  cases ha with
  | command hi =>
    by_cases herr : s.err = .none
    · rw [act_issueAction_unlatched hi.wf herr] at h
      exact nothingDecrypted_exec hi h
    · rw [act_issueAction, issue_of_latched herr hi.encode_ne_clrerr] at h
      cases h
      exact nothingDecrypted_refl s
  | load r hr v =>
    have hcmd : r ≠ .cmd := by rcases hr with rfl | rfl | rfl <;> decide
    rw [wrAction, act_wr_reg r hcmd] at h
    rcases writeReg_cases s v r with ⟨-, e⟩ | ⟨_, _, -, -, -, e⟩ | ⟨_, _, -, -, e⟩ <;>
      rw [e] at h <;> cases h
    · exact nothingDecrypted_refl s
    · rcases hr with rfl | rfl | rfl <;> exact nothingDecrypted_refl s

/-! ## Wherever a procedure stops -/

/-- The state a host procedure leaves, whether it ends with a value or a failure (rule R230). -/
def endState {α : Type} : HostResult α → State
  | .done _ s => s
  | .failed _ s => s

/-- What holds where the first part stops and is kept by the next part holds where both stop. -/
theorem endState_andThen {α β : Type} {P : State → Prop} {r : HostResult α}
    {f : α → State → HostResult β} (hr : P (endState r)) (hf : ∀ a t, P t → P (endState (f a t))) :
    P (endState (r.andThen f)) := by
  cases r with
  | done a t => exact hf a t hr
  | failed k t => exact hr

theorem nothingDecrypted_perform {actions : List Action} (hall : ∀ a ∈ actions, VerifyAction a)
    (s : State) : NothingDecrypted s (endState (perform actions s)) := by
  induction actions generalizing s with
  | nil => exact nothingDecrypted_refl s
  | cons a rest ih =>
    obtain ⟨ha, hrest⟩ := List.forall_mem_cons.1 hall
    rw [perform]
    cases hact : act a s with
    | next t => exact nothingDecrypted_trans (nothingDecrypted_act ha hact) (ih hrest t)
    | fault r => exact nothingDecrypted_refl s
    | refused r => exact nothingDecrypted_refl s

/-- The actions of the verification half, before it reads STATUS (rule R239). -/
def verifyActions (e : Envelope) (rsa : RsaKey) : List Action :=
  digestActions (decimal e.encryptedKey) ++
    [wrAction .sn rsa.n, wrAction .se rsa.e, wrAction .x e.signature, issueAction .rsavfy]

theorem verifyActions_spec (e : Envelope) (rsa : RsaKey) :
    ∀ a ∈ verifyActions e rsa, VerifyAction a := by
  intro a ha
  simp only [verifyActions, digestActions, List.mem_append, List.mem_cons, List.mem_map,
    List.not_mem_nil, or_false] at ha
  rcases ha with (rfl | ⟨ch, -, rfl⟩) | rfl | rfl | rfl | rfl
  · exact .command .dgclr
  · exact .command (.dgadd ch)
  · exact .load .sn (.inl rfl) _
  · exact .load .se (.inr (.inl rfl)) _
  · exact .load .x (.inr (.inr rfl)) _
  · exact .command .rsavfy

/-- Reading a register shows it to the host and changes nothing else (rule R50). -/
theorem readValue_eq (r : Reg) (s : State) :
    readValue r s = .done (readReg (returned s (readReg s r)) r) (returned s (readReg s r)) := by
  rw [readValue, perform, act_rd_reg]
  rfl

/-- Nothing is decrypted by the verification half, wherever it stops (rule R239). -/
theorem nothingDecrypted_hybridVerify (e : Envelope) (rsa : RsaKey) (s : State) :
    NothingDecrypted s (endState (hybridVerify e rsa s)) := by
  rw [hybridVerify, ← verifyActions]
  refine endState_andThen (endState_andThen
    (nothingDecrypted_perform (verifyActions_spec e rsa) s) fun _ t ht => ?checked) fun _ t ht => ?_
  case checked => split <;> exact ht
  rw [readValue_eq]
  refine endState_andThen (r := .done _ _) ht fun status u hu => ?_
  split <;> exact hu

/-! ## The verdict -/

theorem perform_nil (s : State) : perform [] s = .done () s := rfl

theorem perform_cons_of_next {a : Action} {s t : State} (h : act a s = .next t)
    (rest : List Action) : perform (a :: rest) s = perform rest t := by
  rw [perform, h]

theorem perform_append_of_done {first : List Action} {s t : State}
    (h : perform first s = .done () t) (rest : List Action) :
    perform (first ++ rest) s = perform rest t := by
  induction first generalizing s with
  | nil => cases h; rfl
  | cons a first ih =>
    rw [List.cons_append, perform]
    rw [perform] at h
    cases hact : act a s with
    | next u => rw [hact] at h; exact ih h
    | fault r => rw [hact] at h; cases h
    | refused r => rw [hact] at h; cases h

/-- Actions that leave nothing latched pass the host's check (rule R238). -/
theorem performChecked_of_done {actions : List Action} {s t : State}
    (h : perform actions s = .done () t) (herr : t.err = .none) :
    performChecked actions s = .done () t := by
  rw [performChecked, h]
  exact if_pos herr

/-- DGADD of each character in turn adds the sum of the code points to H (rule R210). -/
theorem perform_dgadd (text : List Char) {s : State} (herr : s.err = .none) :
    perform (text.map fun ch => issueAction (.dgadd ch.toNat)) s =
      .done () { s with h := s.h + BitVec.ofNat 32 (text.map Char.toNat).sum } := by
  induction text generalizing s with
  | nil => rw [List.map_nil, List.map_nil, List.sum_nil, BitVec.add_zero, perform]
  | cons ch text ih =>
    have hact := act_issueAction_unlatched (VerifyCommand.dgadd ch).wf herr
    rw [exec_dgadd] at hact
    rw [List.map_cons, perform_cons_of_next hact,
      ih (s := { s with h := s.h + BitVec.ofNat 32 ch.toNat }) herr, List.map_cons, List.sum_cons,
      BitVec.ofNat_add, BitVec.add_assoc]

/-- The digest of a text from a cleared accumulator (rules R100 and R210). -/
theorem perform_digestActions (text : List Char) {s : State} (herr : s.err = .none) :
    perform (digestActions text) s =
      .done () { s with h := BitVec.ofNat 32 (text.map Char.toNat).sum } := by
  have hact := act_issueAction_unlatched VerifyCommand.dgclr.wf herr
  rw [exec_dgclr] at hact
  rw [digestActions, perform_cons_of_next hact,
    perform_dgadd text (s := { s with h := 0#32 }) herr, BitVec.zero_add]

/-- The digest of the decimal numeral of the encrypted key (rule R239). -/
def keyDigest (e : Envelope) : Nat := ((decimal e.encryptedKey).map Char.toNat).sum % 2 ^ 32

/-- The state RSAVFY starts from: the digest in H, the public key and the signature loaded. -/
def signatureLoaded (e : Envelope) (rsa : RsaKey) (s : State) : State :=
  { s with
    h := BitVec.ofNat 32 ((decimal e.encryptedKey).map Char.toNat).sum
    sn := rsa.n, se := rsa.e, x := e.signature }

/-- The state after the actions of the verification half, all of them performed. -/
def verified (e : Envelope) (rsa : RsaKey) (s : State) : State :=
  { signatureLoaded e rsa s with
    flagV := decide (e.signature ^ rsa.e % rsa.n = keyDigest e % rsa.n) }

/-- RSAVFY on the loaded state compares with the digest of the encrypted key (rules R215 and R239).
-/
theorem exec_rsavfy_signatureLoaded (e : Envelope) {rsa : RsaKey} (s : State) (hn0 : rsa.n ≠ 0) :
    exec .rsavfy (signatureLoaded e rsa s) = .next (verified e rsa s) := by
  have hdigest : (signatureLoaded e rsa s).h.toNat = keyDigest e := BitVec.toNat_ofNat _ _
  rw [exec_rsavfy (s := signatureLoaded e rsa s) hn0, hdigest]
  rfl

section Verdict

variable {e : Envelope} {rsa : RsaKey} {s : State}

/-- Loading a big register with a number that fits it (rules R30 and R40). -/
theorem perform_wrAction {r : Reg} {v : Nat} {s : State} (hr : r ≠ .cmd)
    (hp : portRange s.params r = some (0, 2 ^ s.params.nbits)) (hv : v < 2 ^ s.params.nbits)
    (rest : List Action) : perform (wrAction r v :: rest) s = perform rest (storeReg s v r) :=
  perform_cons_of_next
    (act_wr_inRange r v _ _ s hr hp (Int.natCast_nonneg v) (by exact_mod_cast hv)) rest

/-- With nothing latched and values that fit, the actions are performed (rules R32 and R239). -/
theorem perform_verifyActions (herr : s.err = .none) (hn0 : rsa.n ≠ 0)
    (hn : rsa.n < 2 ^ s.params.nbits) (he : rsa.e < 2 ^ s.params.nbits)
    (hsig : e.signature < 2 ^ s.params.nbits) :
    perform (verifyActions e rsa) s = .done () (verified e rsa s) := by
  refine (perform_append_of_done (perform_digestActions _ herr) _).trans ?_
  refine (perform_wrAction (r := .sn) (by decide) (by rfl) (by exact hn) _).trans ?_
  refine (perform_wrAction (r := .se) (by decide) (by rfl) (by exact he) _).trans ?_
  refine (perform_wrAction (r := .x) (by decide) (by rfl) (by exact hsig) _).trans ?_
  refine (perform_cons_of_next (t := verified e rsa s) ?_ []).trans (perform_nil _)
  exact (act_issueAction_unlatched (s := signatureLoaded e rsa s) VerifyCommand.rsavfy.wf
    herr).trans (exec_rsavfy_signatureLoaded e s hn0)

/-- Bit 6 of the STATUS word as the host reads it is V (rule R34). -/
theorem status_verdict_bit (t : State) :
    (readReg t .status / 2 ^ 6 % 2 = 1) ↔ t.flagV = true := by
  have hsum := toNat_statusWord t
  have herr := (errCode t.err).isLt
  have hkeyv := t.keyv.toNat_lt
  have hP := t.flagP.toNat_lt
  rw [readReg, ← Bool.toNat_eq_one]
  have hV := t.flagV.toNat_lt
  omega

/-- The verification half ends with the verdict of RSAVFY (rule R239). -/
theorem hybridVerify_eq (herr : s.err = .none) (hn0 : rsa.n ≠ 0)
    (hn : rsa.n < 2 ^ s.params.nbits) (he : rsa.e < 2 ^ s.params.nbits)
    (hsig : e.signature < 2 ^ s.params.nbits) :
    ∃ t, t.err = .none ∧ t.flagV = (verified e rsa s).flagV ∧ hybridVerify e rsa s =
      if t.flagV = true then .done () t else .failed .signatureInvalid t := by
  refine ⟨returned (verified e rsa s) (readReg (verified e rsa s) .status), herr, rfl, ?_⟩
  rw [hybridVerify, ← verifyActions, 
    performChecked_of_done (perform_verifyActions herr hn0 hn he hsig) herr, HostResult.andThen,
    readValue_eq, HostResult.andThen]
  exact if_congr (status_verdict_bit _) rfl rfl

end Verdict

/-- Settles O60: a failure of the verification half is the failure of the whole, and the verdict is
the comparison RSAVFY makes. -/
theorem hybridDecryptionFailsClosed : Obligations.HybridDecryptionFailsClosed := by
  refine ⟨fun e rabin rsa s t k h => ⟨by rw [hybridDecrypt, h]; rfl, ?closed⟩,
    fun e rabin rsa s herr hn0 hn he hsig => ?verdict, by decide, by decide⟩
  case closed =>
    have hkept := nothingDecrypted_hybridVerify e rsa s
    rwa [h] at hkept
  case verdict =>
    have hkept := nothingDecrypted_hybridVerify e rsa s
    obtain ⟨t, hterr, hV, hverify⟩ := hybridVerify_eq herr hn0 hn he hsig
    refine ⟨fun hdiffer => ?fails, fun hequal => ?succeeds⟩
    case fails =>
      have hfalse : t.flagV = false := hV.trans (decide_eq_false hdiffer)
      rw [hfalse, if_neg Bool.false_ne_true] at hverify
      rw [hverify] at hkept
      exact ⟨t, by rw [hybridDecrypt, hverify]; rfl, hterr, hfalse, hkept⟩
    case succeeds =>
      have htrue : t.flagV = true := hV.trans (decide_eq_true hequal)
      rw [htrue, if_pos rfl] at hverify
      rw [hverify] at hkept
      exact ⟨t, hverify, hterr, htrue, hkept⟩

end Sys2Proof.Proofs
